-- ==== Sys2Proof/Word.lean ====
section
/-! DEFINITION. The machine's words: every register, memory word and immediate is a 16-bit pattern
(spec 00_scope.md R6, R9), and a byte exists only at the image boundary (20_memory.md R35). -/

namespace Sys2Proof

/-- A 16-bit register, memory word, immediate or word address (R6, R7, R9). -/
abbrev Word := BitVec 16

/-- A byte of a program image, and of the cells memory is held in (R35, R168). -/
abbrev Byte := BitVec 8

end Sys2Proof
end

