-- ==== Sys2Proof/Syntax.lean ====
section
/-! DEFINITION. The instructions as syntax: registers, the arg2 operand, condition codes, the closed
catalogue of 48 operations (30_encoding.md R59, R60), the opcode map, and one constructor of `Instr`
for each row of spec/opcode_table.json. -/

namespace Sys2Proof

/-- The eight general registers, numbered 0 to 7 in this order (R13, R49). -/
inductive Reg where
  | a | b | c | d | e | fp | sp | ip
deriving DecidableEq, Repr, Inhabited

/-- The arg2 field of an instruction, codes 0 to 7 in this order, with the immediate word that code 7
alone brings along (R47, R50).  The constructors are named by the value reading of R50: registers
`a` to `d`, the constants 0, 1 and -1, and the immediate.  `XCHG` reads the same eight codes as the
registers `a` to `ip` instead (R111). -/
inductive Operand where
  | regA | regB | regC | regD
  | zero | one | minusOne
  | imm (w : Word)
deriving DecidableEq, Repr, Inhabited

/-- The 16 condition codes, 0 to 15 in this order (R54, R76).  The names follow the label column of R76,
which the spec supplies from general knowledge; the predicates are `Machine.condHolds`. -/
inductive Cond where
  | always | ugt | uge | ult | ule | eq | ne | sgt | sge | slt | sle | ovf | noOvf | neg | notNeg
  | cNonzero
deriving DecidableEq, Repr, Inhabited

/-- The closed catalogue of 48 operations, in the order of R60. -/
inductive Op where
  /-- `SET`: `x[a1] <- A2` (R89). -/
  | set
  /-- `LD`: load from address `A2` (R90). -/
  | ld
  /-- `ST`: store `x[a1]` at address `A2` (R91). -/
  | st
  /-- `STI`: store `A2` at address `x[a1]` (R92). -/
  | sti
  /-- `JUMP`: `ip <- A2` (R93). -/
  | jump
  /-- `RDFLAGS`: flags as a value (R94). -/
  | rdflags
  /-- `WRFLAGS`: value into the flags (R95). -/
  | wrflags
  /-- `PUSHR`: push `x[a1]` (R98). -/
  | pushr
  /-- `PUSHV`: push `A2` (R99). -/
  | pushv
  /-- `POP`: pop into `x[a1]` (R100). -/
  | pop
  /-- `CALL`: push `x[a1]`, then `x[a1] <- A2` (R101). -/
  | call
  /-- `RET`: pop into `ip` (R102). -/
  | ret
  /-- `LDFP`: load from `fp + A2` (R105). -/
  | ldfp
  /-- `STFP`: store at `fp + A2` (R106). -/
  | stfp
  /-- `LDSP`: load from `sp + A2` (R107). -/
  | ldsp
  /-- `STSP`: store at `sp + A2` (R108). -/
  | stsp
  /-- `SWAPFP`: exchange `x[a1]` with the word at `fp + A2` (R109). -/
  | swapfp
  /-- `SWAPSP`: exchange `x[a1]` with the word at `sp + A2` (R110). -/
  | swapsp
  /-- `XCHG`: exchange two registers; arg2 is a register select (R111). -/
  | xchg
  /-- `AND`: bitwise and (R113). -/
  | and
  /-- `NAND`: (R114). -/
  | nand
  /-- `OR`: (R115). -/
  | or
  /-- `NOR`: (R116). -/
  | nor
  /-- `XOR`: (R117). -/
  | xor
  /-- `XNOR`: (R118). -/
  | xnor
  /-- `NOT`: `x[a1] <- ~A2` (R119). -/
  | not
  /-- `TEST`: and, result discarded (R120). -/
  | test
  /-- `CMPEQ`: compare-equal, store pattern (R122). -/
  | cmpeq
  /-- `CMPNE`: compare-not-equal, store pattern (R123). -/
  | cmpne
  /-- `ROTL`: rotate left (R126). -/
  | rotl
  /-- `ROTR`: rotate right (R127). -/
  | rotr
  /-- `SHL`: shift left (R128). -/
  | shl
  /-- `SHLC`: shift left through carry (R129). -/
  | shlc
  /-- `SHR`: logical shift right (R130). -/
  | shr
  /-- `SHRC`: shift right through carry (R131). -/
  | shrc
  /-- `SHRA`: arithmetic shift right (R132). -/
  | shra
  /-- `ADD`: (R135). -/
  | add
  /-- `ADDC`: add with carry (R136). -/
  | addc
  /-- `SUB`: (R137). -/
  | sub
  /-- `SUBB`: subtract with borrow (R138). -/
  | subb
  /-- `COMP`: compare, flags only (R139). -/
  | comp
  /-- `SBBR`: reverse subtract with borrow (R140). -/
  | sbbr
  /-- `SUBR`: reverse subtract (R141). -/
  | subr
  /-- `OUT`: output latch (R144). -/
  | out
  /-- `IN`: read the input supplier (R145). -/
  | inp
  /-- `QERY`: device query (R146). -/
  | qery
  /-- `SETTPAT`: `tpat <- A2` (R147). -/
  | settpat
  /-- `SETFPAT`: `fpat <- A2` (R148). -/
  | setfpat
deriving DecidableEq, Repr

/-- `OPCODE_MAP(VARIANT)` as plain data: for each of the 64 opcode values one operation of the catalogue,
or `none` for `INVALID` (R55). -/
abbrev OpcodeMap := Vector (Option Op) 64

/-- What the map binds an opcode value to; `none` is `INVALID` (R55, R57). -/
def OpcodeMap.lookup (m : OpcodeMap) (k : BitVec 6) : Option Op := m[k.toNat]'k.isLt

/-- One constructor per row of spec/opcode_table.json.  Every instruction carries its whole arg1, arg2
and condition fields, also where the operation ignores them: any value is accepted (R57), an ignored
arg2 of 7 still brings its immediate word (R47), and each field must survive decode and encode (R46).
`invalid` is a word whose opcode the map binds to nothing; it carries its opcode number, since that is
all that tells two such words apart. -/
inductive Instr where
  | set (arg1 : Reg) (arg2 : Operand) (cond : Cond)
  | ld (arg1 : Reg) (arg2 : Operand) (cond : Cond)
  | st (arg1 : Reg) (arg2 : Operand) (cond : Cond)
  | sti (arg1 : Reg) (arg2 : Operand) (cond : Cond)
  | jump (arg1 : Reg) (arg2 : Operand) (cond : Cond)
  | rdflags (arg1 : Reg) (arg2 : Operand) (cond : Cond)
  | wrflags (arg1 : Reg) (arg2 : Operand) (cond : Cond)
  | pushr (arg1 : Reg) (arg2 : Operand) (cond : Cond)
  | pushv (arg1 : Reg) (arg2 : Operand) (cond : Cond)
  | pop (arg1 : Reg) (arg2 : Operand) (cond : Cond)
  | call (arg1 : Reg) (arg2 : Operand) (cond : Cond)
  | ret (arg1 : Reg) (arg2 : Operand) (cond : Cond)
  | ldfp (arg1 : Reg) (arg2 : Operand) (cond : Cond)
  | stfp (arg1 : Reg) (arg2 : Operand) (cond : Cond)
  | ldsp (arg1 : Reg) (arg2 : Operand) (cond : Cond)
  | stsp (arg1 : Reg) (arg2 : Operand) (cond : Cond)
  | swapfp (arg1 : Reg) (arg2 : Operand) (cond : Cond)
  | swapsp (arg1 : Reg) (arg2 : Operand) (cond : Cond)
  | xchg (arg1 : Reg) (arg2 : Operand) (cond : Cond)
  | and (arg1 : Reg) (arg2 : Operand) (cond : Cond)
  | nand (arg1 : Reg) (arg2 : Operand) (cond : Cond)
  | or (arg1 : Reg) (arg2 : Operand) (cond : Cond)
  | nor (arg1 : Reg) (arg2 : Operand) (cond : Cond)
  | xor (arg1 : Reg) (arg2 : Operand) (cond : Cond)
  | xnor (arg1 : Reg) (arg2 : Operand) (cond : Cond)
  | not (arg1 : Reg) (arg2 : Operand) (cond : Cond)
  | test (arg1 : Reg) (arg2 : Operand) (cond : Cond)
  | cmpeq (arg1 : Reg) (arg2 : Operand) (cond : Cond)
  | cmpne (arg1 : Reg) (arg2 : Operand) (cond : Cond)
  | rotl (arg1 : Reg) (arg2 : Operand) (cond : Cond)
  | rotr (arg1 : Reg) (arg2 : Operand) (cond : Cond)
  | shl (arg1 : Reg) (arg2 : Operand) (cond : Cond)
  | shlc (arg1 : Reg) (arg2 : Operand) (cond : Cond)
  | shr (arg1 : Reg) (arg2 : Operand) (cond : Cond)
  | shrc (arg1 : Reg) (arg2 : Operand) (cond : Cond)
  | shra (arg1 : Reg) (arg2 : Operand) (cond : Cond)
  | add (arg1 : Reg) (arg2 : Operand) (cond : Cond)
  | addc (arg1 : Reg) (arg2 : Operand) (cond : Cond)
  | sub (arg1 : Reg) (arg2 : Operand) (cond : Cond)
  | subb (arg1 : Reg) (arg2 : Operand) (cond : Cond)
  | comp (arg1 : Reg) (arg2 : Operand) (cond : Cond)
  | sbbr (arg1 : Reg) (arg2 : Operand) (cond : Cond)
  | subr (arg1 : Reg) (arg2 : Operand) (cond : Cond)
  | out (arg1 : Reg) (arg2 : Operand) (cond : Cond)
  | inp (arg1 : Reg) (arg2 : Operand) (cond : Cond)
  | qery (arg1 : Reg) (arg2 : Operand) (cond : Cond)
  | settpat (arg1 : Reg) (arg2 : Operand) (cond : Cond)
  | setfpat (arg1 : Reg) (arg2 : Operand) (cond : Cond)
  | invalid (opcode : BitVec 6) (arg1 : Reg) (arg2 : Operand) (cond : Cond)
deriving DecidableEq, Repr

/-- The operation an instruction names; `none` for an invalid opcode (R61). -/
def Instr.op : Instr → Option Op
  | .set _ _ _ => some .set
  | .ld _ _ _ => some .ld
  | .st _ _ _ => some .st
  | .sti _ _ _ => some .sti
  | .jump _ _ _ => some .jump
  | .rdflags _ _ _ => some .rdflags
  | .wrflags _ _ _ => some .wrflags
  | .pushr _ _ _ => some .pushr
  | .pushv _ _ _ => some .pushv
  | .pop _ _ _ => some .pop
  | .call _ _ _ => some .call
  | .ret _ _ _ => some .ret
  | .ldfp _ _ _ => some .ldfp
  | .stfp _ _ _ => some .stfp
  | .ldsp _ _ _ => some .ldsp
  | .stsp _ _ _ => some .stsp
  | .swapfp _ _ _ => some .swapfp
  | .swapsp _ _ _ => some .swapsp
  | .xchg _ _ _ => some .xchg
  | .and _ _ _ => some .and
  | .nand _ _ _ => some .nand
  | .or _ _ _ => some .or
  | .nor _ _ _ => some .nor
  | .xor _ _ _ => some .xor
  | .xnor _ _ _ => some .xnor
  | .not _ _ _ => some .not
  | .test _ _ _ => some .test
  | .cmpeq _ _ _ => some .cmpeq
  | .cmpne _ _ _ => some .cmpne
  | .rotl _ _ _ => some .rotl
  | .rotr _ _ _ => some .rotr
  | .shl _ _ _ => some .shl
  | .shlc _ _ _ => some .shlc
  | .shr _ _ _ => some .shr
  | .shrc _ _ _ => some .shrc
  | .shra _ _ _ => some .shra
  | .add _ _ _ => some .add
  | .addc _ _ _ => some .addc
  | .sub _ _ _ => some .sub
  | .subb _ _ _ => some .subb
  | .comp _ _ _ => some .comp
  | .sbbr _ _ _ => some .sbbr
  | .subr _ _ _ => some .subr
  | .out _ _ _ => some .out
  | .inp _ _ _ => some .inp
  | .qery _ _ _ => some .qery
  | .settpat _ _ _ => some .settpat
  | .setfpat _ _ _ => some .setfpat
  | .invalid _ _ _ _ => none

/-- The arg1 field of an instruction (R45). -/
def Instr.arg1 : Instr → Reg
  | .set x _ _ => x
  | .ld x _ _ => x
  | .st x _ _ => x
  | .sti x _ _ => x
  | .jump x _ _ => x
  | .rdflags x _ _ => x
  | .wrflags x _ _ => x
  | .pushr x _ _ => x
  | .pushv x _ _ => x
  | .pop x _ _ => x
  | .call x _ _ => x
  | .ret x _ _ => x
  | .ldfp x _ _ => x
  | .stfp x _ _ => x
  | .ldsp x _ _ => x
  | .stsp x _ _ => x
  | .swapfp x _ _ => x
  | .swapsp x _ _ => x
  | .xchg x _ _ => x
  | .and x _ _ => x
  | .nand x _ _ => x
  | .or x _ _ => x
  | .nor x _ _ => x
  | .xor x _ _ => x
  | .xnor x _ _ => x
  | .not x _ _ => x
  | .test x _ _ => x
  | .cmpeq x _ _ => x
  | .cmpne x _ _ => x
  | .rotl x _ _ => x
  | .rotr x _ _ => x
  | .shl x _ _ => x
  | .shlc x _ _ => x
  | .shr x _ _ => x
  | .shrc x _ _ => x
  | .shra x _ _ => x
  | .add x _ _ => x
  | .addc x _ _ => x
  | .sub x _ _ => x
  | .subb x _ _ => x
  | .comp x _ _ => x
  | .sbbr x _ _ => x
  | .subr x _ _ => x
  | .out x _ _ => x
  | .inp x _ _ => x
  | .qery x _ _ => x
  | .settpat x _ _ => x
  | .setfpat x _ _ => x
  | .invalid _ x _ _ => x

/-- The arg2 field of an instruction (R45). -/
def Instr.arg2 : Instr → Operand
  | .set _ x _ => x
  | .ld _ x _ => x
  | .st _ x _ => x
  | .sti _ x _ => x
  | .jump _ x _ => x
  | .rdflags _ x _ => x
  | .wrflags _ x _ => x
  | .pushr _ x _ => x
  | .pushv _ x _ => x
  | .pop _ x _ => x
  | .call _ x _ => x
  | .ret _ x _ => x
  | .ldfp _ x _ => x
  | .stfp _ x _ => x
  | .ldsp _ x _ => x
  | .stsp _ x _ => x
  | .swapfp _ x _ => x
  | .swapsp _ x _ => x
  | .xchg _ x _ => x
  | .and _ x _ => x
  | .nand _ x _ => x
  | .or _ x _ => x
  | .nor _ x _ => x
  | .xor _ x _ => x
  | .xnor _ x _ => x
  | .not _ x _ => x
  | .test _ x _ => x
  | .cmpeq _ x _ => x
  | .cmpne _ x _ => x
  | .rotl _ x _ => x
  | .rotr _ x _ => x
  | .shl _ x _ => x
  | .shlc _ x _ => x
  | .shr _ x _ => x
  | .shrc _ x _ => x
  | .shra _ x _ => x
  | .add _ x _ => x
  | .addc _ x _ => x
  | .sub _ x _ => x
  | .subb _ x _ => x
  | .comp _ x _ => x
  | .sbbr _ x _ => x
  | .subr _ x _ => x
  | .out _ x _ => x
  | .inp _ x _ => x
  | .qery _ x _ => x
  | .settpat _ x _ => x
  | .setfpat _ x _ => x
  | .invalid _ _ x _ => x

/-- The cond field of an instruction (R45). -/
def Instr.cond : Instr → Cond
  | .set _ _ x => x
  | .ld _ _ x => x
  | .st _ _ x => x
  | .sti _ _ x => x
  | .jump _ _ x => x
  | .rdflags _ _ x => x
  | .wrflags _ _ x => x
  | .pushr _ _ x => x
  | .pushv _ _ x => x
  | .pop _ _ x => x
  | .call _ _ x => x
  | .ret _ _ x => x
  | .ldfp _ _ x => x
  | .stfp _ _ x => x
  | .ldsp _ _ x => x
  | .stsp _ _ x => x
  | .swapfp _ _ x => x
  | .swapsp _ _ x => x
  | .xchg _ _ x => x
  | .and _ _ x => x
  | .nand _ _ x => x
  | .or _ _ x => x
  | .nor _ _ x => x
  | .xor _ _ x => x
  | .xnor _ _ x => x
  | .not _ _ x => x
  | .test _ _ x => x
  | .cmpeq _ _ x => x
  | .cmpne _ _ x => x
  | .rotl _ _ x => x
  | .rotr _ _ x => x
  | .shl _ _ x => x
  | .shlc _ _ x => x
  | .shr _ _ x => x
  | .shrc _ _ x => x
  | .shra _ _ x => x
  | .add _ _ x => x
  | .addc _ _ x => x
  | .sub _ _ x => x
  | .subb _ _ x => x
  | .comp _ _ x => x
  | .sbbr _ _ x => x
  | .subr _ _ x => x
  | .out _ _ x => x
  | .inp _ _ x => x
  | .qery _ _ x => x
  | .settpat _ _ x => x
  | .setfpat _ _ x => x
  | .invalid _ _ _ x => x

end Sys2Proof
end

