-- ==== Sys2Proof/Config.lean ====
section
/-! DEFINITION. What the spec leaves OPEN (00_scope.md R8): the variant, the opcode map of each variant,
the device-query table, and the values the input supplier returns.  Each is an opaque constant: nothing
in Lean can evaluate it or prove a value of it, so whatever is proved of the model holds for every
choice. -/

namespace Sys2Proof

/-- The two ISA variants; the spec's own names for them (R2). -/
inductive Variant where
  | vOld | vNew
deriving DecidableEq, Repr, Inhabited

/-- `VARIANT`: which opcode-numbering table is in force (R8; log entry 1). -/
opaque Config.variant : Variant

/-- `OPCODE_MAP`: the binding of opcode numbers to operations in each variant.  The source gives no
number (R8, R55; log entry 1). -/
opaque Config.opcodeMap : Variant → OpcodeMap

/-- `QUERY_TABLE`: the contents of the device-query table with its sentinels, a total constant function
(R8, R146, R160; log entry 3). -/
opaque Config.queryTable : Word → Word

/-- The integer the input supplier returns on its `n`-th call: a draw, unconstrained (R8, R145, R159;
log entry 4). -/
opaque Config.inputDraw : Nat → Int

end Sys2Proof
end

