-- ==== Sys2Proof/WellFormed.lean ====
section
/-! DEFINITION. Which instruction terms are well formed under an opcode map.  Operand values need no check:
`Reg`, `Operand` and `Cond` hold exactly the field values of 30_encoding.md R49, R50 and R54, an immediate
is present iff arg2 is 7 (R62) by construction, and no field value is invalid for any operation (R57). -/

namespace Sys2Proof

/-- Some opcode number is bound to the operation (R55, R56: a variant may bind fewer operations). -/
def OpcodeMap.binds (m : OpcodeMap) (op : Op) : Bool := m.toList.contains (some op)

/-- An instruction is well formed under a map iff the map binds its operation or, for `invalid`, leaves
its opcode number unbound (R55, R57). -/
def WellFormed (m : OpcodeMap) (i : Instr) : Bool :=
  match i with
  | .invalid k _ _ _ => (m.lookup k).isNone
  | i => i.op.any m.binds

end Sys2Proof
end

