-- ==== Sys2Proof/Decode.lean ====
section
/-! DEFINITION. The instruction word, its decoder and its encoder (spec 30_encoding.md): field extraction
and packing (R45, R46), the length rule (R47), the operand and condition codes (R49, R50, R54), the
decoded record (R62), decoding through an opcode map (R55, R61), the encoder, the fixture map FM of
95_test_vectors.md, the opcode map in force at reset, and `decodeTableWord`. -/

namespace Sys2Proof

/-- The four fields of an instruction word (R45). -/
structure Fields where
  opcode : BitVec 6
  arg1 : BitVec 3
  arg2 : BitVec 3
  cond : BitVec 4
deriving DecidableEq, Repr

/-- `opcode = w[15:10]`, `arg1 = w[9:7]`, `arg2 = w[6:4]`, `cond = w[3:0]` (R45). -/
def fieldsOf (w : Word) : Fields where
  opcode := w.extractLsb' 10 6
  arg1 := w.extractLsb' 7 3
  arg2 := w.extractLsb' 4 3
  cond := w.extractLsb' 0 4

/-- `w = opcode*1024 + arg1*128 + arg2*16 + cond` (R46). -/
def packWord (f : Fields) : Word :=
  BitVec.ofNat 16
    (f.opcode.toNat * 1024 + f.arg1.toNat * 128 + f.arg2.toNat * 16 + f.cond.toNat)

/-- Whether an instruction word brings an immediate word: its arg2 field alone decides, whatever the
opcode (R47). -/
def hasImmediate (w : Word) : Bool := (fieldsOf w).arg2 = 7#3

/-- How many words an instruction with this arg2 field takes (R47, R48). -/
def operandWords : Operand → Nat
  | .imm _ => 2
  | _ => 1

/-- The number of a register (R13, R49). -/
def regCode : Reg → BitVec 3
  | .a => 0 | .b => 1 | .c => 2 | .d => 3 | .e => 4 | .fp => 5 | .sp => 6 | .ip => 7

/-- The register an arg1 code selects, or an arg2 code under `XCHG` (R49, R111). -/
def regOfCode (k : BitVec 3) : Reg :=
  match k.toNat with
  | 0 => .a | 1 => .b | 2 => .c | 3 => .d | 4 => .e | 5 => .fp | 6 => .sp | _ => .ip

/-- The code of an arg2 operand (R50). -/
def operandCode : Operand → BitVec 3
  | .regA => 0 | .regB => 1 | .regC => 2 | .regD => 3
  | .zero => 4 | .one => 5 | .minusOne => 6 | .imm _ => 7

/-- The immediate word an operand brings along, if any (R47). -/
def operandImm : Operand → Option Word
  | .imm w => some w
  | _ => none

/-- The arg2 operand of a code and, for code 7, of the immediate word fetched with it (R50). -/
def operandOfCode (k : BitVec 3) (immediate : Option Word) : Operand :=
  match k.toNat with
  | 0 => .regA | 1 => .regB | 2 => .regC | 3 => .regD
  | 4 => .zero | 5 => .one | 6 => .minusOne
  | _ => .imm (immediate.getD 0)

/-- The number of a condition code (R76). -/
def condCode : Cond → BitVec 4
  | .always => 0 | .ugt => 1 | .uge => 2 | .ult => 3 | .ule => 4 | .eq => 5 | .ne => 6 | .sgt => 7
  | .sge => 8 | .slt => 9 | .sle => 10 | .ovf => 11 | .noOvf => 12 | .neg => 13 | .notNeg => 14
  | .cNonzero => 15

/-- The condition of a code; every value 0 to 15 is defined (R54). -/
def condOfCode (k : BitVec 4) : Cond :=
  match k.toNat with
  | 0 => .always | 1 => .ugt | 2 => .uge | 3 => .ult | 4 => .ule | 5 => .eq | 6 => .ne | 7 => .sgt
  | 8 => .sge | 9 => .slt | 10 => .sle | 11 => .ovf | 12 => .noOvf | 13 => .neg | 14 => .notNeg
  | _ => .cNonzero

/-- The decoded instruction as a record: `op` is `none` for `INVALID`, and `imm` is present iff `arg2` is
7 (R62).  It is what the inspection call `instructionAt` returns (R85). -/
structure Decoded where
  op : Option Op
  opcode : BitVec 6
  arg1 : BitVec 3
  arg2 : BitVec 3
  cond : BitVec 4
  imm : Option Word
deriving DecidableEq, Repr

/-- Decode an instruction word, given the word after it in memory, under an opcode map.  Total, and a
function of the two words and the map alone (R61). -/
def decodeRecord (m : OpcodeMap) (w next : Word) : Decoded where
  op := m.lookup (fieldsOf w).opcode
  opcode := (fieldsOf w).opcode
  arg1 := (fieldsOf w).arg1
  arg2 := (fieldsOf w).arg2
  cond := (fieldsOf w).cond
  imm := if hasImmediate w then some next else none

/-- The instruction of an operation with its three operand fields (R60). -/
def instrOf (op : Op) (r : Reg) (o : Operand) (c : Cond) : Instr :=
  match op with
  | .set => .set r o c
  | .ld => .ld r o c
  | .st => .st r o c
  | .sti => .sti r o c
  | .jump => .jump r o c
  | .rdflags => .rdflags r o c
  | .wrflags => .wrflags r o c
  | .pushr => .pushr r o c
  | .pushv => .pushv r o c
  | .pop => .pop r o c
  | .call => .call r o c
  | .ret => .ret r o c
  | .ldfp => .ldfp r o c
  | .stfp => .stfp r o c
  | .ldsp => .ldsp r o c
  | .stsp => .stsp r o c
  | .swapfp => .swapfp r o c
  | .swapsp => .swapsp r o c
  | .xchg => .xchg r o c
  | .and => .and r o c
  | .nand => .nand r o c
  | .or => .or r o c
  | .nor => .nor r o c
  | .xor => .xor r o c
  | .xnor => .xnor r o c
  | .not => .not r o c
  | .test => .test r o c
  | .cmpeq => .cmpeq r o c
  | .cmpne => .cmpne r o c
  | .rotl => .rotl r o c
  | .rotr => .rotr r o c
  | .shl => .shl r o c
  | .shlc => .shlc r o c
  | .shr => .shr r o c
  | .shrc => .shrc r o c
  | .shra => .shra r o c
  | .add => .add r o c
  | .addc => .addc r o c
  | .sub => .sub r o c
  | .subb => .subb r o c
  | .comp => .comp r o c
  | .sbbr => .sbbr r o c
  | .subr => .subr r o c
  | .out => .out r o c
  | .inp => .inp r o c
  | .qery => .qery r o c
  | .settpat => .settpat r o c
  | .setfpat => .setfpat r o c

/-- The instruction a decoded record stands for (R61). -/
def instrOfDecoded (d : Decoded) : Instr :=
  match d.op with
  | some op => instrOf op (regOfCode d.arg1) (operandOfCode d.arg2 d.imm) (condOfCode d.cond)
  | none => .invalid d.opcode (regOfCode d.arg1) (operandOfCode d.arg2 d.imm) (condOfCode d.cond)

/-- The instruction of a word and of the word after it (R61). -/
def decodeWith (m : OpcodeMap) (w next : Word) : Instr := instrOfDecoded (decodeRecord m w next)

/-- Why a list of words holds no whole instruction.  No step ever meets either: memory has a word at
every address (R31). -/
inductive DecodeError where
  /-- There is no word at all. -/
  | noWord
  /-- The arg2 field is 7 and the immediate word is missing (R47). -/
  | missingImmediate
deriving DecidableEq, Repr

/-- Decode the first instruction of a list of words, with the words after it.  No word is refused for
its bits: an unbound opcode decodes to `invalid` (R57, R61). -/
def decode (m : OpcodeMap) : List Word → Except DecodeError (Instr × List Word)
  | [] => .error .noWord
  | [w] => if hasImmediate w then .error .missingImmediate else .ok (decodeWith m w 0, [])
  | w :: next :: rest =>
    if hasImmediate w then .ok (decodeWith m w next, rest)
    else .ok (decodeWith m w next, next :: rest)

/-- The lowest opcode number from `k` on that a table binds to an operation. -/
def opcodeFrom (op : Op) (k : Nat) : List (Option Op) → Option (BitVec 6)
  | [] => none
  | x :: rest => if x = some op then some (BitVec.ofNat 6 k) else opcodeFrom op (k + 1) rest

/-- The opcode number an instruction is encoded with under a map: the lowest one bound to its operation
(the spec does not say that a map binds an operation only once: DESIGN CHOICE, log entry 8), and for
`invalid` the number it carries. -/
def instrOpcode (m : OpcodeMap) (i : Instr) : Option (BitVec 6) :=
  match i with
  | .invalid k _ _ _ => some k
  | i => i.op.bind fun op => opcodeFrom op 0 m.toList

/-- The words of an instruction under a map: the packed word, and the immediate word iff arg2 encodes
to 7 (R46).  An operation the map does not bind has no encoding: the list is empty. -/
def encode (m : OpcodeMap) (i : Instr) : List Word :=
  match instrOpcode m i with
  | none => []
  | some k =>
    packWord ⟨k, regCode i.arg1, operandCode i.arg2, condCode i.cond⟩ :: (operandImm i.arg2).toList

/-- The fixture map FM: opcode `k` from 1 to 48 is the `k`-th operation of R60; 0 and 49 to 63 are
`INVALID` (95_test_vectors.md, R12).  It is neither real variant. -/
def fixtureMap : OpcodeMap := #v[
  none, some .set, some .ld, some .st, some .sti, some .jump,
  some .rdflags, some .wrflags, some .pushr, some .pushv, some .pop, some .call,
  some .ret, some .ldfp, some .stfp, some .ldsp, some .stsp, some .swapfp,
  some .swapsp, some .xchg, some .and, some .nand, some .or, some .nor,
  some .xor, some .xnor, some .not, some .test, some .cmpeq, some .cmpne,
  some .rotl, some .rotr, some .shl, some .shlc, some .shr, some .shrc,
  some .shra, some .add, some .addc, some .sub, some .subb, some .comp,
  some .sbbr, some .subr, some .out, some .inp, some .qery, some .settpat,
  some .setfpat, none, none, none, none, none,
  none, none, none, none, none, none,
  none, none, none, none]

/-- The opcode map in force at reset: the OPEN parameter `OPCODE_MAP(VARIANT)`, about which nothing is
known (R8, R55; log entry 1). -/
def bootMap : OpcodeMap := Config.opcodeMap Config.variant

/-- The words of an instruction given as one number of `nbits` bits, first word in bits 15 to 0, second
in bits 31 to 16, every bit from `nbits` on being 0. -/
def tableWords (nbits w : Nat) : Word × Word :=
  (BitVec.ofNat 16 (w % 2 ^ nbits), BitVec.ofNat 16 (w % 2 ^ nbits / 65536))

/-- The instruction the decoder reads from the bits of spec/opcode_table.json, whose match and mask
columns are written for the fixture map FM. -/
def decodeTableWord (nbits w : Nat) : Option Instr :=
  match decode fixtureMap [(tableWords nbits w).1, (tableWords nbits w).2] with
  | .ok (i, _) => some i
  | .error _ => none

end Sys2Proof
end

