-- ==== Sys2Proof/Machine/State.lean ====
section
/-! DEFINITION. The machine's state as plain data: everything 10_state.md gives the execution engine, the
memory of 20_memory.md, and three fields of the model's own that stand for the parameters of 00_scope.md
R8; the reasons a step can stop; and the machine right after reset. -/

namespace Sys2Proof.Machine

/-- The eight general registers, 16 bits each (R13). -/
structure Regs where
  a : Word
  b : Word
  c : Word
  d : Word
  e : Word
  /-- Frame base of the fp-relative operations (R104). -/
  fp : Word
  /-- Stack pointer: the first free word above an upward-growing stack (R18). -/
  sp : Word
  /-- Program counter, a word address (R15). -/
  ip : Word
deriving DecidableEq, Repr

/-- The four one-bit flags (R19). -/
structure Flags where
  zf : Bool
  sf : Bool
  cf : Bool
  of : Bool
deriving DecidableEq, Repr

/-- Memory as cells (byte address, byte): word `i` of R31 has its low byte at address `2i` and its high byte
at `2i + 1`, the layout of a program image (R35, R168; log entry 5).  An unlisted byte reads as 0.  The
canonical form is `Memory.wf` in Machine/Memory.lean. -/
abbrev Memory := List Host.Cell

/-- The whole machine. -/
structure State where
  /-- General registers (R13). -/
  regs : Regs
  /-- Flags (R19). -/
  flags : Flags
  /-- Pattern register for a comparison that holds (R22). -/
  tpat : Word
  /-- Pattern register for a comparison that does not hold (R22). -/
  fpat : Word
  /-- Output latch (R23). -/
  out : Word
  /-- One-shot "output changed" flag (R24). -/
  outChanged : Bool
  /-- Error flag (R25). -/
  error : Bool
  /-- Retired instructions, unbounded (R26, R28). -/
  instret : Nat
  /-- Cycles, unbounded (R27, R28). -/
  cycles : Nat
  /-- Memory, separate state with its own reset (R31, R33). -/
  mem : Memory
  /-- The model's own: `OPCODE_MAP(VARIANT)`, the opcode map in force (R8, R55; log entry 1). -/
  opcodeMap : OpcodeMap
  /-- The model's own: the input supplier (R159).  `none`: no supplier is attached.  `some vs`: one is, and
  `vs` are the integers it is already known to return next, first one first; after them each call draws a
  free value (log entry 4). -/
  supplier : Option (List Int)
  /-- The model's own: how many times an attached supplier has been called; numbers the free draws (log entry 4). -/
  inputCalls : Nat
deriving DecidableEq, Repr

/-- The reasons the machine stops with a fault.  There are none: every address is valid, no operation
raises anything (R149), and an invalid opcode enters the error state, which is a next state (R152).
Nobody can raise one, which is safe. -/
inductive Fault where
deriving DecidableEq, Repr

/-- The reasons an instruction is refused. -/
inductive Refusal where
  /-- An instruction with no meaning yet, by its mnemonic.  Only an arm of `exec` could raise it, and no arm
  does: every instruction is modelled.  Safe. -/
  | notModelled (mnemonic : String)
deriving DecidableEq, Repr

/-- The machine right after reset: what `resetState` and `resetMemory` leave (R30, R165, R166, R170), with the
open opcode map (log entry 1) and no input supplier attached (log entry 4). -/
def State.reset : State where
  regs := { a := 0, b := 0, c := 0, d := 0, e := 0, fp := 0, sp := 0, ip := 0 }
  flags := { zf := false, sf := false, cf := false, of := false }
  tpat := 1
  fpat := 0
  out := 0
  outChanged := false
  error := false
  instret := 0
  cycles := 0
  mem := []
  opcodeMap := bootMap
  supplier := none
  inputCalls := 0

end Sys2Proof.Machine
end

