-- ==== Sys2Proof/Machine/Flags.lean ====
section
/-! DEFINITION. Every flag computation of the spec: zero and sign of a result (00_scope.md R10), the add and
subtract forms (46_arithmetic.md R134), the flag word (41_move_set.md R96) and condition evaluation
(40_sequencer.md R76). -/

namespace Sys2Proof.Machine

/-- `setZS(r)`: `zf <- (r = 0)`, `sf <- r[15]`; `cf` and `of` are kept (R10). -/
def setZS (r : Word) (f : Flags) : Flags := { f with zf := r == 0, sf := r.msb }

/-- `AddF(p, q, c)`: the sum with carry-in, modulo 65536, and all four flags.  `cf` is the unsigned overflow
of the 17-bit sum, `of` its signed overflow (R134). -/
def addForm (p q : Word) (c : Bool) : Word × Flags :=
  let s : Nat := p.toNat + q.toNat + c.toNat
  let r : Word := BitVec.ofNat 16 s
  (r, { zf := r == 0, sf := r.msb, cf := decide (65536 ≤ s),
        of := p.msb == q.msb && r.msb != p.msb })

/-- `SubF(m, t, b)`: minuend less subtrahend less borrow-in, modulo 65536, and all four flags.  `cf` is the
borrow, `of` the signed overflow (R134). -/
def subForm (m t : Word) (b : Bool) : Word × Flags :=
  let d : Int := (m.toNat : Int) - (t.toNat : Int) - (b.toNat : Int)
  let r : Word := BitVec.ofInt 16 d
  (r, { zf := r == 0, sf := r.msb, cf := decide (d < 0),
        of := m.msb != t.msb && r.msb != m.msb })

/-- `FlagWord() = zf + 2*sf + 4*cf + 8*of` (R96). -/
def flagWord (f : Flags) : Word :=
  BitVec.ofNat 16 (f.zf.toNat + 2 * f.sf.toNat + 4 * f.cf.toNat + 8 * f.of.toNat)

/-- The flags a value sets: bits 0 to 3; bits 15 to 4 are ignored (R95, R96). -/
def flagsOfWord (w : Word) : Flags where
  zf := w.getLsbD 0
  sf := w.getLsbD 1
  cf := w.getLsbD 2
  of := w.getLsbD 3

/-- `Cond(cc)` on the flags and on register `c`: the predicate column of R76.  Code 15 reads register `c`,
not a flag (R79). -/
def condHolds (cc : Cond) (s : State) : Bool :=
  let zf := s.flags.zf
  let sf := s.flags.sf
  let cf := s.flags.cf
  let of := s.flags.of
  match cc with
  | .always => true
  | .ugt => !(cf || zf)
  | .uge => !cf
  | .ult => cf
  | .ule => cf || zf
  | .eq => zf
  | .ne => !zf
  | .sgt => !(zf || (sf ^^ of))
  | .sge => sf == of
  | .slt => sf ^^ of
  | .sle => zf || (sf ^^ of)
  | .ovf => of
  | .noOvf => !of
  | .neg => sf
  | .notNeg => !sf
  | .cNonzero => s.regs.c != 0

end Sys2Proof.Machine
end

