-- ==== Sys2Proof/Machine/Memory.lean ====
section
/-! DEFINITION. Memory as data: bytes and words of the cell list, its canonical form, and the memory a
program image leaves (20_memory.md R31 to R35, 70_reset_and_hazards.md R166, R168). -/

namespace Sys2Proof.Machine

/-- What a byte that is not listed reads as: 0, since reset memory is all zero (R166, R170). -/
def blankByte : Byte := 0

/-- How many bytes the 65,536 words take (R31). -/
def memBytes : Nat := 131072

/-- The byte at a byte address. -/
def readByte : Memory → Nat → Byte
  | [], _ => blankByte
  | (k, b) :: m, a => if k = a then b else readByte m a

/-- Put a byte in front of cells that lie above it; a blank byte is not listed. -/
def consByte (a : Nat) (v : Byte) (m : Memory) : Memory := if v = blankByte then m else (a, v) :: m

/-- Memory with one byte replaced. -/
def writeByte : Memory → Nat → Byte → Memory
  | [], a, v => consByte a v []
  | (k, b) :: m, a, v =>
    if a < k then consByte a v ((k, b) :: m)
    else if a = k then consByte a v m
    else (k, b) :: writeByte m a v

/-- Byte address of a word's low byte. -/
def lowAddr (a : Word) : Nat := 2 * a.toNat

/-- Byte address of a word's high byte. -/
def highAddr (a : Word) : Nat := 2 * a.toNat + 1

/-- A word from its high and low bytes: low + 256 * high (R35). -/
def wordOfBytes (high low : Byte) : Word := BitVec.ofNat 16 (low.toNat + 256 * high.toNat)

/-- The low byte of a word. -/
def lowByte (w : Word) : Byte := BitVec.ofNat 8 w.toNat

/-- The high byte of a word. -/
def highByte (w : Word) : Byte := BitVec.ofNat 8 (w.toNat / 256)

/-- The word at a word address (R31, R32). -/
def readWord (m : Memory) (a : Word) : Word :=
  wordOfBytes (readByte m (highAddr a)) (readByte m (lowAddr a))

/-- Memory with one word replaced (R32). -/
def writeWord (m : Memory) (a : Word) (v : Word) : Memory :=
  writeByte (writeByte m (lowAddr a) (lowByte v)) (highAddr a) (highByte v)

/-- The cells from address `lo` on are canonical: addresses strictly rise and exist, and no cell lists what
an unlisted byte reads as. -/
def Memory.wfFrom (lo : Nat) : Memory → Bool
  | [] => true
  | (k, b) :: m => decide (lo ≤ k) && decide (k < memBytes) && (b != blankByte) && Memory.wfFrom (k + 1) m

/-- The canonical form of memory: equal memories are equal data. -/
def Memory.wf (m : Memory) : Bool := Memory.wfFrom 0 m

/-- The cells of a run of bytes placed from address `k` on. -/
def imageCells (k : Nat) : List Byte → Memory
  | [] => []
  | b :: bs => consByte k b (imageCells (k + 1) bs)

end Sys2Proof.Machine
end

