-- ==== Sys2Proof/Machine/Operands.lean ====
section
/-! DEFINITION. Operand forms: the two readings of the arg2 field (30_encoding.md R50,
43_stack_relative_swap.md R111), reading and writing a general register (10_state.md R13, R14), and the
shift count (45_shift_rotate.md R124). -/

namespace Sys2Proof.Machine

/-- `x[r]` (R10, R49). -/
def readReg (r : Reg) (s : State) : Word :=
  match r with
  | .a => s.regs.a
  | .b => s.regs.b
  | .c => s.regs.c
  | .d => s.regs.d
  | .e => s.regs.e
  | .fp => s.regs.fp
  | .sp => s.regs.sp
  | .ip => s.regs.ip

/-- `x[r] <- v`; writing `ip` is a control transfer (R10, R14, R17). -/
def writeReg (r : Reg) (v : Word) (s : State) : State :=
  match r with
  | .a => { s with regs := { s.regs with a := v } }
  | .b => { s with regs := { s.regs with b := v } }
  | .c => { s with regs := { s.regs with c := v } }
  | .d => { s with regs := { s.regs with d := v } }
  | .e => { s with regs := { s.regs with e := v } }
  | .fp => { s with regs := { s.regs with fp := v } }
  | .sp => { s with regs := { s.regs with sp := v } }
  | .ip => { s with regs := { s.regs with ip := v } }

/-- `A2`: registers `a` to `d`, the constants 0, 1 and -1, or the immediate word (R50, R74). -/
def operandValue (o : Operand) (s : State) : Word :=
  match o with
  | .regA => s.regs.a
  | .regB => s.regs.b
  | .regC => s.regs.c
  | .regD => s.regs.d
  | .zero => 0x0000
  | .one => 0x0001
  | .minusOne => 0xFFFF
  | .imm w => w

/-- The register the arg2 field selects under `XCHG`: codes 0 to 7 are `a` to `ip` (R111). -/
def operandReg (o : Operand) : Reg :=
  match o with
  | .regA => .a
  | .regB => .b
  | .regC => .c
  | .regD => .d
  | .zero => .e
  | .one => .fp
  | .minusOne => .sp
  | .imm _ => .ip

/-- `n = A2 & 0xF`: the shift or rotate count, 0 to 15 (R124). -/
def shiftCount (v : Word) : Nat := (v &&& 0x000F).toNat

end Sys2Proof.Machine
end

