-- ==== Sys2Proof/Machine/Ops.lean ====
section
/-! DEFINITION. The operations every meaning is written with: fetch, the start of a step, the issue of an
instruction (cycle count, `ip` advance, condition, retirement), the memory port, the stack, the input
supplier, and the one exception of the machine with the reset that leaves it. -/

namespace Sys2Proof.Machine

/-- The instruction word at `ip` (R70). -/
def fetchWord (s : State) : Word := readWord s.mem s.regs.ip

/-- The word after it, modulo 65536: the immediate, where the instruction has one (R51, R71). -/
def fetchNext (s : State) : Word := readWord s.mem (s.regs.ip + 1)

/-- The instruction at `ip`, decoded through the opcode map in force (R61, R67, R73).  The word after it is
looked at in every case; a read changes nothing (R38), so no state shows it (log entry 6). -/
def fetchInstr (s : State) : Instr := decodeWith s.opcodeMap (fetchWord s) (fetchNext s)

/-- The start of a step outside the error state: `out_changed <- 0` (R67, R69). -/
def beginStep (s : State) : State := { s with outChanged := false }

/-- Cycles added (R81). -/
def addCycles (n : Nat) (s : State) : State := { s with cycles := s.cycles + n }

/-- Before the execute phase: one cycle per fetched word, and `ip` moves past the instruction and its
immediate, modulo 65536 (R67, R72, R81). -/
def advance (o : Operand) (s : State) : State :=
  writeReg .ip (s.regs.ip + BitVec.ofNat 16 (operandWords o)) (addCycles (operandWords o) s)

/-- The instruction retires: `instret <- instret + 1` (R80). -/
def retire (s : State) : State := { s with instret := s.instret + 1 }

/-- Issue of a valid instruction: advance, run the operation `body` iff the condition holds, retire
(R67, R75, R77, R78, R80). -/
def issue (o : Operand) (cc : Cond) (body : State → State) (s : State) :
    Host.Outcome State Fault Refusal :=
  let s := advance o s
  .next (retire (if condHolds cc s then body s else s))

/-- `MemRead(addr, 1)` made by an operation: the word, and one cycle (R10, R32, R81). -/
def memRead (a : Word) (s : State) : Word × State := (readWord s.mem a, addCycles 1 s)

/-- `MemWrite(addr, 1, v)` made by an operation: the word replaced, and one cycle (R10, R32, R81). -/
def memWrite (a v : Word) (s : State) : State :=
  addCycles 1 { s with mem := writeWord s.mem a v }

/-- Load a register from memory: `x[r] <- MemRead(a, 1)`. -/
def loadReg (r : Reg) (a : Word) (s : State) : State :=
  let (v, s) := memRead a s
  writeReg r v s

/-- Exchange a register with a memory word: read the old word, write the register's value, then write the old
word into the register (R109, R110). -/
def swapReg (r : Reg) (a : Word) (s : State) : State :=
  let x := readReg r s
  let (old, s) := memRead a s
  writeReg r old (memWrite a x s)

/-- Push: `MemWrite(sp, 1, v); sp <- mod16(sp + 1)` (R18, R98). -/
def push (v : Word) (s : State) : State :=
  let sp := s.regs.sp
  writeReg .sp (sp + 1) (memWrite sp v s)

/-- Pop: the word at `sp - 1`, and `sp <- mod16(sp - 1)` (R18, R100). -/
def pop (s : State) : Word × State :=
  let sp := s.regs.sp
  let (v, s) := memRead (sp - 1) s
  (v, writeReg .sp (sp - 1) s)

/-- Pop into a register; the register is written last (R100, R102). -/
def popReg (r : Reg) (s : State) : State :=
  let (v, s) := pop s
  writeReg r v s

/-- The flags replaced (R10, R19). -/
def writeFlags (f : Flags) (s : State) : State := { s with flags := f }

/-- `tpat <- v` (R22). -/
def writeTpat (v : Word) (s : State) : State := { s with tpat := v }

/-- `fpat <- v` (R22). -/
def writeFpat (v : Word) (s : State) : State := { s with fpat := v }

/-- The output latch written and its one-shot flag raised: `out <- v; out_changed <- 1` (R23, R24). -/
def writeOut (v : Word) (s : State) : State := { s with out := v, outChanged := true }

/-- A result with its zero and sign flags: `x[r] <- v; setZS(v)`. -/
def writeRegZS (r : Reg) (v : Word) (s : State) : State :=
  writeReg r v (writeFlags (setZS v s.flags) s)

/-- A result with all four flags: of the add or subtract form (R134). -/
def writeRegFlags (r : Reg) (v : Word × Flags) (s : State) : State :=
  writeReg r v.1 (writeFlags v.2 s)

/-- The integer the supplier returns when called next: none where no supplier is attached, else a value already
known or, past the known ones, a free draw (R8, R159; log entry 4). -/
def nextInput (s : State) : Option Int :=
  match s.supplier with
  | none => none
  | some [] => some (Config.inputDraw s.inputCalls)
  | some (v :: _) => some v

/-- `Input()`: 0 when no supplier is attached, else the low 16 bits of the integer it returns (R145, R159). -/
def inputValue (s : State) : Word :=
  match nextInput s with
  | none => 0
  | some v => BitVec.ofInt 16 v

/-- The call `Input()` makes: an attached supplier is called once, an absent one not at all (R159). -/
def callInput (s : State) : State :=
  match s.supplier with
  | none => s
  | some vs => { s with supplier := some vs.tail, inputCalls := s.inputCalls + 1 }

/-- `raise InvalidOpcode()`: the one exception of the machine.  `error <- 1` and nothing else: no handler, no
vector, nothing saved, `ip` stays at the invalid word (R150, R152). -/
def raiseInvalidOpcode (s : State) : State := { s with error := true }

/-- `resetState()`: every piece of CPU state at its reset value, memory and the parameters unchanged; it is
what leaves the error state, there being no return from it (R30, R155, R165). -/
def resetState (s : State) : State :=
  { State.reset with
    mem := s.mem
    opcodeMap := s.opcodeMap
    supplier := s.supplier
    inputCalls := s.inputCalls }

/-- `resetMemory()`: every word 0, CPU state unchanged (R33, R166). -/
def resetMemory (s : State) : State := { s with mem := [] }

end Sys2Proof.Machine
end

