-- ==== Sys2Proof/Machine/Arithmetic.lean ====
section
/-! DEFINITION. The meanings of the arithmetic family (46_arithmetic.md R134 to R142). -/

namespace Sys2Proof.Machine

/-- `ADD`: `r <- AddF(x[a1], A2, 0); x[a1] <- r` (R135). -/
def execAdd (r : Reg) (o : Operand) (cc : Cond) (s : State) : Host.Outcome State Fault Refusal :=
  issue o cc (fun p => writeRegFlags r (addForm (readReg r p) (operandValue o p) false) p) s

/-- `ADDC`: `r <- AddF(x[a1], A2, cf); x[a1] <- r` (R136). -/
def execAddc (r : Reg) (o : Operand) (cc : Cond) (s : State) : Host.Outcome State Fault Refusal :=
  issue o cc (fun p => writeRegFlags r (addForm (readReg r p) (operandValue o p) p.flags.cf) p) s

/-- `SUB`: `r <- SubF(x[a1], A2, 0); x[a1] <- r` (R137). -/
def execSub (r : Reg) (o : Operand) (cc : Cond) (s : State) : Host.Outcome State Fault Refusal :=
  issue o cc (fun p => writeRegFlags r (subForm (readReg r p) (operandValue o p) false) p) s

/-- `SUBB`: `r <- SubF(x[a1], A2, cf); x[a1] <- r` (R138). -/
def execSubb (r : Reg) (o : Operand) (cc : Cond) (s : State) : Host.Outcome State Fault Refusal :=
  issue o cc (fun p => writeRegFlags r (subForm (readReg r p) (operandValue o p) p.flags.cf) p) s

/-- `COMP`: `r <- SubF(x[a1], A2, 0)`; no register is written (R139). -/
def execComp (r : Reg) (o : Operand) (cc : Cond) (s : State) : Host.Outcome State Fault Refusal :=
  issue o cc (fun p => writeFlags (subForm (readReg r p) (operandValue o p) false).2 p) s

/-- `SBBR`: `r <- SubF(A2, x[a1], cf); x[a1] <- r` (R140). -/
def execSbbr (r : Reg) (o : Operand) (cc : Cond) (s : State) : Host.Outcome State Fault Refusal :=
  issue o cc (fun p => writeRegFlags r (subForm (operandValue o p) (readReg r p) p.flags.cf) p) s

/-- `SUBR`: `r <- SubF(A2, x[a1], 0); x[a1] <- r` (R141). -/
def execSubr (r : Reg) (o : Operand) (cc : Cond) (s : State) : Host.Outcome State Fault Refusal :=
  issue o cc (fun p => writeRegFlags r (subForm (operandValue o p) (readReg r p) false) p) s

end Sys2Proof.Machine
end

