-- ==== Sys2Proof/Machine/Bitwise.lean ====
section
/-! DEFINITION. The meanings of bitwise, test and compare-store (44_bitwise_compare.md R112 to R123). -/

namespace Sys2Proof.Machine

/-- The common form of the two-operand bitwise operations: `r = f(x[a1], A2); x[a1] <- r; setZS(r)`, with `cf`
and `of` unchanged (R112). -/
def bitwise (f : Word → Word → Word) (r : Reg) (o : Operand) (s : State) : State :=
  writeRegZS r (f (readReg r s) (operandValue o s)) s

/-- The common form of the compare-store operations: `x[a1] <- tpat` if the comparison holds, else `fpat`; no
flag is written (R121). -/
def compareStore (holds : Word → Word → Bool) (r : Reg) (o : Operand) (s : State) : State :=
  writeReg r (if holds (readReg r s) (operandValue o s) then s.tpat else s.fpat) s

/-- `AND`: `r <- x[a1] & A2; x[a1] <- r; setZS(r)` (R113). -/
def execAnd (r : Reg) (o : Operand) (cc : Cond) (s : State) : Host.Outcome State Fault Refusal :=
  issue o cc (fun p => bitwise (fun x y => x &&& y) r o p) s

/-- `NAND`: `r <- ~(x[a1] & A2); x[a1] <- r; setZS(r)` (R114). -/
def execNand (r : Reg) (o : Operand) (cc : Cond) (s : State) : Host.Outcome State Fault Refusal :=
  issue o cc (fun p => bitwise (fun x y => ~~~(x &&& y)) r o p) s

/-- `OR`: `r <- x[a1] | A2; x[a1] <- r; setZS(r)` (R115). -/
def execOr (r : Reg) (o : Operand) (cc : Cond) (s : State) : Host.Outcome State Fault Refusal :=
  issue o cc (fun p => bitwise (fun x y => x ||| y) r o p) s

/-- `NOR`: `r <- ~(x[a1] | A2); x[a1] <- r; setZS(r)` (R116). -/
def execNor (r : Reg) (o : Operand) (cc : Cond) (s : State) : Host.Outcome State Fault Refusal :=
  issue o cc (fun p => bitwise (fun x y => ~~~(x ||| y)) r o p) s

/-- `XOR`: `r <- x[a1] ^ A2; x[a1] <- r; setZS(r)` (R117). -/
def execXor (r : Reg) (o : Operand) (cc : Cond) (s : State) : Host.Outcome State Fault Refusal :=
  issue o cc (fun p => bitwise (fun x y => x ^^^ y) r o p) s

/-- `XNOR`: `r <- ~(x[a1] ^ A2); x[a1] <- r; setZS(r)` (R118). -/
def execXnor (r : Reg) (o : Operand) (cc : Cond) (s : State) : Host.Outcome State Fault Refusal :=
  issue o cc (fun p => bitwise (fun x y => ~~~(x ^^^ y)) r o p) s

/-- `NOT`: `r <- ~A2; x[a1] <- r; setZS(r)` (R119). -/
def execNot (r : Reg) (o : Operand) (cc : Cond) (s : State) : Host.Outcome State Fault Refusal :=
  issue o cc (fun p => writeRegZS r (~~~(operandValue o p)) p) s

/-- `TEST`: `r <- x[a1] & A2; setZS(r)`; no register is written (R120). -/
def execTest (r : Reg) (o : Operand) (cc : Cond) (s : State) : Host.Outcome State Fault Refusal :=
  issue o cc (fun p => writeFlags (setZS (readReg r p &&& operandValue o p) p.flags) p) s

/-- `CMPEQ`: `x[a1] <- (tpat if x[a1] = A2 else fpat)` (R122). -/
def execCmpeq (r : Reg) (o : Operand) (cc : Cond) (s : State) : Host.Outcome State Fault Refusal :=
  issue o cc (fun p => compareStore (fun x y => x == y) r o p) s

/-- `CMPNE`: `x[a1] <- (tpat if x[a1] != A2 else fpat)` (R123). -/
def execCmpne (r : Reg) (o : Operand) (cc : Cond) (s : State) : Host.Outcome State Fault Refusal :=
  issue o cc (fun p => compareStore (fun x y => x != y) r o p) s

end Sys2Proof.Machine
end

