-- ==== Sys2Proof/Machine/InOut.lean ====
section
/-! DEFINITION. The meanings of I/O, device query, pattern registers (47_io_query_pattern.md R143 to R148), and the invalid
opcode (60_exceptions.md R152). -/

namespace Sys2Proof.Machine

/-- `OUT`: `out <- A2; out_changed <- 1`; arg1 is ignored (R144). -/
def execOut (o : Operand) (cc : Cond) (s : State) : Host.Outcome State Fault Refusal :=
  issue o cc (fun p => writeOut (operandValue o p) p) s

/-- `IN`: `v <- Input(); r <- mod16(v); x[a1] <- r; setZS(r)`; arg2 is ignored (R145). -/
def execIn (r : Reg) (o : Operand) (cc : Cond) (s : State) : Host.Outcome State Fault Refusal :=
  issue o cc (fun p => writeRegZS r (inputValue p) (callInput p)) s

/-- `QERY`: `x[a1] <- QUERY_TABLE(A2)` (R146). -/
def execQery (r : Reg) (o : Operand) (cc : Cond) (s : State) : Host.Outcome State Fault Refusal :=
  issue o cc (fun p => writeReg r (Config.queryTable (operandValue o p)) p) s

/-- `SETTPAT`: `tpat <- A2`; arg1 is ignored (R147). -/
def execSettpat (o : Operand) (cc : Cond) (s : State) : Host.Outcome State Fault Refusal :=
  issue o cc (fun p => writeTpat (operandValue o p) p) s

/-- `SETFPAT`: `fpat <- A2`; arg1 is ignored (R148). -/
def execSetfpat (o : Operand) (cc : Cond) (s : State) : Host.Outcome State Fault Refusal :=
  issue o cc (fun p => writeFpat (operandValue o p) p) s

/-- `INVALID`: an opcode the map binds to nothing enters the error state, whatever its other fields and
whatever its condition (R73, R151, R152, R154). -/
def execInvalid (s : State) : Host.Outcome State Fault Refusal := .next (raiseInvalidOpcode s)

end Sys2Proof.Machine
end

