-- ==== Sys2Proof/Machine/MoveSet.lean ====
section
/-! DEFINITION. The meanings of the move/set family (41_move_set.md R89 to R97). -/

namespace Sys2Proof.Machine

/-- `SET`: `x[a1] <- A2` (R89). -/
def execSet (r : Reg) (o : Operand) (cc : Cond) (s : State) : Host.Outcome State Fault Refusal :=
  issue o cc (fun p => writeReg r (operandValue o p) p) s

/-- `LD`: `x[a1] <- MemRead(A2, 1)` (R90). -/
def execLd (r : Reg) (o : Operand) (cc : Cond) (s : State) : Host.Outcome State Fault Refusal :=
  issue o cc (fun p => loadReg r (operandValue o p) p) s

/-- `ST`: `MemWrite(A2, 1, x[a1])` (R91). -/
def execSt (r : Reg) (o : Operand) (cc : Cond) (s : State) : Host.Outcome State Fault Refusal :=
  issue o cc (fun p => memWrite (operandValue o p) (readReg r p) p) s

/-- `STI`: `MemWrite(x[a1], 1, A2)` (R92). -/
def execSti (r : Reg) (o : Operand) (cc : Cond) (s : State) : Host.Outcome State Fault Refusal :=
  issue o cc (fun p => memWrite (readReg r p) (operandValue o p) p) s

/-- `JUMP`: `pc <- A2`; arg1 is ignored (R93). -/
def execJump (o : Operand) (cc : Cond) (s : State) : Host.Outcome State Fault Refusal :=
  issue o cc (fun p => writeReg .ip (operandValue o p) p) s

/-- `RDFLAGS`: `x[a1] <- FlagWord()`; arg2 is ignored (R94, R96). -/
def execRdflags (r : Reg) (o : Operand) (cc : Cond) (s : State) : Host.Outcome State Fault Refusal :=
  issue o cc (fun p => writeReg r (flagWord p.flags) p) s

/-- `WRFLAGS`: The four flags from bits 0 to 3 of `A2`; arg1 is ignored (R95, R96). -/
def execWrflags (o : Operand) (cc : Cond) (s : State) : Host.Outcome State Fault Refusal :=
  issue o cc (fun p => writeFlags (flagsOfWord (operandValue o p)) p) s

end Sys2Proof.Machine
end

