-- ==== Sys2Proof/Machine/Shift.lean ====
section
/-! DEFINITION. The meanings of rotates and shifts (45_shift_rotate.md R124 to R133): the closed forms of R126 to R132,
which the meanings use, and the single-bit steps of R125. -/

namespace Sys2Proof.Machine

/-- `mod16(x * 2^n) | (x >> (16 - n))` (R126). -/
def rotlWord (x : Word) (n : Nat) : Word :=
  BitVec.ofNat 16 (x.toNat * 2 ^ n) ||| BitVec.ofNat 16 (x.toNat / 2 ^ (16 - n))

/-- `(x >> n) | mod16(x * 2^(16 - n))` (R127). -/
def rotrWord (x : Word) (n : Nat) : Word :=
  BitVec.ofNat 16 (x.toNat / 2 ^ n) ||| BitVec.ofNat 16 (x.toNat * 2 ^ (16 - n))

/-- `SHL`: the carry and the word, `cf` being kept for a count of 0 (R128). -/
def shlWord (cf : Bool) (x : Word) (n : Nat) : Bool × Word :=
  (if 0 < n then x.getLsbD (16 - n) else cf, BitVec.ofNat 16 (x.toNat * 2 ^ n))

/-- `SHR` (R130). -/
def shrWord (cf : Bool) (x : Word) (n : Nat) : Bool × Word :=
  (if 0 < n then x.getLsbD (n - 1) else cf, BitVec.ofNat 16 (x.toNat / 2 ^ n))

/-- `SHRA`: the word is `mod16(floor(s16(x) / 2^n))` (R132). -/
def shraWord (cf : Bool) (x : Word) (n : Nat) : Bool × Word :=
  (if 0 < n then x.getLsbD (n - 1) else cf, BitVec.ofInt 16 (x.toInt / (2 ^ n : Int)))

/-- `cf*2^16 + x`, the 17-bit value the shifts through carry rotate (R129, R131). -/
def carryWord (cf : Bool) (x : Word) : Nat := cf.toNat * 65536 + x.toNat

/-- The carry and the word of a 17-bit value: `q[16]` and `q mod 2^16` (R129, R131). -/
def splitCarry (q : Nat) : Bool × Word := (q.testBit 16, BitVec.ofNat 16 q)

/-- `SHLC`: `(q * 2^n + (q >> (17 - n))) mod 2^17` (R129). -/
def shlcWord (cf : Bool) (x : Word) (n : Nat) : Bool × Word :=
  let q := carryWord cf x
  splitCarry ((q * 2 ^ n + q / 2 ^ (17 - n)) % 131072)

/-- `SHRC`: `((q >> n) + q * 2^(17 - n)) mod 2^17` (R131). -/
def shrcWord (cf : Bool) (x : Word) (n : Nat) : Bool × Word :=
  let q := carryWord cf x
  splitCarry ((q / 2 ^ n + q * 2 ^ (17 - n)) % 131072)

/-- The single-bit step of `SHL`: `cf <- x[15]; x <- mod16(2*x)` (R125). -/
def shlStep (v : Bool × Word) : Bool × Word := (v.2.getLsbD 15, v.2 + v.2)

/-- The single-bit step of `SHR`: `cf <- x[0]; x <- x >> 1` (R125). -/
def shrStep (v : Bool × Word) : Bool × Word := (v.2.getLsbD 0, v.2 >>> 1)

/-- The single-bit step of `SHRA`: bit 15 is kept (R125). -/
def shraStep (v : Bool × Word) : Bool × Word := (v.2.getLsbD 0, (v.2 >>> 1) ||| (v.2 &&& 0x8000))

/-- The single-bit step of `SHLC`: `c2 <- x[15]; x <- mod16(2*x + cf); cf <- c2` (R125). -/
def shlcStep (v : Bool × Word) : Bool × Word :=
  (v.2.getLsbD 15, v.2 + v.2 + BitVec.ofNat 16 v.1.toNat)

/-- The single-bit step of `SHRC`: `c2 <- x[0]; x <- (x >> 1) | (cf * 0x8000); cf <- c2` (R125). -/
def shrcStep (v : Bool × Word) : Bool × Word :=
  (v.2.getLsbD 0, (v.2 >>> 1) ||| (if v.1 then 0x8000 else 0))

/-- A shift by `n` as `n` repetitions of its single-bit step (R125). -/
def shiftSteps (step : Bool × Word → Bool × Word) : Nat → Bool × Word → Bool × Word
  | 0, v => v
  | n + 1, v => shiftSteps step n (step v)

/-- The common form of the rotates: the word rotated by `A2 & 0xF`, `zf` and `sf` from it, `cf` and `of` kept
(R124, R126, R127). -/
def rotate (f : Word → Nat → Word) (r : Reg) (o : Operand) (s : State) : State :=
  writeRegZS r (f (readReg r s) (shiftCount (operandValue o s))) s

/-- The common form of the shifts: the word and `cf` from the shift by `A2 & 0xF`, `zf` and `sf` from the
word, `of` kept (R124, R125). -/
def shift (f : Bool → Word → Nat → Bool × Word) (r : Reg) (o : Operand) (s : State) : State :=
  let v := f s.flags.cf (readReg r s) (shiftCount (operandValue o s))
  writeRegZS r v.2 (writeFlags { s.flags with cf := v.1 } s)

/-- `ROTL`: Rotate left in place (R126). -/
def execRotl (r : Reg) (o : Operand) (cc : Cond) (s : State) : Host.Outcome State Fault Refusal :=
  issue o cc (fun p => rotate rotlWord r o p) s

/-- `ROTR`: Rotate right in place (R127). -/
def execRotr (r : Reg) (o : Operand) (cc : Cond) (s : State) : Host.Outcome State Fault Refusal :=
  issue o cc (fun p => rotate rotrWord r o p) s

/-- `SHL`: Logical shift left (R128). -/
def execShl (r : Reg) (o : Operand) (cc : Cond) (s : State) : Host.Outcome State Fault Refusal :=
  issue o cc (fun p => shift shlWord r o p) s

/-- `SHLC`: Shift left through carry (R129). -/
def execShlc (r : Reg) (o : Operand) (cc : Cond) (s : State) : Host.Outcome State Fault Refusal :=
  issue o cc (fun p => shift shlcWord r o p) s

/-- `SHR`: Logical shift right (R130). -/
def execShr (r : Reg) (o : Operand) (cc : Cond) (s : State) : Host.Outcome State Fault Refusal :=
  issue o cc (fun p => shift shrWord r o p) s

/-- `SHRC`: Shift right through carry (R131). -/
def execShrc (r : Reg) (o : Operand) (cc : Cond) (s : State) : Host.Outcome State Fault Refusal :=
  issue o cc (fun p => shift shrcWord r o p) s

/-- `SHRA`: Arithmetic shift right (R132). -/
def execShra (r : Reg) (o : Operand) (cc : Cond) (s : State) : Host.Outcome State Fault Refusal :=
  issue o cc (fun p => shift shraWord r o p) s

end Sys2Proof.Machine
end

