-- ==== Sys2Proof/Machine/Stack.lean ====
section
/-! DEFINITION. The meanings of push, pop, call and return (42_stack.md R98 to R103). -/

namespace Sys2Proof.Machine

/-- `PUSHR`: `v <- x[a1]; MemWrite(sp, 1, v); sp <- mod16(sp + 1)`; arg2 is ignored (R98). -/
def execPushr (r : Reg) (o : Operand) (cc : Cond) (s : State) : Host.Outcome State Fault Refusal :=
  issue o cc (fun p => push (readReg r p) p) s

/-- `PUSHV`: `MemWrite(sp, 1, A2); sp <- mod16(sp + 1)`; arg1 is ignored (R99). -/
def execPushv (o : Operand) (cc : Cond) (s : State) : Host.Outcome State Fault Refusal :=
  issue o cc (fun p => push (operandValue o p) p) s

/-- `POP`: Pop into `x[a1]`, written last; arg2 is ignored (R100). -/
def execPop (r : Reg) (o : Operand) (cc : Cond) (s : State) : Host.Outcome State Fault Refusal :=
  issue o cc (fun p => popReg r p) s

/-- `CALL`: Push `x[a1]`, then `x[a1] <- A2`, the target being read first (R101). -/
def execCall (r : Reg) (o : Operand) (cc : Cond) (s : State) : Host.Outcome State Fault Refusal :=
  issue o cc (fun p => writeReg r (operandValue o p) (push (readReg r p) p)) s

/-- `RET`: Pop into `ip`; arg1 and arg2 are ignored (R102). -/
def execRet (o : Operand) (cc : Cond) (s : State) : Host.Outcome State Fault Refusal :=
  issue o cc (fun p => popReg .ip p) s

end Sys2Proof.Machine
end

