-- ==== Sys2Proof/Machine/StackRelative.lean ====
section
/-! DEFINITION. The meanings of frame- and stack-relative access, memory swaps and register exchange
(43_stack_relative_swap.md R104 to R111). -/

namespace Sys2Proof.Machine

/-- `EA = mod16(fp + A2)` (R104). -/
def frameAddr (o : Operand) (s : State) : Word := s.regs.fp + operandValue o s

/-- `EA = mod16(sp + A2)` (R104). -/
def stackAddr (o : Operand) (s : State) : Word := s.regs.sp + operandValue o s

/-- Exchange two registers: both are read before either is written (R111). -/
def exchangeRegs (r q : Reg) (s : State) : State :=
  writeReg q (readReg r s) (writeReg r (readReg q s) s)

/-- `LDFP`: `x[a1] <- MemRead(mod16(fp + A2), 1)` (R105). -/
def execLdfp (r : Reg) (o : Operand) (cc : Cond) (s : State) : Host.Outcome State Fault Refusal :=
  issue o cc (fun p => loadReg r (frameAddr o p) p) s

/-- `STFP`: `MemWrite(mod16(fp + A2), 1, x[a1])` (R106). -/
def execStfp (r : Reg) (o : Operand) (cc : Cond) (s : State) : Host.Outcome State Fault Refusal :=
  issue o cc (fun p => memWrite (frameAddr o p) (readReg r p) p) s

/-- `LDSP`: `x[a1] <- MemRead(mod16(sp + A2), 1)` (R107). -/
def execLdsp (r : Reg) (o : Operand) (cc : Cond) (s : State) : Host.Outcome State Fault Refusal :=
  issue o cc (fun p => loadReg r (stackAddr o p) p) s

/-- `STSP`: `MemWrite(mod16(sp + A2), 1, x[a1])` (R108). -/
def execStsp (r : Reg) (o : Operand) (cc : Cond) (s : State) : Host.Outcome State Fault Refusal :=
  issue o cc (fun p => memWrite (stackAddr o p) (readReg r p) p) s

/-- `SWAPFP`: Exchange `x[a1]` with the word at `mod16(fp + A2)` (R109). -/
def execSwapfp (r : Reg) (o : Operand) (cc : Cond) (s : State) : Host.Outcome State Fault Refusal :=
  issue o cc (fun p => swapReg r (frameAddr o p) p) s

/-- `SWAPSP`: Exchange `x[a1]` with the word at `mod16(sp + A2)` (R110). -/
def execSwapsp (r : Reg) (o : Operand) (cc : Cond) (s : State) : Host.Outcome State Fault Refusal :=
  issue o cc (fun p => swapReg r (stackAddr o p) p) s

/-- `XCHG`: Exchange `x[a1]` with the register the arg2 field selects; an arg2 of 7 selects `ip`, and its immediate
word is fetched and ignored (R47, R111). -/
def execXchg (r : Reg) (o : Operand) (cc : Cond) (s : State) : Host.Outcome State Fault Refusal :=
  issue o cc (fun p => exchangeRegs r (operandReg o) p) s

end Sys2Proof.Machine
end

