-- ==== Sys2Proof/Machine/Dispatch.lean ====
section
/-! DEFINITION. `exec`: one arm per constructor of `Instr`, each one direct call of its meaning (R77). -/

namespace Sys2Proof.Machine

def exec (i : Instr) (s : State) : Host.Outcome State Fault Refusal :=
  match i with
  | .set r o cc => Sys2Proof.Machine.execSet r o cc s
  | .ld r o cc => Sys2Proof.Machine.execLd r o cc s
  | .st r o cc => Sys2Proof.Machine.execSt r o cc s
  | .sti r o cc => Sys2Proof.Machine.execSti r o cc s
  | .jump _ o cc => Sys2Proof.Machine.execJump o cc s
  | .rdflags r o cc => Sys2Proof.Machine.execRdflags r o cc s
  | .wrflags _ o cc => Sys2Proof.Machine.execWrflags o cc s
  | .pushr r o cc => Sys2Proof.Machine.execPushr r o cc s
  | .pushv _ o cc => Sys2Proof.Machine.execPushv o cc s
  | .pop r o cc => Sys2Proof.Machine.execPop r o cc s
  | .call r o cc => Sys2Proof.Machine.execCall r o cc s
  | .ret _ o cc => Sys2Proof.Machine.execRet o cc s
  | .ldfp r o cc => Sys2Proof.Machine.execLdfp r o cc s
  | .stfp r o cc => Sys2Proof.Machine.execStfp r o cc s
  | .ldsp r o cc => Sys2Proof.Machine.execLdsp r o cc s
  | .stsp r o cc => Sys2Proof.Machine.execStsp r o cc s
  | .swapfp r o cc => Sys2Proof.Machine.execSwapfp r o cc s
  | .swapsp r o cc => Sys2Proof.Machine.execSwapsp r o cc s
  | .xchg r o cc => Sys2Proof.Machine.execXchg r o cc s
  | .and r o cc => Sys2Proof.Machine.execAnd r o cc s
  | .nand r o cc => Sys2Proof.Machine.execNand r o cc s
  | .or r o cc => Sys2Proof.Machine.execOr r o cc s
  | .nor r o cc => Sys2Proof.Machine.execNor r o cc s
  | .xor r o cc => Sys2Proof.Machine.execXor r o cc s
  | .xnor r o cc => Sys2Proof.Machine.execXnor r o cc s
  | .not r o cc => Sys2Proof.Machine.execNot r o cc s
  | .test r o cc => Sys2Proof.Machine.execTest r o cc s
  | .cmpeq r o cc => Sys2Proof.Machine.execCmpeq r o cc s
  | .cmpne r o cc => Sys2Proof.Machine.execCmpne r o cc s
  | .rotl r o cc => Sys2Proof.Machine.execRotl r o cc s
  | .rotr r o cc => Sys2Proof.Machine.execRotr r o cc s
  | .shl r o cc => Sys2Proof.Machine.execShl r o cc s
  | .shlc r o cc => Sys2Proof.Machine.execShlc r o cc s
  | .shr r o cc => Sys2Proof.Machine.execShr r o cc s
  | .shrc r o cc => Sys2Proof.Machine.execShrc r o cc s
  | .shra r o cc => Sys2Proof.Machine.execShra r o cc s
  | .add r o cc => Sys2Proof.Machine.execAdd r o cc s
  | .addc r o cc => Sys2Proof.Machine.execAddc r o cc s
  | .sub r o cc => Sys2Proof.Machine.execSub r o cc s
  | .subb r o cc => Sys2Proof.Machine.execSubb r o cc s
  | .comp r o cc => Sys2Proof.Machine.execComp r o cc s
  | .sbbr r o cc => Sys2Proof.Machine.execSbbr r o cc s
  | .subr r o cc => Sys2Proof.Machine.execSubr r o cc s
  | .out _ o cc => Sys2Proof.Machine.execOut o cc s
  | .inp r o cc => Sys2Proof.Machine.execIn r o cc s
  | .qery r o cc => Sys2Proof.Machine.execQery r o cc s
  | .settpat _ o cc => Sys2Proof.Machine.execSettpat o cc s
  | .setfpat _ o cc => Sys2Proof.Machine.execSetfpat o cc s
  | .invalid _ _ _ _ => Sys2Proof.Machine.execInvalid s

end Sys2Proof.Machine
end

