-- ==== Sys2Proof/Machine/Step.lean ====
section
/-! DEFINITION. One step of the engine (40_sequencer.md R67), and the placing of an instruction where the step
fetches its next one. -/

namespace Sys2Proof.Machine

/-- `executeInstruction()`: nothing in the error state (R68); else `out_changed` is cleared (R69), the
instruction at `ip` is fetched and decoded (R70, R71, R73), and it is executed (R67). -/
def step (s : State) : Host.Outcome State Fault Refusal :=
  if s.error then .next s else exec (fetchInstr s) (beginStep s)

/-- The state with an instruction's bits, numbered as spec/opcode_table.json numbers them, stored at `ip`, and
all that the fetch of it takes: the table is written for the fixture map FM, so that map is put in force, and
the error flag is cleared.  It stands for the controller's load of a program (R162, R168; log entry 2). -/
def State.withFetchWord (s : State) (nbits w : Nat) : State :=
  { s with
    mem := writeWord (writeWord s.mem s.regs.ip (tableWords nbits w).1) (s.regs.ip + 1) (tableWords nbits w).2
    opcodeMap := fixtureMap
    error := false }

end Sys2Proof.Machine
end

