-- ==== Sys2Proof/Machine/Assembler.lean ====
section
/-! DEFINITION. The assembler's side of the contract with the block, the part of it 00_scope.md R5 keeps
(30_encoding.md R52, R53, R63 to R66): literals, operands, conditions, and from parsed statements the words of an
image.  The text layer (comments, tokens, mnemonic spellings) is outside the block; choices the rules leave open
are log entry 10. -/

namespace Sys2Proof.Machine

/-- Whether a literal value is in the range the assembler takes (R64). -/
def literalInRange (v : Int) : Bool := decide (-32768 ≤ v ∧ v ≤ 65535)

/-- An assembler literal as a word: values outside -32768..65535 are an error (R52, R64). -/
def literalWord (v : Int) : Option Word :=
  if literalInRange v then some (BitVec.ofInt 16 v) else none

/-- A character literal of one or two bytes, packed little-endian (R64). -/
def charLiteral : List Byte → Option Word
  | [x] => some (wordOfBytes 0 x)
  | [x, y] => some (wordOfBytes y x)
  | _ => none

/-- An arg2 operand as the assembler meets it (R52). -/
inductive SourceOperand where
  | register (r : Reg)
  /-- A literal written plainly. -/
  | literal (v : Int)
  /-- A literal forced into an immediate by the `imm:` prefix. -/
  | forced (v : Int)
  /-- The value of a name with its offset, known where it is met. -/
  | known (v : Int)
  /-- The value of a name that is forward-referenced, variable-backed or forced by the `imm:` prefix. -/
  | reference (v : Int)
deriving DecidableEq, Repr

/-- A value as an immediate word: its low 16 bits (R52). -/
def immediateOperand (v : Int) : Operand := .imm (BitVec.ofInt 16 v)

/-- A value as an operand: 0, 1, -1 without an immediate word, any other value as its low 16 bits (R52). -/
def valueOperand (v : Int) : Operand :=
  if v = 0 then .zero
  else if v = 1 then .one
  else if v = -1 then .minusOne
  else immediateOperand v

/-- The encoder side of the arg2 contract: `a` to `d` as 0 to 3, the literals 0, 1, -1 as 4 to 6 without an
immediate word, every other value, and every forced or referenced one, as 7 with one, the value's low 16 bits (R52).
A literal outside -32768..65535 is an error (R64); a value computed from a name has no such bound.  That a known value
assembles as the literal would is DESIGN CHOICE (log entry 10). -/
def assembleOperand (x : SourceOperand) : Option Operand :=
  match x with
  | .register .a => some .regA
  | .register .b => some .regB
  | .register .c => some .regC
  | .register .d => some .regD
  | .register _ => none
  | .literal v => if literalInRange v then some (valueOperand v) else none
  | .forced v => if literalInRange v then some (immediateOperand v) else none
  | .known v => some (valueOperand v)
  | .reference v => some (immediateOperand v)

/-- The condition of an instruction as written: without a suffix it is code 0, always (R53). -/
def assembleCond (suffix : Option (BitVec 4)) : Cond :=
  match suffix with
  | none => .always
  | some k => condOfCode k

/-- The value of a digit character; that `a` to `f` count in either case is DESIGN CHOICE (log entry 10). -/
def digitValue (c : Char) : Option Nat :=
  let n := c.toNat
  if 48 ≤ n ∧ n ≤ 57 then some (n - 48)
  else if 97 ≤ n ∧ n ≤ 102 then some (n - 87)
  else if 65 ≤ n ∧ n ≤ 70 then some (n - 55)
  else none

/-- The value of digits in a radix, `acc` being the value of those before them; no digit outside the radix. -/
def digitsValue (radix : Nat) : Nat → List Char → Option Nat
  | acc, [] => some acc
  | acc, c :: cs =>
    match digitValue c with
    | some d => if d < radix then digitsValue radix (acc * radix + d) cs else none
    | none => none

/-- The radix a last character stands for: `h`, `o`, `b` (R64). -/
def radixOfSuffix : Char → Option Nat
  | 'h' => some 16
  | 'o' => some 8
  | 'b' => some 2
  | _ => none

/-- An unsigned integer literal: digits with a trailing radix suffix, or decimal digits; at least one digit (R64). -/
def naturalLiteral (cs : List Char) : Option Nat :=
  let parse (radix : Nat) (ds : List Char) : Option Nat := if ds = [] then none else digitsValue radix 0 ds
  match cs.getLast?.bind radixOfSuffix with
  | some radix => parse radix cs.dropLast
  | none => parse 10 cs

/-- An integer literal, signed, in the range -32768..65535 (R64, R65).  That the sign is a minus only, a leading plus
being an error, is DESIGN CHOICE (log entry 10). -/
def integerLiteral (cs : List Char) : Option Int :=
  let v : Option Int :=
    match cs with
    | '-' :: ds => (naturalLiteral ds).map fun n => -(n : Int)
    | ds => (naturalLiteral ds).map fun n => (n : Int)
  v.bind fun v => if literalInRange v then some v else none

/-- The byte of an escape in a character literal, by the character after the backslash (R64); the numbers are ASCII
(log entry 10). -/
def escapeByte : Char → Option Byte
  | 'b' => some 8
  | 'n' => some 10
  | 't' => some 9
  | 'r' => some 13
  | 'f' => some 12
  | '\'' => some 39
  | '\\' => some 92
  | '0' => some 0
  | _ => none

/-- The bytes of what stands between the quotes of a character literal (R64).  A character stands for the byte of its
code; that one of code 256 or more is an error is DESIGN CHOICE (log entry 10). -/
def charBytes : List Char → Option (List Byte)
  | [] => some []
  | '\\' :: c :: cs =>
    match escapeByte c, charBytes cs with
    | some b, some bs => some (b :: bs)
    | _, _ => none
  | '\\' :: [] => none
  | c :: cs => if c.toNat < 256 then (charBytes cs).map (BitVec.ofNat 8 c.toNat :: ·) else none

/-- The word of a character literal (R64). -/
def charLiteralWord (cs : List Char) : Option Word := (charBytes cs).bind charLiteral

/-- A register name, in any case (R63). -/
def registerOfName (cs : List Char) : Option Reg :=
  match cs.map Char.toLower with
  | ['a'] => some .a
  | ['b'] => some .b
  | ['c'] => some .c
  | ['d'] => some .d
  | ['e'] => some .e
  | ['f', 'p'] => some .fp
  | ['s', 'p'] => some .sp
  | ['i', 'p'] => some .ip
  | _ => none

/-- A character an identifier may contain: letters, digits, `_`, `$`, `.` (R63).  That a letter or digit is an ASCII one
is DESIGN CHOICE (log entry 10). -/
def identChar (c : Char) : Bool := c.isAlphanum || c == '_' || c == '$' || c == '.'

/-- An identifier, as its characters.  That two which differ in case are two names is DEDUCED (log entry 10). -/
abbrev Ident := List Char

/-- An immediate expression: a signed literal, or an identifier with a constant offset, `name(+N)` or `name(-N)`, the
sign being in `offset` (R65). -/
inductive Immediate where
  | literal (v : Int)
  | named (name : Ident) (offset : Int)
deriving DecidableEq, Repr

/-- An arg2 as written: a register, or an immediate expression, forced by the `imm:` prefix or not (R52, R65). -/
inductive SourceArg where
  | register (r : Reg)
  | value (e : Immediate) (forced : Bool)
deriving DecidableEq, Repr

/-- A parsed statement; an instruction names its operation as R66 has the spec's programs do. -/
inductive Statement where
  /-- `(name)`: the value is the current word offset (R63). -/
  | label (name : Ident)
  /-- `mnemonic[:condition] arg1, arg2;` (R53, R63). -/
  | instruction (op : Op) (arg1 : Reg) (arg2 : SourceArg) (cond : Option (BitVec 4))
  /-- `_def name value;` (R65). -/
  | constant (name : Ident) (value : Immediate)
  /-- `_val <immediate>;` (R65). -/
  | rawWord (value : Immediate)
  /-- `_var name[(len)][, init];` (R65).  That a length and an initializer are integers, and no names or expressions, is
  DESIGN CHOICE (log entry 10). -/
  | variable (name : Ident) (len : Option Nat) (init : List Int)
deriving DecidableEq, Repr

/-- A word of the code: known, or the deferred patch of a name whose value is not known yet (R12, R52). -/
inductive CodeWord where
  | known (w : Word)
  | patch (name : Ident) (offset : Int)
deriving DecidableEq, Repr

/-- A variable of the data segment: its words, zero-filled beyond the initializer (R65). -/
structure DataVar where
  name : Ident
  words : List Word
deriving DecidableEq, Repr

/-- What assembling has produced so far: the code, the names whose value is known, the variables in order. -/
structure Assembly where
  code : List CodeWord
  names : List (Ident × Int)
  vars : List DataVar
deriving DecidableEq, Repr

/-- The value a name is known to have. -/
def nameValue (names : List (Ident × Int)) (n : Ident) : Option Int := (names.find? fun p => p.1 == n).map (·.2)

/-- A name defined already, as a known value or as a variable. -/
def Assembly.defines (a : Assembly) (n : Ident) : Bool :=
  (nameValue a.names n).isSome || a.vars.any fun v => v.name == n

/-- What an immediate expression stands for where it is met: a value, or a name to be patched in later. -/
inductive Resolved where
  | value (v : Int)
  | patch (name : Ident) (offset : Int)
deriving DecidableEq, Repr

/-- An immediate expression where it is met.  A literal out of range is an error wherever it stands, the `N` of
`name(+N)` and `name(-N)` included (R64, R65). -/
def resolve (names : List (Ident × Int)) (e : Immediate) : Option Resolved :=
  match e with
  | .literal v => if literalInRange v then some (.value v) else none
  | .named n k =>
    if literalInRange (k.natAbs : Int) then
      match nameValue names n with
      | some v => some (.value (v + k))
      | none => some (.patch n k)
    else none

/-- The patch an expression needs, where its value is not known yet. -/
def Resolved.toPatch : Resolved → Option (Ident × Int)
  | .value _ => none
  | .patch n k => some (n, k)

/-- An immediate expression as an operand, from what it stands for; a patch has 0 in its place (R52). -/
def sourceOperand (e : Immediate) (forced : Bool) (y : Resolved) : SourceOperand :=
  match e, y with
  | .literal v, _ => if forced then .forced v else .literal v
  | .named _ _, .value v => if forced then .reference v else .known v
  | .named _ _, .patch _ _ => .reference 0

/-- The operand an arg2 assembles to, with the patch its immediate word needs (R52).  `XCHG` takes any register (R111),
other operations `a` to `d`.  That `XCHG` takes a value too, assembled as for any operation, so that `XCHG a, 0` exchanges
with `e`, is DESIGN CHOICE (log entry 10). -/
def assembleArg (names : List (Ident × Int)) (op : Op) (x : SourceArg) : Option (Operand × Option (Ident × Int)) :=
  match x with
  | .register r =>
    if op = .xchg then some (operandOfCode (regCode r) (some 0), none)
    else (assembleOperand (.register r)).map fun o => (o, none)
  | .value e forced =>
    (resolve names e).bind fun y => (assembleOperand (sourceOperand e forced y)).map fun o => (o, y.toPatch)

/-- The words of an instruction, the immediate word being a patch where its value is not known yet. -/
def instructionWords (m : OpcodeMap) (i : Instr) (p : Option (Ident × Int)) : List CodeWord :=
  match encode m i, p with
  | w :: _ :: [], some (n, k) => [.known w, .patch n k]
  | ws, _ => ws.map .known

/-- The words of a variable: the initializer, then zeros (R65).  Its literals are in range, the length too (R64).  The
length where none is written, and an initializer longer than the length being an error, are DESIGN CHOICE (log
entry 10). -/
def variableWords (len : Option Nat) (init : List Int) : Option (List Word) :=
  (init.mapM literalWord).bind fun ws =>
    let n := len.getD (max 1 ws.length)
    if ws.length ≤ n ∧ len.all (fun k => literalInRange k) then some (ws ++ List.replicate (n - ws.length) 0)
    else none

/-- The name `name.len` a variable defines (R65).  That it is a known name, and not variable-backed, is DESIGN CHOICE
(log entry 10). -/
def lenName (n : Ident) : Ident := n ++ ['.', 'l', 'e', 'n']

/-- One statement; `none` is an assembly error: a name defined twice, an operation the map does not bind, a literal out
of range, a bad operand, a constant whose value is not known (93_implementation_defined.md U9). -/
def assembleStatement (m : OpcodeMap) (a : Assembly) (x : Statement) : Option Assembly :=
  match x with
  | .label n => if a.defines n then none else some { a with names := (n, (a.code.length : Int)) :: a.names }
  | .constant n e =>
    if a.defines n then none
    else (resolve a.names e).bind fun y =>
      match y with
      | .value v => some { a with names := (n, v) :: a.names }
      | .patch _ _ => none
  | .rawWord e =>
    (resolve a.names e).bind fun y =>
      match y with
      | .value v => some { a with code := a.code ++ [.known (BitVec.ofInt 16 v)] }
      | .patch n k => some { a with code := a.code ++ [.patch n k] }
  | .variable n len init =>
    if a.defines n || a.defines (lenName n) then none
    else (variableWords len init).map fun ws =>
      { a with vars := a.vars ++ [⟨n, ws⟩], names := (lenName n, (ws.length : Int)) :: a.names }
  | .instruction op r x c =>
    (assembleArg a.names op x).bind fun p =>
      match instructionWords m (instrOf op r p.1 (assembleCond c)) p.2 with
      | [] => none
      | ws => some { a with code := a.code ++ ws }

/-- Statements one after another. -/
def assembleAll (m : OpcodeMap) : Assembly → List Statement → Option Assembly
  | a, [] => some a
  | a, x :: xs => (assembleStatement m a x).bind fun b => assembleAll m b xs

/-- The addresses of variables placed from `k` on, in the order they are declared (R39, R65). -/
def variableNames (k : Nat) : List DataVar → List (Ident × Int)
  | [] => []
  | v :: vs => (v.name, (k : Int)) :: variableNames (k + v.words.length) vs

/-- The four names that bound code and data (R39).  That `__codeEnd` and `__dataEnd` name the first address past their
segment, and not its last word, and that a use of `__codeStart` too, whose value is always 0, is a forward reference, are
DESIGN CHOICE (log entry 10). -/
def boundNames (code data : Nat) : List (Ident × Int) :=
  [(['_', '_', 'c', 'o', 'd', 'e', 'S', 't', 'a', 'r', 't'], 0),
    (['_', '_', 'c', 'o', 'd', 'e', 'E', 'n', 'd'], (code : Int)),
    (['_', '_', 'd', 'a', 't', 'a', 'S', 't', 'a', 'r', 't'], (code : Int)),
    (['_', '_', 'd', 'a', 't', 'a', 'E', 'n', 'd'], ((code + data : Nat) : Int))]

/-- A word of the image: a patch is the low 16 bits of its name's value and offset (R52); one whose name was never
defined is an error (U9). -/
def patchWord (names : List (Ident × Int)) (x : CodeWord) : Option Word :=
  match x with
  | .known w => some w
  | .patch n k => (nameValue names n).map fun v => BitVec.ofInt 16 (v + k)

/-- The image of a program: code from address 0, then the variables; no image on any error, an image of more than
65,536 words being one (R39, R65, U9).  The four bounding names have their values only here, at the end, so that each of
their uses takes an immediate word (code 7) and none can stand in a `_def`, `__codeStart` included: DESIGN CHOICE (log
entry 10). -/
def assemble (m : OpcodeMap) (xs : List Statement) : Option (List Word) :=
  (assembleAll m ⟨[], [], []⟩ xs).bind fun a =>
    let data := (a.vars.map (·.words)).flatten
    let names := a.names ++ variableNames a.code.length a.vars ++ boundNames a.code.length data.length
    (a.code.mapM (patchWord names)).bind fun code =>
      if code.length + data.length ≤ 65536 then some (code ++ data) else none

/-- The bytes of an image file: two per word, low byte first (R35). -/
def imageBytes : List Word → List Byte
  | [] => []
  | w :: ws => lowByte w :: highByte w :: imageBytes ws

end Sys2Proof.Machine
end

