-- ==== Sys2Proof/Machine/Controller.lean ====
section
/-! DEFINITION. What surrounds the step: the four outcomes of a step (40_sequencer.md R84), inspection (R85),
the controller's interactions (60_exceptions.md R161 to R163) and the image load (70_reset_and_hazards.md R168). -/

namespace Sys2Proof.Machine

/-- The four outcomes of a step (R84). -/
inductive StepKind where
  /-- `error` was 1; nothing changed. -/
  | noOp
  /-- The opcode was invalid; `error` became 1. -/
  | invalid
  /-- Valid opcode, condition false. -/
  | skipped
  /-- Valid opcode, condition true. -/
  | executed
deriving DecidableEq, Repr

/-- Which of the four a step from this state is (R84); the condition is read after the `ip` advance (R75). -/
def stepKind (s : State) : StepKind :=
  if s.error then .noOp
  else
    let i := fetchInstr s
    match i.op with
    | none => .invalid
    | some _ => if condHolds i.cond (advance i.arg2 (beginStep s)) then .executed else .skipped

/-- `instructionAt(address)`: the decoded record of the word or words there; no state changes, and it works in
the error state (R85). -/
def instructionAt (a : Word) (s : State) : Decoded :=
  decodeRecord s.opcodeMap (readWord s.mem a) (readWord s.mem (a + 1))

/-- What the controller sees of the output device between steps: the latch if it changed in the last step
(R86, R158).  Reading it changes nothing. -/
def outputChange (s : State) : Option Word := if s.outChanged then some s.out else none

/-- Image load: word `i` becomes `byte[2i] + 256 * byte[2i+1]` of the file, words past its end 0; a file of
more than 65,536 x 2 bytes is rejected and nothing changes; CPU state is kept (R35, R168). -/
def loadImage (file : List Byte) (s : State) : State :=
  if memBytes < file.length then s else { s with mem := imageCells 0 file }

/-- The controller's interactions, each taken between steps (R161 to R163).  A step mid-way or a concurrent
write has no action (R163). -/
inductive Action where
  | executeInstruction
  | resetState
  | resetMemory
  | loadImage (file : List Byte)
  /-- Attach a supplier; `values` are the integers it is already known to return next. -/
  | attachSupplier (values : List Int)
  | detachSupplier
  | setReg (r : Reg) (v : Word)
  | setFlags (f : Flags)
  | setPatterns (tpat fpat : Word)
  | setOutput (out : Word) (changed : Bool)
  | setError (error : Bool)
  | setCounters (instret cycles : Nat)
  | setWord (a v : Word)
deriving DecidableEq, Repr

/-- The state an outcome leaves; a stop would leave the state as it was, and none occurs. -/
def outcomeState (s : State) (x : Host.Outcome State Fault Refusal) : State :=
  match x with
  | .next t => t
  | .fault _ => s
  | .refused _ => s

/-- What each interaction does to the block (R162, R163, R165 to R168). -/
def interact (x : Action) (s : State) : State :=
  match x with
  | .executeInstruction => outcomeState s (step s)
  | .resetState => Sys2Proof.Machine.resetState s
  | .resetMemory => Sys2Proof.Machine.resetMemory s
  | .loadImage file => Sys2Proof.Machine.loadImage file s
  | .attachSupplier values => { s with supplier := some values }
  | .detachSupplier => { s with supplier := none }
  | .setReg r v => writeReg r v s
  | .setFlags f => { s with flags := f }
  | .setPatterns t f => { s with tpat := t, fpat := f }
  | .setOutput v b => { s with out := v, outChanged := b }
  | .setError b => { s with error := b }
  | .setCounters n k => { s with instret := n, cycles := k }
  | .setWord a v => { s with mem := writeWord s.mem a v }

/-- A session of the controller: its actions one after another, from one logical thread (R161). -/
def interactAll : List Action → State → State
  | [], s => s
  | x :: xs, s => interactAll xs (interact x s)

end Sys2Proof.Machine
end

