-- ==== Sys2Proof/Safety.lean ====
section
/-! DEFINITION. What counts as a good state and as a run of the machine, in the terms the statements use. -/

namespace Sys2Proof.Machine

/-- The invariant of the machine: memory is in canonical form, so that equal memories are equal data, and no
cell lies outside the 65,536 words (R31).  Every other field holds only values the spec allows, by its type. -/
def State.Inv (s : State) : Prop := Memory.wf s.mem = true

/-- The only stopped state the machine has: the error state (R87, R164). -/
def State.Stopped (s : State) : Prop := s.error = true

/-- A run bounded by a step budget (R87). -/
def runFor (fuel : Nat) (s : State) : Host.Outcome State Fault Refusal := Host.Core.run Sys2Proof.core fuel s

/-- The end of a run: the error state, or the step budget spent (R87). -/
def RunEnded (fuel : Nat) (s : State) : Prop := s.Stopped ∨ fuel = 0

/-! The vocabulary of the frame statements: what an executed instruction with arg2 operand `o`, taken from `s`
to `t`, leaves as it was. -/

/-- What an operation reads of register `q` in the execute phase: for `ip` the address of the next instruction in
sequence, modulo 65536 (R16), for every other register its value at the start. -/
def phaseReg (o : Operand) (s : State) (q : Reg) : Word :=
  if q = .ip then s.regs.ip + BitVec.ofNat 16 (operandWords o) else readReg q s

/-- Every register outside `rs` holds what the execute phase started with: `ip` the sequential address (R72),
every other register its old value. -/
def KeepsRegs (o : Operand) (rs : List Reg) (s t : State) : Prop :=
  ∀ q, q ∉ rs → readReg q t = phaseReg o s q

/-- Every byte of memory reads as before. -/
def KeepsMemory (s t : State) : Prop := ∀ a, readByte t.mem a = readByte s.mem a

/-- Every byte of memory but the two of the word at `w` reads as before. -/
def KeepsMemoryBut (w : Word) (s t : State) : Prop :=
  ∀ a, a ≠ lowAddr w → a ≠ highAddr w → readByte t.mem a = readByte s.mem a

/-- The pattern registers are as before (R22). -/
def KeepsPatterns (s t : State) : Prop := t.tpat = s.tpat ∧ t.fpat = s.fpat

/-- The output latch and its one-shot flag are as before (R23, R24). -/
def KeepsOutput (s t : State) : Prop := t.out = s.out ∧ t.outChanged = s.outChanged

/-- The input supplier has not been called (R159). -/
def KeepsInput (s t : State) : Prop := t.supplier = s.supplier ∧ t.inputCalls = s.inputCalls

/-- The error flag and the opcode map are as before (R25, R55). -/
def KeepsControl (s t : State) : Prop := t.error = s.error ∧ t.opcodeMap = s.opcodeMap

/-- Pattern registers, output, input, error flag and opcode map are all as before. -/
def KeepsRest (s t : State) : Prop :=
  KeepsPatterns s t ∧ KeepsOutput s t ∧ KeepsInput s t ∧ KeepsControl s t

/-- The instruction retired and cost its fetch cycles and `n` memory accesses (R80, R81). -/
def Counts (o : Operand) (n : Nat) (s t : State) : Prop :=
  t.cycles = s.cycles + operandWords o + n ∧ t.instret = s.instret + 1

/-- Column "memory accesses" of R60. -/
def memAccesses : Op → Nat
  | .ld | .st | .sti | .pushr | .pushv | .pop | .call | .ret | .ldfp | .stfp | .ldsp | .stsp => 1
  | .swapfp | .swapsp => 2
  | _ => 0

/-- `zf` and `sf` are those of the result `v`, `cf` and `of` are as before (R10). -/
def SetsZS (v : Word) (s t : State) : Prop :=
  t.flags.zf = decide (v = 0) ∧ t.flags.sf = v.getLsbD 15 ∧ t.flags.cf = s.flags.cf ∧ t.flags.of = s.flags.of

/-- Every piece of CPU state is at its value in the table of R30. -/
def AtResetValues (s : State) : Prop :=
  (∀ r, readReg r s = 0) ∧
    (s.flags.zf = false ∧ s.flags.sf = false ∧ s.flags.cf = false ∧ s.flags.of = false) ∧
    s.tpat = 1 ∧ s.fpat = 0 ∧ s.out = 0 ∧ s.outChanged = false ∧ s.error = false ∧ s.instret = 0 ∧ s.cycles = 0

/-! The shapes several operations share, stated once. -/

/-- `mk` loads `x[a1]` from the word at `addr`, the address computed at the start of the execute phase; one memory
access, no flag. -/
def LoadsFrom (mk : Reg → Operand → Cond → Instr) (addr : Operand → State → Word) : Prop :=
  ∀ (r : Reg) (o : Operand) (cc : Cond) (s : State), condHolds cc s = true →
    ∃ t, exec (mk r o cc) s = .next t ∧ readReg r t = readWord s.mem (addr o s) ∧
      KeepsRegs o [r] s t ∧ t.flags = s.flags ∧ KeepsMemory s t ∧ KeepsRest s t ∧ Counts o 1 s t

/-- `mk` stores `x[a1]` at the word at `addr` and changes no other byte, no register but `ip`, and no flag. -/
def StoresTo (mk : Reg → Operand → Cond → Instr) (addr : Operand → State → Word) : Prop :=
  ∀ (r : Reg) (o : Operand) (cc : Cond) (s : State), s.Inv → condHolds cc s = true →
    ∃ t, exec (mk r o cc) s = .next t ∧ readWord t.mem (addr o s) = phaseReg o s r ∧
      KeepsMemoryBut (addr o s) s t ∧ KeepsRegs o [] s t ∧ t.flags = s.flags ∧ KeepsRest s t ∧ Counts o 1 s t

/-- `mk` pushes `value`: it lands at the old `sp`, and `sp` grows by one. -/
def Pushes (mk : Reg → Operand → Cond → Instr) (value : Reg → Operand → State → Word) : Prop :=
  ∀ (r : Reg) (o : Operand) (cc : Cond) (s : State), s.Inv → condHolds cc s = true →
    ∃ t, exec (mk r o cc) s = .next t ∧ readWord t.mem s.regs.sp = value r o s ∧ t.regs.sp = s.regs.sp + 1 ∧
      KeepsMemoryBut s.regs.sp s t ∧ KeepsRegs o [.sp] s t ∧ t.flags = s.flags ∧ KeepsRest s t ∧ Counts o 1 s t

/-- `mk` exchanges `x[a1]` with the word at `addr`; two memory accesses, no flag. -/
def SwapsWith (mk : Reg → Operand → Cond → Instr) (addr : Operand → State → Word) : Prop :=
  ∀ (r : Reg) (o : Operand) (cc : Cond) (s : State), s.Inv → condHolds cc s = true →
    ∃ t, exec (mk r o cc) s = .next t ∧ readReg r t = readWord s.mem (addr o s) ∧
      readWord t.mem (addr o s) = phaseReg o s r ∧
      KeepsMemoryBut (addr o s) s t ∧ KeepsRegs o [r] s t ∧ t.flags = s.flags ∧ KeepsRest s t ∧ Counts o 2 s t

/-- `mk` writes `f x[a1] A2` to `x[a1]` with `zf` and `sf` of it, and nothing else but `ip`. -/
def ComputesZS (mk : Reg → Operand → Cond → Instr) (f : Word → Word → Word) : Prop :=
  ∀ (r : Reg) (o : Operand) (cc : Cond) (s : State), condHolds cc s = true →
    ∃ t, exec (mk r o cc) s = .next t ∧ readReg r t = f (phaseReg o s r) (operandValue o s) ∧
      SetsZS (readReg r t) s t ∧ KeepsRegs o [r] s t ∧ KeepsMemory s t ∧ KeepsRest s t ∧ Counts o 0 s t

/-- `mk` writes `tpat` to `x[a1]` where `holds x[a1] A2`, and `fpat` where not; no flag. -/
def StoresPattern (mk : Reg → Operand → Cond → Instr) (holds : Word → Word → Prop) : Prop :=
  ∀ (r : Reg) (o : Operand) (cc : Cond) (s : State), condHolds cc s = true →
    ∃ t, exec (mk r o cc) s = .next t ∧
      (holds (phaseReg o s r) (operandValue o s) → readReg r t = s.tpat) ∧
      (¬ holds (phaseReg o s r) (operandValue o s) → readReg r t = s.fpat) ∧
      KeepsRegs o [r] s t ∧ t.flags = s.flags ∧ KeepsMemory s t ∧ KeepsRest s t ∧ Counts o 0 s t

/-- `mk` shifts `x[a1]` by `n = A2 mod 16`: the word is `word x n`, `cf` is `carry x n` unless `n` is 0, `zf` and
`sf` are those of the word, `of` is kept. -/
def ShiftsTo (mk : Reg → Operand → Cond → Instr) (word : Word → Nat → Word) (carry : Word → Nat → Bool) : Prop :=
  ∀ (r : Reg) (o : Operand) (cc : Cond) (s : State), condHolds cc s = true →
    ∃ t n, n = (operandValue o s).toNat % 16 ∧ exec (mk r o cc) s = .next t ∧
      readReg r t = word (phaseReg o s r) n ∧
      t.flags.cf = (if n = 0 then s.flags.cf else carry (phaseReg o s r) n) ∧
      t.flags.zf = decide (readReg r t = 0) ∧ t.flags.sf = (readReg r t).getLsbD 15 ∧ t.flags.of = s.flags.of ∧
      KeepsRegs o [r] s t ∧ KeepsMemory s t ∧ KeepsRest s t ∧ Counts o 0 s t

/-- `mk` shifts the 17-bit value of `cf` and `x[a1]` to `rot q n`, `n = A2 mod 16`: its bit 16 is the new `cf`, its
low 16 bits the new `x[a1]`; `zf` and `sf` are those of the word, `of` is kept. -/
def ShiftsCarryTo (mk : Reg → Operand → Cond → Instr) (rot : Nat → Nat → Nat) : Prop :=
  ∀ (r : Reg) (o : Operand) (cc : Cond) (s : State), condHolds cc s = true →
    ∃ t, exec (mk r o cc) s = .next t ∧
      t.flags.cf.toNat * 65536 + (readReg r t).toNat =
        rot (s.flags.cf.toNat * 65536 + (phaseReg o s r).toNat) ((operandValue o s).toNat % 16) ∧
      t.flags.zf = decide (readReg r t = 0) ∧ t.flags.sf = (readReg r t).getLsbD 15 ∧ t.flags.of = s.flags.of ∧
      KeepsRegs o [r] s t ∧ KeepsMemory s t ∧ KeepsRest s t ∧ Counts o 0 s t

/-- `v` and the flags of `t` are those of the add form: the exact sum `n`, taken modulo 65536 (R134). -/
def IsAddResult (x y : Word) (c : Bool) (v : Word) (t : State) : Prop :=
  v.toNat = (x.toNat + y.toNat + c.toNat) % 65536 ∧
    t.flags.cf = decide (65536 ≤ x.toNat + y.toNat + c.toNat) ∧
    t.flags.of = ((x.getLsbD 15 == y.getLsbD 15) && (v.getLsbD 15 != x.getLsbD 15)) ∧
    t.flags.zf = decide (v = 0) ∧ t.flags.sf = v.getLsbD 15

/-- `v` and the flags of `t` are those of the subtract form: minuend `m`, subtrahend `u`, borrow-in `b` (R134). -/
def IsSubResult (m u : Word) (b : Bool) (v : Word) (t : State) : Prop :=
  (v.toNat : Int) = ((m.toNat : Int) - u.toNat - b.toNat) % 65536 ∧
    t.flags.cf = decide ((m.toNat : Int) - u.toNat - b.toNat < 0) ∧
    t.flags.of = ((m.getLsbD 15 != u.getLsbD 15) && (v.getLsbD 15 != m.getLsbD 15)) ∧
    t.flags.zf = decide (v = 0) ∧ t.flags.sf = v.getLsbD 15

/-- `mk` adds `A2` and `carry` to `x[a1]`. -/
def AddsTo (mk : Reg → Operand → Cond → Instr) (carry : State → Bool) : Prop :=
  ∀ (r : Reg) (o : Operand) (cc : Cond) (s : State), condHolds cc s = true →
    ∃ t, exec (mk r o cc) s = .next t ∧
      IsAddResult (phaseReg o s r) (operandValue o s) (carry s) (readReg r t) t ∧
      KeepsRegs o [r] s t ∧ KeepsMemory s t ∧ KeepsRest s t ∧ Counts o 0 s t

/-- `mk` subtracts with minuend and subtrahend picked from `x[a1]` and `A2`, and with `borrow`. -/
def SubtractsTo (mk : Reg → Operand → Cond → Instr) (minuend subtrahend : Word → Word → Word)
    (borrow : State → Bool) : Prop :=
  ∀ (r : Reg) (o : Operand) (cc : Cond) (s : State), condHolds cc s = true →
    ∃ t, exec (mk r o cc) s = .next t ∧
      IsSubResult (minuend (phaseReg o s r) (operandValue o s)) (subtrahend (phaseReg o s r) (operandValue o s))
        (borrow s) (readReg r t) t ∧
      KeepsRegs o [r] s t ∧ KeepsMemory s t ∧ KeepsRest s t ∧ Counts o 0 s t

end Sys2Proof.Machine
end

