-- ==== Sys2Proof/Certificates/Slice0/Obligations.lean ====
section
/-! DEFINITION. The statements for the provers: what the numbered rules of the spec say the instructions and the
machine do.  A statement whose docstring or title names a log entry rests on a choice of the model's own. -/

open Sys2Proof Sys2Proof.Machine

/-- SET answers a next state for every register, operand, condition and state where the condition holds: x[a1] (ip
included: a jump) holds A2; every other register is kept but for ip, which is the sequential address; flags,
memory, patterns, output, input, error are kept; cycles grow by the fetch cycles only and instret by 1.  Cites
R89. -/
def Obligations.SetWritesOperandToRegister : Prop :=
  ∀ (r : Reg) (o : Operand) (cc : Cond) (s : State), condHolds cc s = true →
    ∃ t, exec (.set r o cc) s = .next t ∧ readReg r t = operandValue o s ∧
      KeepsRegs o [r] s t ∧ t.flags = s.flags ∧ KeepsMemory s t ∧ KeepsRest s t ∧ Counts o 0 s t

/-- LD, LDFP and LDSP answer a next state wherever the condition holds: x[a1] holds the word at A2, fp + A2 or sp +
A2 (modulo 65536, base read before the write), ip included as destination; every other register but ip, all
flags, all memory and all devices are kept; one memory access is counted.  Cites R90, R105, R107. -/
def Obligations.LoadsReadTheirAddress : Prop :=
  LoadsFrom .ld (fun o s => operandValue o s) ∧
    LoadsFrom .ldfp (fun o s => s.regs.fp + operandValue o s) ∧
    LoadsFrom .ldsp (fun o s => s.regs.sp + operandValue o s)

/-- On canonical memory ST, STFP and STSP answer a next state wherever the condition holds: the word at A2, fp + A2
or sp + A2 (modulo 65536) is x[a1], the next instruction's address for ip; every other byte of memory, every
register but ip, all flags and all devices are kept; one memory access is counted.  Cites R91, R106, R108. -/
def Obligations.StoresWriteTheirAddress : Prop :=
  StoresTo .st (fun o s => operandValue o s) ∧
    StoresTo .stfp (fun o s => s.regs.fp + operandValue o s) ∧
    StoresTo .stsp (fun o s => s.regs.sp + operandValue o s)

/-- On canonical memory STI answers a next state wherever the condition holds: the word at the address x[a1] holds
(the next instruction's address for ip) is A2; every other byte of memory, every register but ip, all flags and
all devices are kept; one memory access is counted. With a1 = ip and an unconditional one-word STI the stored
word is what the next fetch reads.  Cites R92. -/
def Obligations.StiWritesAtRegisterAddress : Prop :=
  (∀ (r : Reg) (o : Operand) (cc : Cond) (s : State), s.Inv → condHolds cc s = true →
    ∃ t, exec (.sti r o cc) s = .next t ∧ readWord t.mem (phaseReg o s r) = operandValue o s ∧
      KeepsMemoryBut (phaseReg o s r) s t ∧ KeepsRegs o [] s t ∧ t.flags = s.flags ∧ KeepsRest s t ∧ Counts o 1 s t) ∧
    ∀ (o : Operand) (s : State), s.Inv →
      ∃ t, exec (.sti .ip o .always) s = .next t ∧ fetchWord t = operandValue o s

/-- JUMP answers a next state for every arg1 (ignored), operand, condition and state: ip is A2 where the condition
holds and the sequential address where it does not; every other register, flags, memory and devices are kept;
only fetch cycles are counted.  Cites R93. -/
def Obligations.JumpSetsIp : Prop :=
  ∀ (r : Reg) (o : Operand) (cc : Cond) (s : State),
    ∃ t, exec (.jump r o cc) s = .next t ∧
      t.regs.ip = (if condHolds cc s then operandValue o s else s.regs.ip + BitVec.ofNat 16 (operandWords o)) ∧
      KeepsRegs o [.ip] s t ∧ t.flags = s.flags ∧ KeepsMemory s t ∧ KeepsRest s t ∧ Counts o 0 s t

/-- RDFLAGS answers a next state wherever the condition holds: x[a1] as a number is zf + 2*sf + 4*cf + 8*of, so bits
15 to 4 are 0; every other register but ip, the flags, memory and devices are kept; an arg2 of 7 still counts
and skips its immediate word.  Cites R94. -/
def Obligations.RdflagsReadsFlagWord : Prop :=
  ∀ (r : Reg) (o : Operand) (cc : Cond) (s : State), condHolds cc s = true →
    ∃ t, exec (.rdflags r o cc) s = .next t ∧
      (readReg r t).toNat =
        s.flags.zf.toNat + 2 * s.flags.sf.toNat + 4 * s.flags.cf.toNat + 8 * s.flags.of.toNat ∧
      KeepsRegs o [r] s t ∧ t.flags = s.flags ∧ KeepsMemory s t ∧ KeepsRest s t ∧ Counts o 0 s t

/-- WRFLAGS answers a next state wherever the condition holds: zf, sf, cf, of are bits 0, 1, 2, 3 of A2; no register
but ip, no byte of memory and no device changes; arg1 is ignored.  Cites R95. -/
def Obligations.WrflagsWritesFlags : Prop :=
  ∀ (r : Reg) (o : Operand) (cc : Cond) (s : State), condHolds cc s = true →
    ∃ t, exec (.wrflags r o cc) s = .next t ∧
      t.flags.zf = (operandValue o s).getLsbD 0 ∧ t.flags.sf = (operandValue o s).getLsbD 1 ∧
      t.flags.cf = (operandValue o s).getLsbD 2 ∧ t.flags.of = (operandValue o s).getLsbD 3 ∧
      KeepsRegs o [] s t ∧ KeepsMemory s t ∧ KeepsRest s t ∧ Counts o 0 s t

/-- On canonical memory PUSHR and PUSHV answer a next state wherever the condition holds: the word at the old sp is
x[a1] (sp before the increment; the next address for ip) or A2; sp is the old sp plus 1 modulo 65536; every
other byte of memory, every register but sp and ip, flags and devices are kept; one memory access is counted.
PUSHV of a register a to d does what PUSHR of it does, in memory, registers and flags, for equally long
instructions.  Cites R98, R99. -/
def Obligations.PushesWriteAtStackPointer : Prop :=
  Pushes .pushr (fun r o s => phaseReg o s r) ∧ Pushes .pushv (fun _ o s => operandValue o s) ∧
    ∀ (r : Reg) (o : Operand) (cc : Cond) (s : State), o ∈ [Operand.regA, .regB, .regC, .regD] →
      exec (.pushv r o cc) s = exec (.pushr (operandReg o) o cc) s

/-- POP answers a next state wherever the condition holds: x[a1] is the word at sp - 1 modulo 65536, also when x[a1]
is sp or ip; sp is the old sp minus 1 unless it is the destination; every other register but ip, flags, all of
memory and devices are kept; one memory access is counted.  Cites R100. -/
def Obligations.PopReadsBelowStackPointer : Prop :=
  ∀ (r : Reg) (o : Operand) (cc : Cond) (s : State), condHolds cc s = true →
    ∃ t, exec (.pop r o cc) s = .next t ∧ readReg r t = readWord s.mem (s.regs.sp - 1) ∧
      (r ≠ .sp → t.regs.sp = s.regs.sp - 1) ∧
      KeepsRegs o [r, .sp] s t ∧ t.flags = s.flags ∧ KeepsMemory s t ∧ KeepsRest s t ∧ Counts o 1 s t

/-- On canonical memory CALL answers a next state wherever the condition holds: the word at the old sp is x[a1] as
the execute phase reads it (the return address for ip), x[a1] is A2, and sp is the old sp plus 1 unless x[a1] is
sp; every other byte of memory, every other register but ip, flags and devices are kept; one memory access is
counted.  Cites R101. -/
def Obligations.CallPushesThenSetsRegister : Prop :=
  ∀ (r : Reg) (o : Operand) (cc : Cond) (s : State), s.Inv → condHolds cc s = true →
    ∃ t, exec (.call r o cc) s = .next t ∧ readWord t.mem s.regs.sp = phaseReg o s r ∧
      readReg r t = operandValue o s ∧ (r ≠ .sp → t.regs.sp = s.regs.sp + 1) ∧
      KeepsMemoryBut s.regs.sp s t ∧ KeepsRegs o [r, .sp] s t ∧ t.flags = s.flags ∧ KeepsRest s t ∧ Counts o 1 s t

/-- RET answers a next state wherever the condition holds: ip is the word at sp - 1 modulo 65536 and sp the old sp
minus 1; every other register, flags, memory and devices are kept; one memory access is counted; and RET with
any arg1 does what POP ip does.  Cites R102. -/
def Obligations.RetPopsIntoIp : Prop :=
  ∀ (r : Reg) (o : Operand) (cc : Cond) (s : State), exec (.ret r o cc) s = exec (.pop .ip o cc) s ∧
    (condHolds cc s = true →
      ∃ t, exec (.ret r o cc) s = .next t ∧ t.regs.ip = readWord s.mem (s.regs.sp - 1) ∧
        t.regs.sp = s.regs.sp - 1 ∧
        KeepsRegs o [.ip, .sp] s t ∧ t.flags = s.flags ∧ KeepsMemory s t ∧ KeepsRest s t ∧ Counts o 1 s t)

/-- On canonical memory SWAPFP and SWAPSP answer a next state wherever the condition holds: x[a1] is the old word at
fp + A2 or sp + A2 (old base, modulo 65536) and that word is the old x[a1]; every other byte, every other
register but ip, flags and devices are kept; two memory accesses are counted.  Cites R109, R110. -/
def Obligations.SwapsExchangeRegisterAndMemory : Prop :=
  SwapsWith .swapfp (fun o s => s.regs.fp + operandValue o s) ∧
    SwapsWith .swapsp (fun o s => s.regs.sp + operandValue o s)

/-- XCHG answers a next state wherever the condition holds: arg2's eight forms select a, b, c, d, e, fp, sp and (the
immediate form, two words) ip; x[a1] holds what the selected register held and the other way round, ip counted
as the next instruction's address; every other register, flags, memory and devices are kept; only fetch cycles
are counted.  Cites R111. -/
def Obligations.XchgExchangesRegisters : Prop :=
  ∀ (r q : Reg) (o : Operand) (cc : Cond) (s : State), condHolds cc s = true →
    (o, q) ∈ [(Operand.regA, Reg.a), (.regB, .b), (.regC, .c), (.regD, .d), (.zero, .e), (.one, .fp),
      (.minusOne, .sp)] ∨ (q = .ip ∧ ∃ w, o = .imm w) →
    ∃ t, exec (.xchg r o cc) s = .next t ∧ readReg r t = phaseReg o s q ∧ readReg q t = phaseReg o s r ∧
      KeepsRegs o [r, q] s t ∧ t.flags = s.flags ∧ KeepsMemory s t ∧ KeepsRest s t ∧ Counts o 0 s t

/-- Each of the six answers a next state wherever the condition holds: x[a1] is its function of x[a1] and A2 (ip
included: a computed jump), zf and sf are those of the result, cf and of are kept, and so are every other
register but ip, memory and devices; only fetch cycles are counted.  Cites R113, R114, R115, R116, R117, R118. -/
def Obligations.BitwiseOperationsCompute : Prop :=
  ComputesZS .and (fun x y => x &&& y) ∧ ComputesZS .nand (fun x y => ~~~(x &&& y)) ∧
    ComputesZS .or (fun x y => x ||| y) ∧ ComputesZS .nor (fun x y => ~~~(x ||| y)) ∧
    ComputesZS .xor (fun x y => x ^^^ y) ∧ ComputesZS .xnor (fun x y => ~~~(x ^^^ y))

/-- NOT answers a next state wherever the condition holds: x[a1] is the complement of A2, zf and sf are those of the
result, cf and of are kept, and so are every other register but ip, memory and devices.  Cites R119. -/
def Obligations.NotComplementsOperand : Prop :=
  ComputesZS .not (fun _ y => ~~~y)

/-- TEST answers a next state wherever the condition holds: zf and sf are those of x[a1] and A2 combined by and; cf,
of, every register but ip (the sequential address, also for a1 = ip), memory and devices are kept.  Cites R120. -/
def Obligations.TestSetsFlagsOnly : Prop :=
  ∀ (r : Reg) (o : Operand) (cc : Cond) (s : State), condHolds cc s = true →
    ∃ t, exec (.test r o cc) s = .next t ∧ SetsZS (phaseReg o s r &&& operandValue o s) s t ∧
      KeepsRegs o [] s t ∧ KeepsMemory s t ∧ KeepsRest s t ∧ Counts o 0 s t

/-- CMPEQ and CMPNE answer a next state wherever the condition holds: x[a1] is tpat where x[a1] equals (differs
from) A2 and fpat where not; flags, every other register but ip, memory, both patterns and devices are kept.
Cites R121, R122, R123. -/
def Obligations.CompareStoresWritePattern : Prop :=
  StoresPattern .cmpeq (fun x y => x = y) ∧ StoresPattern .cmpne (fun x y => x ≠ y)

/-- ROTL and ROTR answer a next state wherever the condition holds: x[a1] is the word rotated left or right by A2
modulo 16, zf and sf are those of the result, cf and of are kept, and so are every other register but ip, memory
and devices; on words each rotation undoes the other, and a right rotation by n is a left one by (16 - n) mod
16.  Cites R126, R127. -/
def Obligations.RotatesTurnTheWord : Prop :=
  ComputesZS .rotl (fun x y => x.rotateLeft (y.toNat % 16)) ∧
    ComputesZS .rotr (fun x y => x.rotateRight (y.toNat % 16)) ∧
    ∀ (x : Word) (n : Nat), n < 16 →
      rotrWord (rotlWord x n) n = x ∧ rotlWord (rotrWord x n) n = x ∧ rotrWord x n = rotlWord x ((16 - n) % 16)

/-- SHL, SHR and SHRA answer a next state wherever the condition holds: x[a1] is the word shifted left, right, or
right arithmetically by n = A2 modulo 16; cf is bit 16 - n (left) or n - 1 (right) of the old word, kept for n =
0; zf and sf are those of the result; of, every other register but ip, memory and devices are kept.  Cites R128,
R130, R132. -/
def Obligations.ShiftsMoveTheWord : Prop :=
  ShiftsTo .shl (fun x n => x <<< n) (fun x n => x.getLsbD (16 - n)) ∧
    ShiftsTo .shr (fun x n => x >>> n) (fun x n => x.getLsbD (n - 1)) ∧
    ShiftsTo .shra (fun x n => x.sshiftRight n) (fun x n => x.getLsbD (n - 1))

/-- SHLC and SHRC answer a next state wherever the condition holds: with q = cf*2^16 + x[a1] and n = A2 modulo 16,
the new cf*2^16 + x[a1] is (q*2^n + q/2^(17-n)) mod 2^17, or (q/2^n + q*2^(17-n)) mod 2^17; zf and sf are those
of the word; of, every other register but ip, memory and devices are kept. For n = 1 on words: SHLC gives
mod16(2*x + cf) and x[15], SHRC (x >> 1) + cf*0x8000 and x[0]; SHL of the low then SHLC of the high word, and
SHR of the high then SHRC of the low word, shift the 32-bit value by one.  Cites R129, R131. -/
def Obligations.ShiftsThroughCarryRotateSeventeenBits : Prop :=
  ShiftsCarryTo .shlc (fun q n => (q * 2 ^ n + q / 2 ^ (17 - n)) % 2 ^ 17) ∧
    ShiftsCarryTo .shrc (fun q n => (q / 2 ^ n + q * 2 ^ (17 - n)) % 2 ^ 17) ∧
    (∀ (cf : Bool) (x : Word),
      shlcWord cf x 1 = (x.getLsbD 15, BitVec.ofNat 16 (2 * x.toNat + cf.toNat)) ∧
      shrcWord cf x 1 = (x.getLsbD 0, BitVec.ofNat 16 (x.toNat / 2 + cf.toNat * 0x8000))) ∧
    ∀ s : State,
      (∃ t u, exec (.shl .a .one .always) s = .next t ∧ exec (.shlc .b .one .always) t = .next u ∧
        u.flags.cf.toNat * 2 ^ 32 + u.regs.b.toNat * 65536 + u.regs.a.toNat =
          2 * (s.regs.b.toNat * 65536 + s.regs.a.toNat)) ∧
      ∃ t u, exec (.shr .b .one .always) s = .next t ∧ exec (.shrc .a .one .always) t = .next u ∧
        2 * (u.regs.b.toNat * 65536 + u.regs.a.toNat) + u.flags.cf.toNat =
          s.regs.b.toNat * 65536 + s.regs.a.toNat

/-- ADD and ADDC answer a next state wherever the condition holds: x[a1] is x[a1] + A2 (+ the incoming cf) modulo
65536, cf its unsigned overflow, of set iff the operands have the same sign and the result another, zf and sf
those of the result; every other register but ip, memory and devices are kept. ADD of the low then ADDC of the
high words adds two 32-bit values, cf being the carry out.  Cites R135, R136. -/
def Obligations.AddsGiveSumAndFlags : Prop :=
  AddsTo .add (fun _ => false) ∧ AddsTo .addc (fun s => s.flags.cf) ∧
    ∀ s : State, ∃ t u, exec (.add .a .regC .always) s = .next t ∧ exec (.addc .b .regD .always) t = .next u ∧
      u.flags.cf.toNat * 2 ^ 32 + u.regs.b.toNat * 65536 + u.regs.a.toNat =
        (s.regs.b.toNat * 65536 + s.regs.a.toNat) + (s.regs.d.toNat * 65536 + s.regs.c.toNat)

/-- SUB, SUBB, SBBR and SUBR answer a next state wherever the condition holds: x[a1] is x[a1] - A2, x[a1] - A2 - cf,
A2 - x[a1] - cf, or A2 - x[a1] modulo 65536; cf is the borrow, of set iff minuend and subtrahend have different
signs and the result another sign than the minuend, zf and sf those of the result; every other register but ip,
memory and devices are kept. SUB of the low then SUBB of the high words subtracts two 32-bit values, cf being
the borrow.  Cites R137, R138, R140, R141. -/
def Obligations.SubtractsGiveDifferenceAndFlags : Prop :=
  SubtractsTo .sub (fun x _ => x) (fun _ y => y) (fun _ => false) ∧
    SubtractsTo .subb (fun x _ => x) (fun _ y => y) (fun s => s.flags.cf) ∧
    SubtractsTo .sbbr (fun _ y => y) (fun x _ => x) (fun s => s.flags.cf) ∧
    SubtractsTo .subr (fun _ y => y) (fun x _ => x) (fun _ => false) ∧
    ∀ s : State, ∃ t u, exec (.sub .a .regC .always) s = .next t ∧ exec (.subb .b .regD .always) t = .next u ∧
      u.regs.b.toNat * 65536 + u.regs.a.toNat + (s.regs.d.toNat * 65536 + s.regs.c.toNat) =
        s.regs.b.toNat * 65536 + s.regs.a.toNat + u.flags.cf.toNat * 2 ^ 32

/-- COMP answers a next state wherever the condition holds: its four flags are those of x[a1] - A2 (there is a
result v modulo 65536 they belong to), the same SUB gives; every register but ip, memory and devices are kept.
Cites R139. -/
def Obligations.CompSetsSubtractFlagsOnly : Prop :=
  ∀ (r : Reg) (o : Operand) (cc : Cond) (s : State), condHolds cc s = true →
    ∃ t u v, exec (.comp r o cc) s = .next t ∧ IsSubResult (phaseReg o s r) (operandValue o s) false v t ∧
      exec (.sub r o cc) s = .next u ∧ t.flags = u.flags ∧
      KeepsRegs o [] s t ∧ KeepsMemory s t ∧ KeepsRest s t ∧ Counts o 0 s t

/-- OUT answers a next state wherever the condition holds: out is A2 and out_changed is 1, also when the latch held
that value; every register but ip, flags, memory, patterns, input and error are kept; only fetch cycles are
counted.  Cites R144. -/
def Obligations.OutWritesLatch : Prop :=
  ∀ (r : Reg) (o : Operand) (cc : Cond) (s : State), condHolds cc s = true →
    ∃ t, exec (.out r o cc) s = .next t ∧ t.out = operandValue o s ∧ t.outChanged = true ∧
      KeepsRegs o [] s t ∧ t.flags = s.flags ∧ KeepsMemory s t ∧ KeepsPatterns s t ∧ KeepsInput s t ∧
      KeepsControl s t ∧ Counts o 0 s t

/-- IN answers a next state wherever the condition holds. Where no supplier is attached (no integer comes next)
x[a1] is 0; where the supplier's next integer is v, x[a1] is v modulo 65536. zf and sf are those of x[a1], cf
and of are kept, and so are every other register but ip, memory, patterns, output and error; only fetch cycles
are counted.  Cites R145. -/
def Obligations.InReadsSupplier : Prop :=
  ∀ (r : Reg) (o : Operand) (cc : Cond) (s : State), condHolds cc s = true →
    ∃ t, exec (.inp r o cc) s = .next t ∧
      (nextInput s = none → readReg r t = 0) ∧
      (∀ v : Int, nextInput s = some v → ((readReg r t).toNat : Int) = v % 65536) ∧
      SetsZS (readReg r t) s t ∧ KeepsRegs o [r] s t ∧ KeepsMemory s t ∧ KeepsPatterns s t ∧ KeepsOutput s t ∧
      KeepsControl s t ∧ Counts o 0 s t

/-- QERY answers a next state wherever the condition holds: x[a1] is the word of the constant table at A2, whatever
the table holds; flags, every other register but ip, memory and devices are kept; only fetch cycles are counted.
Cites R146. -/
def Obligations.QeryReadsTable : Prop :=
  ∀ (r : Reg) (o : Operand) (cc : Cond) (s : State), condHolds cc s = true →
    ∃ t, exec (.qery r o cc) s = .next t ∧ readReg r t = Config.queryTable (operandValue o s) ∧
      KeepsRegs o [r] s t ∧ t.flags = s.flags ∧ KeepsMemory s t ∧ KeepsRest s t ∧ Counts o 0 s t

/-- SETTPAT and SETFPAT answer a next state wherever the condition holds: the one pattern register is A2, any value;
the other, every register but ip, flags, memory, output, input and error are kept; only fetch cycles are
counted.  Cites R147, R148. -/
def Obligations.PatternOperationsSetPatterns : Prop :=
  ∀ (r : Reg) (o : Operand) (cc : Cond) (s : State), condHolds cc s = true →
    (∃ t, exec (.settpat r o cc) s = .next t ∧ t.tpat = operandValue o s ∧ t.fpat = s.fpat ∧
      KeepsRegs o [] s t ∧ t.flags = s.flags ∧ KeepsMemory s t ∧ KeepsOutput s t ∧ KeepsInput s t ∧
      KeepsControl s t ∧ Counts o 0 s t) ∧
    ∃ t, exec (.setfpat r o cc) s = .next t ∧ t.fpat = operandValue o s ∧ t.tpat = s.tpat ∧
      KeepsRegs o [] s t ∧ t.flags = s.flags ∧ KeepsMemory s t ∧ KeepsOutput s t ∧ KeepsInput s t ∧
      KeepsControl s t ∧ Counts o 0 s t

/-- Executing an invalid instruction answers the state with error 1, whatever its fields. And where error is 0 and
the opcode map binds nothing to the opcode field of the word at ip, the step answers the state with error 1 and
out_changed 0 and no other change, whatever arg1, arg2, cond, so also when the condition is false; where the map
binds an operation, the step leaves error 0. Under the fixture map the unbound opcodes are 0 and 49 to 63.
Cites R151, R152. -/
def Obligations.InvalidOpcodeEntersErrorState : Prop :=
  (∀ (k : BitVec 6) (r : Reg) (o : Operand) (cc : Cond) (s : State),
    exec (.invalid k r o cc) s = .next { s with error := true }) ∧
    (∀ s : State, s.error = false →
      (s.opcodeMap.lookup ((readWord s.mem s.regs.ip).extractLsb' 10 6) = none →
        step s = .next { s with error := true, outChanged := false }) ∧
      (s.opcodeMap.lookup ((readWord s.mem s.regs.ip).extractLsb' 10 6) ≠ none →
        ∃ t, step s = .next t ∧ t.error = false)) ∧
    ∀ k : BitVec 6, fixtureMap.lookup k = none ↔ k.toNat = 0 ∨ 49 ≤ k.toNat

/-- Where error is 0 and the two words at ip and ip + 1 decode under the opcode map in force to instruction i, i is
well formed under that map and the step is exec of i at the state with out_changed cleared. All else of the step
(cycles, ip past the instruction, condition, retirement) is in exec.  Cites 40_sequencer.md section 1 (the
step), 20_memory.md section 5. -/
def Obligations.StepRunsDecodedInstruction : Prop :=
  ∀ (s : State) (i : Instr) (rest : List Word), s.error = false →
    decode s.opcodeMap [readWord s.mem s.regs.ip, readWord s.mem (s.regs.ip + 1)] = .ok (i, rest) →
    WellFormed s.opcodeMap i = true ∧ step s = exec i { s with outChanged := false }

/-- From a state with error 1, a run of k steps ends in that very state, for every k.  Cites R68. -/
def Obligations.ErrorStateIsPermanent : Prop :=
  ∀ (s : State) (k : Nat), s.error = true → Host.Core.run Sys2Proof.core k s = .next s

/-- For all 48 operations: where the condition does not hold, exec answers the state with ip moved past the
instruction and its immediate, cycles grown by the fetch cycles, instret by 1, and nothing else changed.  Cites
R78. -/
def Obligations.FalseConditionOnlyRetires : Prop :=
  ∀ (i : Instr) (s : State), i.op ≠ none → condHolds i.cond s = false →
    exec i s = .next
      { s with
        regs := { s.regs with ip := s.regs.ip + BitVec.ofNat 16 (operandWords i.arg2) }
        cycles := s.cycles + operandWords i.arg2
        instret := s.instret + 1 }

/-- Every step answers a next state t. NoOp: error was 1 and t is the state. Invalid: the opcode is unbound; error
becomes 1, out_changed 0, nothing else. Skipped: ip, cycles, instret advance, out_changed is 0, nothing else.
Executed: the condition held, instret grows by 1 and cycles by fetch cycles and the operation's memory accesses,
error stays 0.  Cites 40_sequencer.md section 5 (retirement, outcomes). -/
def Obligations.StepOutcomeByKind : Prop :=
  ∀ s : State, ∃ t, step s = .next t ∧
    match stepKind s with
    | .noOp => s.error = true ∧ t = s
    | .invalid => s.error = false ∧ (fetchInstr s).op = none ∧ t = { s with error := true, outChanged := false }
    | .skipped => s.error = false ∧ (fetchInstr s).op ≠ none ∧ condHolds (fetchInstr s).cond s = false ∧
        t = { s with
              regs := { s.regs with ip := s.regs.ip + BitVec.ofNat 16 (operandWords (fetchInstr s).arg2) }
              outChanged := false
              cycles := s.cycles + operandWords (fetchInstr s).arg2
              instret := s.instret + 1 }
    | .executed => s.error = false ∧ condHolds (fetchInstr s).cond s = true ∧
        ∃ op, (fetchInstr s).op = some op ∧ t.error = false ∧ t.instret = s.instret + 1 ∧
          t.cycles = s.cycles + operandWords (fetchInstr s).arg2 + memAccesses op

/-- For all 48 operations and every state exec answers a next state that retires one instruction and adds to cycles
the words fetched and, where the condition holds, the accesses of the operation's column in the catalogue. A
step that raises the error and a step in the error state retire nothing and add nothing.  Cites R80, R81. -/
def Obligations.CyclesCountFetchesAndAccesses : Prop :=
  (∀ (i : Instr) (op : Op) (s : State), i.op = some op →
    ∃ t, exec i s = .next t ∧ t.instret = s.instret + 1 ∧
      t.cycles = s.cycles + operandWords i.arg2 + (if condHolds i.cond s then memAccesses op else 0)) ∧
    ∀ (s : State), s.error = true ∨ (fetchInstr s).op = none →
      ∃ t, step s = .next t ∧ t.instret = s.instret ∧ t.cycles = s.cycles

/-- For every opcode map, every instruction well formed under it (all 48 operations it binds, and every unbound
opcode) and every list of words after it, decoding the encoding followed by those words gives the instruction
and leaves exactly those words: no field and no immediate is lost.  Cites 30_encoding.md section 1 (the
instruction word), 30_encoding.md section 4 (the opcode field). -/
def Obligations.DecodeOfEncodeIsInstruction : Prop :=
  ∀ (m : OpcodeMap) (i : Instr) (rest : List Word), WellFormed m i = true →
    decode m (encode m i ++ rest) = .ok (i, rest)

/-- Packing a quadruple gives opcode*1024 + arg1*128 + arg2*16 + cond; extracting the fields of a packed word gives
the quadruple back, and packing the fields of a word gives the word back. A word's fields are its bits 15:10,
9:7, 6:4 and 3:0. An encoded well-formed instruction has a second word iff its arg2 encodes to 7.  Cites R45,
R46. -/
def Obligations.PackingAndFieldsAreInverse : Prop :=
  (∀ f : Fields, (packWord f).toNat =
      f.opcode.toNat * 1024 + f.arg1.toNat * 128 + f.arg2.toNat * 16 + f.cond.toNat ∧
      fieldsOf (packWord f) = f) ∧
    (∀ w : Word, packWord (fieldsOf w) = w ∧
      (fieldsOf w).opcode = w.extractLsb' 10 6 ∧ (fieldsOf w).arg1 = w.extractLsb' 7 3 ∧
      (fieldsOf w).arg2 = w.extractLsb' 4 3 ∧ (fieldsOf w).cond = w.extractLsb' 0 4) ∧
    ∀ (m : OpcodeMap) (i : Instr), WellFormed m i = true →
      ((encode m i).length = 2 ↔ operandCode i.arg2 = 7) ∧ ((encode m i).length = 1 ↔ operandCode i.arg2 ≠ 7)

/-- Under every opcode map two words followed by any others decode to an instruction well formed under the map; it
takes both words iff bits 6:4 of the first are 111, whatever the opcode, bound or not, XCHG included, and only
the first otherwise; its operation is what the map binds to bits 15:10. Where arg2 is not 7 the second word does
not matter.  Cites R47, R61. -/
def Obligations.DecodeIsTotalWithLengthByArg2 : Prop :=
  ∀ (m : OpcodeMap) (w n : Word) (rest : List Word),
    ∃ i, WellFormed m i = true ∧ i.op = m.lookup (w.extractLsb' 10 6) ∧
      decode m (w :: n :: rest) =
        .ok (i, if w.extractLsb' 4 3 = (7 : BitVec 3) then rest else n :: rest) ∧
      operandWords i.arg2 = (if w.extractLsb' 4 3 = (7 : BitVec 3) then 2 else 1) ∧
      (w.extractLsb' 4 3 ≠ (7 : BitVec 3) → ∀ n', decodeWith m w n' = i)

/-- Ten words that stand in the spec's worked examples, decode table and test vectors, one or more of each family,
decode under the fixture map FM to the instruction the spec gives for them. FM is the spec's artificial map, not
a variant's.  Cites 95_test_vectors.md part 2, V-DEC, and part 3, vector H19, 41_move_set.md to
47_io_query_pattern.md (examples). -/
def Obligations.SampleWordsDecode : Prop :=
  decodeTableWord 32 0x123404F0 = some (.set .b (.imm 0x1234) .always) ∧
    decodeTableWord 32 0x01002FF0 = some (.call .ip (.imm 0x0100) .always) ∧
    decodeTableWord 16 0x3C60 = some (.ldsp .a .minusOne .always) ∧
    decodeTableWord 16 0x4C60 = some (.xchg .a .minusOne .always) ∧
    decodeTableWord 16 0x5460 = some (.nand .a .minusOne .always) ∧
    decodeTableWord 32 0x00047C70 = some (.rotr .a (.imm 4) .always) ∧
    decodeTableWord 16 0x9050 = some (.shra .a .one .always) ∧
    decodeTableWord 16 0xA810 = some (.sbbr .a .regB .always) ∧
    decodeTableWord 16 0xB00F = some (.out .a .regA .cNonzero) ∧
    decodeTableWord 16 0xC400 = some (.invalid 49 .a .regA .always)

/-- For every state and immediate: arg1 codes 0 to 7 select a, b, c, d, e, fp, sp, ip; arg2 codes 0 to 3 give
registers a to d, 4 to 6 the constants 0, 1, 0xFFFF, 7 the immediate; condition codes 0 to 15 have the 16
predicates of the condition table, code 15 reading register c.  Cites R49, R50, R54. -/
def Obligations.CodesSelectOperandsAndConditions : Prop :=
  ∀ (s : State) (w : Word),
    [0, 1, 2, 3, 4, 5, 6, 7].map (fun k => readReg (regOfCode k) s) =
      [s.regs.a, s.regs.b, s.regs.c, s.regs.d, s.regs.e, s.regs.fp, s.regs.sp, s.regs.ip] ∧
    [0, 1, 2, 3, 4, 5, 6, 7].map (fun k => operandValue (operandOfCode k (some w)) s) =
      [s.regs.a, s.regs.b, s.regs.c, s.regs.d, 0x0000, 0x0001, 0xFFFF, w] ∧
    [0, 1, 2, 3, 4, 5, 6, 7, 8, 9, 10, 11, 12, 13, 14, 15].map (fun k => condHolds (condOfCode k) s) =
      [true, !(s.flags.cf || s.flags.zf), !s.flags.cf, s.flags.cf, s.flags.cf || s.flags.zf, s.flags.zf,
        !s.flags.zf, !(s.flags.zf || (s.flags.sf ^^ s.flags.of)), s.flags.sf == s.flags.of,
        s.flags.sf ^^ s.flags.of, s.flags.zf || (s.flags.sf ^^ s.flags.of), s.flags.of, !s.flags.of, s.flags.sf,
        !s.flags.sf, s.regs.c != 0]

/-- For every state whose memory is in canonical form (addresses strictly rising, all inside the 65,536 words, no
cell listing what an unlisted byte reads as), if step answers a next state, its memory is in canonical form. The
cell form is the model's own (log entry 5).  Cites 20_memory.md section 1 (the memory), notes/assumptions/5.md
(memory held as cells). -/
def Obligations.StepKeepsMemoryCanonical : Prop :=
  ∀ s t : State, s.Inv → step s = .next t → t.Inv

/-- State.reset satisfies the invariant, and every word of its memory reads 0.  Cites 70_reset_and_hazards.md
section 1 (reset), notes/assumptions/5.md (memory held as cells). -/
def Obligations.ResetMemoryIsCanonical : Prop :=
  State.reset.Inv ∧ ∀ a : Word, readWord State.reset.mem a = 0

/-- State.reset holds the reset values of the table. From every state, resetState leaves every register, flag,
pattern, latch, error and counter at its table value and memory unchanged; resetMemory leaves every word 0 and
all CPU state unchanged; and the two commute.  Cites R30, R166. -/
def Obligations.ResetsSetTheirOwnState : Prop :=
  AtResetValues State.reset ∧
    ∀ s : State,
      (AtResetValues (interact .resetState s) ∧ (interact .resetState s).mem = s.mem) ∧
      ((∀ a : Word, readWord (interact .resetMemory s).mem a = 0) ∧
        { interact .resetMemory s with mem := s.mem } = s) ∧
      interact .resetState (interact .resetMemory s) = interact .resetMemory (interact .resetState s)

/-- For a file of at most 131072 bytes, every word i reads byte[2i] + 256*byte[2i+1], a byte past the end of the
file counting as 0; the loaded memory is in canonical form, which is the model's own (log entry 5), and nothing
but memory changes. A larger file changes nothing.  Cites 70_reset_and_hazards.md section 1 (image load),
20_memory.md section 2 (byte order), notes/assumptions/5.md (memory held as cells). -/
def Obligations.ImageLoadFillsMemory : Prop :=
  ∀ (file : List Byte) (s : State),
    (file.length ≤ 131072 →
      (∀ a : Word, (readWord (interact (.loadImage file) s).mem a).toNat =
        (file.getD (2 * a.toNat) 0).toNat + 256 * (file.getD (2 * a.toNat + 1) 0).toNat) ∧
      (interact (.loadImage file) s).Inv ∧ { interact (.loadImage file) s with mem := s.mem } = s) ∧
    (131072 < file.length → interact (.loadImage file) s = s)

/-- From a state with canonical memory, any list of controller actions (steps, resets, image loads, register, flag
and memory writes, supplier changes) ends in a state with canonical memory.  Cites 60_exceptions.md section 5
(the controller interface), notes/assumptions/5.md (memory held as cells). -/
def Obligations.ControllerKeepsMemoryCanonical : Prop :=
  ∀ (xs : List Action) (s : State), s.Inv → (interactAll xs s).Inv

/-- Only an OUT instruction can change the latch: if exec of i answers t with another out, i is OUT. And after every
step taken with error 0, out_changed is 1 iff the step executed an OUT whose condition held, and then out is its
operand.  Cites 10_state.md section 6 (output latch). -/
def Obligations.OutputChangesOnlyByOut : Prop :=
  (∀ (i : Instr) (s t : State), exec i s = .next t → t.out ≠ s.out → i.op = some .out) ∧
    ∀ s t : State, s.error = false → step s = .next t →
      (t.outChanged = true ↔ (fetchInstr s).op = some .out ∧ stepKind s = .executed) ∧
      (t.outChanged = true → t.out = operandValue (fetchInstr s).arg2 s)

/-- tpat is 1 and fpat 0 after reset. If exec of i answers a state with another tpat (fpat), i is SETTPAT (SETFPAT).
For every instruction other than CMPEQ and CMPNE, and any two values, running it with those values in the
pattern registers gives the same next state as without, but for the pattern registers themselves.  Cites R22. -/
def Obligations.PatternsReadAndWrittenOnlyByTheirOperations : Prop :=
  (State.reset.tpat = 1 ∧ State.reset.fpat = 0 ∧
      ∀ s : State, (resetState s).tpat = 1 ∧ (resetState s).fpat = 0) ∧
    (∀ (i : Instr) (s t : State), exec i s = .next t →
      (t.tpat ≠ s.tpat → i.op = some .settpat) ∧ (t.fpat ≠ s.fpat → i.op = some .setfpat)) ∧
    ∀ (i : Instr) (s : State) (x y : Word), i.op ≠ some .cmpeq → i.op ≠ some .cmpne →
      ∃ t u, exec i s = .next t ∧ exec i { s with tpat := x, fpat := y } = .next u ∧
        u = { t with tpat := u.tpat, fpat := u.fpat }

/-- If exec of i answers a state with another zf or sf, i is one of the bitwise, test, rotate, shift, arithmetic
operations, IN or WRFLAGS; with another cf, one of the five shifts with a count not 0, the seven arithmetic
operations or WRFLAGS; with another of, one of the seven arithmetic operations or WRFLAGS; and in each case its
condition held.  Cites 10_state.md section 4 (flags, the table of writers). -/
def Obligations.FlagsWrittenOnlyByTheirOperations : Prop :=
  ∀ (i : Instr) (s t : State), exec i s = .next t →
    (t.flags ≠ s.flags → condHolds i.cond s = true) ∧
    (t.flags.zf ≠ s.flags.zf ∨ t.flags.sf ≠ s.flags.sf →
      i.op ∈ [some Op.and, some .nand, some .or, some .nor, some .xor, some .xnor, some .not, some .test,
        some .rotl, some .rotr, some .shl, some .shlc, some .shr, some .shrc, some .shra, some .add, some .addc,
        some .sub, some .subb, some .comp, some .sbbr, some .subr, some .inp, some .wrflags]) ∧
    (t.flags.cf ≠ s.flags.cf →
      (i.op ∈ [some Op.shl, some .shlc, some .shr, some .shrc, some .shra] ∧
        (operandValue i.arg2 s).toNat % 16 ≠ 0) ∨
      i.op ∈ [some Op.add, some .addc, some .sub, some .subb, some .comp, some .sbbr, some .subr,
        some .wrflags]) ∧
    (t.flags.of ≠ s.flags.of →
      i.op ∈ [some Op.add, some .addc, some .sub, some .subb, some .comp, some .sbbr, some .subr,
        some .wrflags])

/-- Running a step with other values in the two counters gives the same next state but for the counters, and each
counter grows by the same amount.  Cites 10_state.md section 8 (counters), 70_reset_and_hazards.md section 3
(timing). -/
def Obligations.CountersAreNeverRead : Prop :=
  ∀ (s : State) (m n : Nat),
    ∃ t u, step s = .next t ∧ step { s with instret := m, cycles := n } = .next u ∧
      u = { t with instret := u.instret, cycles := u.cycles } ∧
      u.instret + s.instret = t.instret + m ∧ u.cycles + s.cycles = t.cycles + n

/-- A step sets error exactly when error was 0 and the word at ip decodes to no operation. And of the controller's
actions only resetState, or a direct write of the error flag, takes a state with error 1 to one with error 0; no
memory reset, image load or step does. The direct write is log entry 7.  Cites 10_state.md section 7 (error
flag), 60_exceptions.md section 1 (exceptions), notes/assumptions/7.md (controller writes). -/
def Obligations.ErrorStateEntryAndExit : Prop :=
  (∀ s t : State, step s = .next t →
    (t.error = true ↔ s.error = true ∨ (fetchInstr s).op = none)) ∧
    ∀ (x : Action) (s : State), s.error = true →
      ((interact x s).error = false ↔ x = .resetState ∨ x = .setError false)

/-- After every step the number of supplier calls has grown by 1 if the step executed an IN with a supplier
attached, else by 0; a supplier is attached after it iff one was before; and the opcode map in force is the
same.  Cites 60_exceptions.md section 4 (devices), notes/assumptions/4.md (input supplier). -/
def Obligations.SupplierCalledOncePerExecutedIn : Prop :=
  ∀ s t : State, step s = .next t →
    t.inputCalls = s.inputCalls +
        (if stepKind s = .executed ∧ (fetchInstr s).op = some .inp ∧ s.supplier.isSome then 1 else 0) ∧
      t.supplier.isSome = s.supplier.isSome ∧ t.opcodeMap = s.opcodeMap

/-- For every carry, word and count 0 to 15, the closed forms that SHL, SHR, SHRA, SHLC and SHRC use give the word
and carry of n repetitions of the single-bit steps of the table. Executing one of the five answers a next state
with that word in x[a1] and that carry in cf, zf and sf from the word, and of unchanged, for counts 0 too.
Cites R125. -/
def Obligations.ShiftsAreRepeatedSingleSteps : Prop :=
  (∀ (cf : Bool) (x : Word) (n : Nat), n < 16 →
    shlWord cf x n = shiftSteps shlStep n (cf, x) ∧ shrWord cf x n = shiftSteps shrStep n (cf, x) ∧
    shraWord cf x n = shiftSteps shraStep n (cf, x) ∧ shlcWord cf x n = shiftSteps shlcStep n (cf, x) ∧
    shrcWord cf x n = shiftSteps shrcStep n (cf, x)) ∧
    ∀ p ∈ [(Instr.shl, shlStep), (Instr.shr, shrStep), (Instr.shra, shraStep), (Instr.shlc, shlcStep),
        (Instr.shrc, shrcStep)],
      ∀ (r : Reg) (o : Operand) (s : State),
        ∃ t, exec (p.1 r o .always) s = .next t ∧
          (t.flags.cf, readReg r t) =
            shiftSteps p.2 ((operandValue o s).toNat % 16) (s.flags.cf, phaseReg o s r) ∧
          t.flags.zf = decide (readReg r t = 0) ∧ t.flags.sf = (readReg r t).getLsbD 15 ∧
          t.flags.of = s.flags.of

/-- For every register, immediate y and state, SUB and ADD of the negated immediate answer next states. For y other
than 0 and 0x8000 all registers, zf, sf and of agree and cf is inverted; at y = 0 both cf are 0; at y = 0x8000
of is NOT x[15] after SUB and x[15] after ADD.  Cites 46_arithmetic.md section on the relation to the source's
test property, 90_conflicts.md C3. -/
def Obligations.SubtractAgreesWithAddOfNegative : Prop :=
  ∀ (r : Reg) (y : Word) (s : State),
    ∃ t u, exec (.sub r (.imm y) .always) s = .next t ∧ exec (.add r (.imm (-y)) .always) s = .next u ∧
      (y ≠ 0 → y ≠ 0x8000 → t.regs = u.regs ∧ t.flags.zf = u.flags.zf ∧ t.flags.sf = u.flags.sf ∧
        t.flags.of = u.flags.of ∧ t.flags.cf = !u.flags.cf) ∧
      (y = 0 → t.flags.cf = false ∧ u.flags.cf = false) ∧
      (y = 0x8000 → t.flags.of = !(phaseReg (.imm y) s r).getLsbD 15 ∧
        u.flags.of = (phaseReg (.imm y) s r).getLsbD 15)

/-- For all operands and carry or borrow in, of of the add form is 1 iff the sum of the operands as signed numbers
and the carry lies outside -32768..32767, and of of the subtract form is 1 iff the signed difference less the
borrow does.  Cites 46_arithmetic.md section on common definitions. -/
def Obligations.OverflowIsSignedRange : Prop :=
  ∀ (p q : Word) (c : Bool),
    ((addForm p q c).2.of = true ↔
      p.toInt + q.toInt + c.toNat < -32768 ∨ 32767 < p.toInt + q.toInt + c.toNat) ∧
    ((subForm p q c).2.of = true ↔
      p.toInt - q.toInt - c.toNat < -32768 ∨ 32767 < p.toInt - q.toInt - c.toNat)

/-- From every state with canonical memory, CALL ip to any target and a RET executed at the state it leaves answer
next states, and the last one has ip at the instruction after the call and its immediate, every other register
and the flags as before the call, and two accesses and the fetched words of both added to cycles.  Cites
42_stack.md (CALL and RET), 10_state.md section 2 (program counter). -/
def Obligations.CallThenReturnComesBack : Prop :=
  ∀ (r : Reg) (o p : Operand) (s : State), s.Inv →
    ∃ t u, exec (.call .ip o .always) s = .next t ∧ t.regs.ip = operandValue o s ∧
      exec (.ret r p .always) t = .next u ∧
      u.regs = { s.regs with ip := s.regs.ip + BitVec.ofNat 16 (operandWords o) } ∧ u.flags = s.flags ∧
      u.cycles = s.cycles + operandWords o + operandWords p + 2

/-- If two memories are in canonical form and every one of the 65,536 words reads the same in both, they are equal.
The canonical form is the model's own (log entry 5).  Cites 20_memory.md section 1 (the memory),
notes/assumptions/5.md (memory held as cells). -/
def Obligations.CanonicalMemoriesThatReadAlikeAreEqual : Prop :=
  ∀ m n : Memory, Memory.wf m = true → Memory.wf n = true →
    (∀ a : Word, readWord m a = readWord n a) → m = n

/-- From canonical memory: an ST to the address of the next instruction leaves a state whose fetch reads the stored
word. And a step that runs an ST whose address is its own first word, or its own immediate word, runs the
instruction as it was fetched: the new word stands in memory at that address and every other byte is kept, ip is
past the instruction as fetched, every other register and the flags are kept, and the instruction retires with
its cycles.  Cites 20_memory.md section 5 (instruction-fetch coherence), 70_reset_and_hazards.md section 2
(hazards). -/
def Obligations.StoreIsSeenByNextFetch : Prop :=
  (∀ (r : Reg) (o : Operand) (s : State), s.Inv →
    operandValue o s = s.regs.ip + BitVec.ofNat 16 (operandWords o) →
    ∃ t, exec (.st r o .always) s = .next t ∧ fetchWord t = phaseReg o s r) ∧
    ∀ (r : Reg) (o : Operand) (s : State), s.Inv → s.error = false →
      fetchInstr s = .st r o .always → operandValue o s = s.regs.ip ∨ o = .imm (s.regs.ip + 1) →
      ∃ t, step s = .next t ∧ readWord t.mem (operandValue o s) = phaseReg o s r ∧
        KeepsMemoryBut (operandValue o s) s t ∧ KeepsRegs o [] s t ∧ t.flags = s.flags ∧ t.error = false ∧
        Counts o 1 s t

/-- After COMP x, y the condition codes 1 to 4 are the unsigned comparisons, 5 and 6 equality and inequality, and 7
to 10 the signed comparisons of x and y, for every register, operand and state. The labels are the spec's own,
from general knowledge (log entry 9).  Cites 40_sequencer.md section 4 (condition evaluation, the label column),
46_arithmetic.md section on common definitions, notes/assumptions/9.md (condition names). -/
def Obligations.CompThenConditionsCompare : Prop :=
  ∀ (r : Reg) (o : Operand) (s : State),
    ∃ t x y, x = phaseReg o s r ∧ y = operandValue o s ∧ exec (.comp r o .always) s = .next t ∧
      (condHolds .ugt t = true ↔ y.toNat < x.toNat) ∧ (condHolds .uge t = true ↔ y.toNat ≤ x.toNat) ∧
      (condHolds .ult t = true ↔ x.toNat < y.toNat) ∧ (condHolds .ule t = true ↔ x.toNat ≤ y.toNat) ∧
      (condHolds .eq t = true ↔ x = y) ∧ (condHolds .ne t = true ↔ x ≠ y) ∧
      (condHolds .sgt t = true ↔ y.toInt < x.toInt) ∧ (condHolds .sge t = true ↔ y.toInt ≤ x.toInt) ∧
      (condHolds .slt t = true ↔ x.toInt < y.toInt) ∧ (condHolds .sle t = true ↔ x.toInt ≤ y.toInt)

/-- Registers a to d assemble to codes 0 to 3. A plain literal 0, 1 or -1 assembles to code 4, 5 or 6 with no
immediate; every other literal in -32768..65535, every forced literal in that range, and every forced or
referenced name value, in the range or not, to code 7 with an immediate equal to the value's low 16 bits; a
literal outside the range is an error. The known value of a name assembles as a literal of that value does, to
code 4, 5, 6 or 7, without the range, which is the model's choice (log entry 10). Whatever assembles has the
value written, modulo 65536.  Cites 30_encoding.md section 3 (operands), 30_encoding.md section 6 (assembler
syntax), notes/assumptions/10.md (the assembler). -/
def Obligations.AssemblerOperandsCarryTheirValue : Prop :=
  ([SourceOperand.register .a, .register .b, .register .c, .register .d].map assembleOperand =
      [operandOfCode 0 none, operandOfCode 1 none, operandOfCode 2 none, operandOfCode 3 none].map some) ∧
    (assembleOperand (.literal 0) = some (operandOfCode 4 none) ∧
      assembleOperand (.literal 1) = some (operandOfCode 5 none) ∧
      assembleOperand (.literal (-1)) = some (operandOfCode 6 none)) ∧
    ∀ v : Int,
      (-32768 ≤ v → v ≤ 65535 →
        assembleOperand (.forced v) = some (.imm (BitVec.ofInt 16 v)) ∧
        assembleOperand (.known v) = assembleOperand (.literal v) ∧
        (v ≠ 0 → v ≠ 1 → v ≠ -1 → assembleOperand (.literal v) = some (.imm (BitVec.ofInt 16 v)))) ∧
      (v < -32768 ∨ 65535 < v →
        assembleOperand (.literal v) = none ∧ assembleOperand (.forced v) = none ∧
        assembleOperand (.known v) = some (.imm (BitVec.ofInt 16 v))) ∧
      assembleOperand (.reference v) = some (.imm (BitVec.ofInt 16 v)) ∧
      ∀ (x : SourceOperand) (o : Operand) (s : State),
        x ∈ [SourceOperand.literal v, .forced v, .known v, .reference v] → assembleOperand x = some o →
        ((operandValue o s).toNat : Int) = v % 65536

/-- For every list of at most 65,536 words, loading its bytes, two per word and low byte first, makes memory word i
the i-th word of the list, and every memory word past the end of the list 0.  Cites 20_memory.md section 2 (byte
order), 70_reset_and_hazards.md section 1 (image load). -/
def Obligations.ImageOfWordsLoadsBack : Prop :=
  ∀ (ws : List Word) (s : State), ws.length ≤ 65536 →
    ∀ a : Word, readWord (interact (.loadImage (imageBytes ws)) s).mem a = ws.getD a.toNat 0

/-- For every register, operand, condition and state IN answers a next state. Where the condition does not hold, or
no supplier is attached, the supplier is not called. Else, where known integers are listed the first one is the
next integer and is taken off the list; where none is left the next integer is the free draw numbered by the
calls made so far; and one more call is counted. The list and the count are the model's own (log entry 4).
Cites 47_io_query_pattern.md section on IN, 60_exceptions.md section 4 (devices), notes/assumptions/4.md (input
supplier). -/
def Obligations.InTakesTheNextSuppliedInteger : Prop :=
  ∀ (r : Reg) (o : Operand) (cc : Cond) (s : State),
    ∃ t, exec (.inp r o cc) s = .next t ∧
      (condHolds cc s = false → KeepsInput s t) ∧
      (condHolds cc s = true →
        (s.supplier = none → nextInput s = none ∧ KeepsInput s t) ∧
        (∀ v vs, s.supplier = some (v :: vs) →
          nextInput s = some v ∧ t.supplier = some vs ∧ t.inputCalls = s.inputCalls + 1) ∧
        (s.supplier = some [] →
          nextInput s = some (Config.inputDraw s.inputCalls) ∧ t.supplier = some [] ∧
            t.inputCalls = s.inputCalls + 1))
end

