-- ==== Sys2Proof/Laws/Assembler.lean ====
section
/-! SUPPORT. For each operation of the assembler's side of the contract, once, what it answers. -/

namespace Sys2Proof.Machine

@[simp] theorem literalInRange_iff (v : Int) : literalInRange v = true ↔ -32768 ≤ v ∧ v ≤ 65535 := by
  simp [literalInRange]

/-- A literal is a word exactly where it is in range, and then it is the value's low 16 bits. -/
theorem literalWord_eq_some {v : Int} {w : Word} :
    literalWord v = some w ↔ (-32768 ≤ v ∧ v ≤ 65535) ∧ BitVec.ofInt 16 v = w := by
  simp [literalWord]

/-- A literal is an error exactly where it is out of range. -/
theorem literalWord_eq_none {v : Int} : literalWord v = none ↔ ¬(-32768 ≤ v ∧ v ≤ 65535) := by
  simp [literalWord]

/-- The word of a literal as a number is the literal modulo 65536. -/
theorem literalWord_toNat {v : Int} {w : Word} (h : literalWord v = some w) : (w.toNat : Int) = v % 65536 := by
  obtain ⟨-, rfl⟩ := literalWord_eq_some.1 h
  rw [BitVec.toNat_ofInt]; omega

/-- Both forms of a value as an operand read back as the value modulo 65536. -/
theorem valueOperand_value (v : Int) (s : State) : ((operandValue (valueOperand v) s).toNat : Int) = v % 65536 := by
  unfold valueOperand immediateOperand
  split
  · subst v; rfl
  · split
    · subst v; rfl
    · split
      · subst v; rfl
      · rw [operandValue, BitVec.toNat_ofInt]; omega

theorem immediateOperand_value (v : Int) (s : State) :
    ((operandValue (immediateOperand v) s).toNat : Int) = v % 65536 := by
  rw [immediateOperand, operandValue, BitVec.toNat_ofInt]; omega

/-- Only 0, 1 and -1 go without an immediate word. -/
theorem valueOperand_of_ne {v : Int} (h0 : v ≠ 0) (h1 : v ≠ 1) (h2 : v ≠ -1) :
    valueOperand v = immediateOperand v := by
  simp [valueOperand, h0, h1, h2]

/-- All an immediate expression can stand for: a literal in range, or a name with an offset in range, known or to be
patched in. -/
theorem resolve_cases {names : List (Ident × Int)} {e : Immediate} {y : Resolved} (h : resolve names e = some y) :
    (∃ v, e = .literal v ∧ literalInRange v = true ∧ y = .value v) ∨
      ∃ n k, e = .named n k ∧ literalInRange (k.natAbs : Int) = true ∧
        ((∃ v, nameValue names n = some v ∧ y = .value (v + k)) ∨ nameValue names n = none ∧ y = .patch n k) := by
  cases e with
  | literal v =>
    simp only [resolve] at h
    split at h
    · exact .inl ⟨v, rfl, by assumption, by simpa using h.symm⟩
    · cases h
  | named n k =>
    simp only [resolve] at h
    split at h
    · refine .inr ⟨n, k, rfl, by assumption, ?_⟩
      split at h
      · exact .inl ⟨_, by assumption, by simpa using h.symm⟩
      · exact .inr ⟨by assumption, by simpa using h.symm⟩
    · cases h

/-- A literal out of range stands for nothing, so no statement that holds one assembles. -/
theorem resolve_literal_out_of_range (names : List (Ident × Int)) {v : Int} (h : ¬(-32768 ≤ v ∧ v ≤ 65535)) :
    resolve names (.literal v) = none := by
  simp [resolve, h]

/-- A name that is known patches to the low 16 bits of its value and offset, whatever their sum. -/
@[simp] theorem patchWord_patch (names : List (Ident × Int)) (n : Ident) (k : Int) :
    patchWord names (.patch n k) = (nameValue names n).map fun v => BitVec.ofInt 16 (v + k) := rfl

/-- An image file takes two bytes per word. -/
@[simp] theorem length_imageBytes (ws : List Word) : (imageBytes ws).length = 2 * ws.length := by
  induction ws with
  | nil => rfl
  | cons w ws ih => simp only [imageBytes, List.length_cons, ih]; omega

end Sys2Proof.Machine
end

