-- ==== Sys2Proof/Laws/Memory.lean ====
section
/-! SUPPORT. Laws of memory: a byte or word read after a write, and the canonical form kept by every memory
operation. -/

namespace Sys2Proof.Machine

/-- What putting a byte in front of higher cells makes a read give. -/
theorem readByte_consByte (a : Nat) (v : Byte) (m : Memory) (x : Nat) :
    readByte (consByte a v m) x =
      if v = blankByte then readByte m x else if a = x then v else readByte m x := by
  unfold consByte
  split <;> simp [readByte]

/-- Canonical from `lo` on is canonical from anywhere below. -/
theorem wfFrom_mono {m : Memory} {lo hi : Nat} (h : Memory.wfFrom hi m = true) (hl : lo ≤ hi) :
    Memory.wfFrom lo m = true := by
  cases m with
  | nil => rfl
  | cons c m =>
    simp only [Memory.wfFrom, Bool.and_eq_true, decide_eq_true_eq] at h ⊢
    exact ⟨⟨⟨by omega, h.1.1.2⟩, h.1.2⟩, h.2⟩

/-- Below the first address a canonical memory may list, every byte is blank. -/
theorem readByte_of_lt {m : Memory} {lo x : Nat} (h : Memory.wfFrom lo m = true) (hx : x < lo) :
    readByte m x = blankByte := by
  induction m generalizing lo with
  | nil => rfl
  | cons c m ih =>
    simp only [Memory.wfFrom, Bool.and_eq_true, decide_eq_true_eq] at h
    have hne : c.1 ≠ x := by omega
    simp only [readByte, if_neg hne]
    exact ih h.2 (by omega)

/-- Past the last byte of memory every byte of a canonical memory is blank. -/
theorem readByte_of_ge {m : Memory} {lo x : Nat} (h : Memory.wfFrom lo m = true) (hx : memBytes ≤ x) :
    readByte m x = blankByte := by
  induction m generalizing lo with
  | nil => rfl
  | cons c m ih =>
    simp only [Memory.wfFrom, Bool.and_eq_true, decide_eq_true_eq] at h
    have hne : c.1 ≠ x := by omega
    simp only [readByte, if_neg hne]
    exact ih h.2

/-- A byte write leaves every other byte alone, in any memory. -/
theorem readByte_writeByte_ne (m : Memory) {a x : Nat} (v : Byte) (h : x ≠ a) :
    readByte (writeByte m a v) x = readByte m x := by
  have hax : a ≠ x := fun e => h e.symm
  induction m with
  | nil => simp [writeByte, readByte_consByte, hax]
  | cons c m ih =>
    unfold writeByte
    split
    · simp [readByte_consByte, hax]
    · split
      · rename_i _ hk
        simp [readByte_consByte, hax, readByte, ← hk]
      · simp [readByte, ih]

/-- A byte read where it was written gives the byte written. -/
theorem readByte_writeByte_same {m : Memory} {lo a : Nat} (v : Byte) (h : Memory.wfFrom lo m = true) :
    readByte (writeByte m a v) a = v := by
  induction m generalizing lo with
  | nil => simp +contextual [writeByte, readByte_consByte, readByte, eq_comm]
  | cons c m ih =>
    have hw := h
    simp only [Memory.wfFrom, Bool.and_eq_true, decide_eq_true_eq] at h
    unfold writeByte
    split
    · rename_i hlt
      rw [readByte_consByte, readByte_of_lt (lo := c.1) (by simp [Memory.wfFrom, h]) hlt]
      split <;> simp_all
    · split
      · rename_i _ hk
        rw [readByte_consByte, readByte_of_lt h.2 (by omega)]
        split <;> simp_all
      · rename_i _ hk
        have hne : c.1 ≠ a := fun e => hk e.symm
        simp only [readByte, if_neg hne]
        exact ih h.2

theorem readByte_writeByte {m : Memory} (h : Memory.wf m = true) (a x : Nat) (v : Byte) :
    readByte (writeByte m a v) x = if x = a then v else readByte m x := by
  by_cases e : x = a
  · subst e; simp [readByte_writeByte_same v h]
  · simp [e, readByte_writeByte_ne m v e]

/-- Putting a byte in front keeps the canonical form. -/
theorem wfFrom_consByte {m : Memory} {lo a : Nat} (v : Byte) (h : Memory.wfFrom (a + 1) m = true)
    (hl : lo ≤ a) (ha : a < memBytes) : Memory.wfFrom lo (consByte a v m) = true := by
  unfold consByte
  split
  · exact wfFrom_mono h (by omega)
  · rename_i hv
    simp [Memory.wfFrom, hl, ha, hv, h]

/-- A byte write keeps the canonical form. -/
theorem wfFrom_writeByte {m : Memory} {lo a : Nat} (v : Byte) (h : Memory.wfFrom lo m = true) (hl : lo ≤ a)
    (ha : a < memBytes) : Memory.wfFrom lo (writeByte m a v) = true := by
  induction m generalizing lo with
  | nil => exact wfFrom_consByte v rfl hl ha
  | cons c m ih =>
    have hw := h
    simp only [Memory.wfFrom, Bool.and_eq_true, decide_eq_true_eq] at h
    unfold writeByte
    split
    · rename_i hlt
      refine wfFrom_consByte v ?_ hl ha
      simp only [Memory.wfFrom, Bool.and_eq_true, decide_eq_true_eq]
      exact ⟨⟨⟨by omega, h.1.1.2⟩, h.1.2⟩, h.2⟩
    · split
      · rename_i _ hk
        exact wfFrom_consByte v (by rw [hk]; exact h.2) hl ha
      · rename_i h1 h2
        simp only [Memory.wfFrom, Bool.and_eq_true, decide_eq_true_eq]
        exact ⟨h.1, ih h.2 (by omega)⟩

theorem lowAddr_lt (a : Word) : lowAddr a < memBytes := by
  have := a.isLt; simp only [lowAddr, memBytes]; omega

theorem highAddr_lt (a : Word) : highAddr a < memBytes := by
  have := a.isLt; simp only [highAddr, memBytes]; omega

theorem lowAddr_ne_highAddr (a b : Word) : lowAddr a ≠ highAddr b := by simp only [lowAddr, highAddr]; omega

theorem lowAddr_inj {a b : Word} : lowAddr a = lowAddr b ↔ a = b := by
  rw [← BitVec.toNat_inj]; simp only [lowAddr]; omega

theorem highAddr_inj {a b : Word} : highAddr a = highAddr b ↔ a = b := by
  rw [← BitVec.toNat_inj]; simp only [highAddr]; omega

/-- A word is its two bytes. -/
@[simp] theorem wordOfBytes_high_low (w : Word) : wordOfBytes (highByte w) (lowByte w) = w := by
  apply BitVec.eq_of_toNat_eq
  have := w.isLt
  simp only [wordOfBytes, highByte, lowByte, BitVec.toNat_ofNat]
  omega

/-- A word read after a word write. -/
theorem readWord_writeWord {m : Memory} (h : Memory.wf m = true) (a b : Word) (v : Word) :
    readWord (writeWord m a v) b = if b = a then v else readWord m b := by
  have h1 : Memory.wf (writeByte m (lowAddr a) (lowByte v)) = true :=
    wfFrom_writeByte _ h (Nat.zero_le _) (lowAddr_lt a)
  simp only [readWord, writeWord, readByte_writeByte h1, readByte_writeByte h, highAddr_inj, lowAddr_inj,
    (lowAddr_ne_highAddr _ _).symm, lowAddr_ne_highAddr, if_false]
  split <;> simp

theorem readWord_writeWord_same {m : Memory} (h : Memory.wf m = true) (a : Word) (v : Word) :
    readWord (writeWord m a v) a = v := by
  simp [readWord_writeWord h]

/-- A word write leaves every other byte alone, in any memory. -/
theorem readByte_writeWord_ne (m : Memory) (a v : Word) {x : Nat} (hl : x ≠ lowAddr a) (hh : x ≠ highAddr a) :
    readByte (writeWord m a v) x = readByte m x := by
  rw [writeWord, readByte_writeByte_ne _ _ hh, readByte_writeByte_ne _ _ hl]

/-- A word write leaves every other word alone, in any memory. -/
theorem readWord_writeWord_ne (m : Memory) {a b : Word} (v : Word) (h : b ≠ a) :
    readWord (writeWord m a v) b = readWord m b := by
  have e1 : highAddr b ≠ highAddr a := fun e => h (highAddr_inj.1 e)
  have e2 : lowAddr b ≠ lowAddr a := fun e => h (lowAddr_inj.1 e)
  simp only [readWord]
  rw [readByte_writeWord_ne _ _ _ (lowAddr_ne_highAddr a b).symm e1,
    readByte_writeWord_ne _ _ _ e2 (lowAddr_ne_highAddr b a)]

/-- A word write keeps the canonical form. -/
theorem wf_writeWord {m : Memory} (h : Memory.wf m = true) (a v : Word) : Memory.wf (writeWord m a v) = true :=
  wfFrom_writeByte _ (wfFrom_writeByte _ h (Nat.zero_le _) (lowAddr_lt a)) (Nat.zero_le _) (highAddr_lt a)

/-- The cells of an image that fits are canonical. -/
theorem wfFrom_imageCells (k : Nat) (bs : List Byte) (h : k + bs.length ≤ memBytes) :
    Memory.wfFrom k (imageCells k bs) = true := by
  induction bs generalizing k with
  | nil => rfl
  | cons b bs ih =>
    simp only [List.length_cons] at h
    exact wfFrom_consByte b (ih (k + 1) (by omega)) (Nat.le_refl k) (by omega)

/-- The cells of an image that fits are canonical. -/
theorem wf_imageCells (bs : List Byte) (h : bs.length ≤ memBytes) : Memory.wf (imageCells 0 bs) = true :=
  wfFrom_imageCells 0 bs (by omega)

/-- Memory at reset is canonical. -/
theorem wf_reset : Memory.wf State.reset.mem = true := rfl

/-- Cleared memory is canonical. -/
theorem wf_nil : Memory.wf [] = true := rfl

end Sys2Proof.Machine
end

