-- ==== Sys2Proof/Laws/State.lean ====
section
/-! SUPPORT. One lemma per field of the state per update, so that no proof unfolds a record update; then the
register file read after such an update. -/

namespace Sys2Proof.Machine

@[simp] theorem writeReg_flags (r : Reg) (v : Word) (s : State) : (writeReg r v s).flags = s.flags := by cases r <;> rfl
@[simp] theorem writeReg_tpat (r : Reg) (v : Word) (s : State) : (writeReg r v s).tpat = s.tpat := by cases r <;> rfl
@[simp] theorem writeReg_fpat (r : Reg) (v : Word) (s : State) : (writeReg r v s).fpat = s.fpat := by cases r <;> rfl
@[simp] theorem writeReg_out (r : Reg) (v : Word) (s : State) : (writeReg r v s).out = s.out := by cases r <;> rfl
@[simp] theorem writeReg_outChanged (r : Reg) (v : Word) (s : State) : (writeReg r v s).outChanged = s.outChanged := by cases r <;> rfl
@[simp] theorem writeReg_error (r : Reg) (v : Word) (s : State) : (writeReg r v s).error = s.error := by cases r <;> rfl
@[simp] theorem writeReg_instret (r : Reg) (v : Word) (s : State) : (writeReg r v s).instret = s.instret := by cases r <;> rfl
@[simp] theorem writeReg_cycles (r : Reg) (v : Word) (s : State) : (writeReg r v s).cycles = s.cycles := by cases r <;> rfl
@[simp] theorem writeReg_mem (r : Reg) (v : Word) (s : State) : (writeReg r v s).mem = s.mem := by cases r <;> rfl
@[simp] theorem writeReg_opcodeMap (r : Reg) (v : Word) (s : State) : (writeReg r v s).opcodeMap = s.opcodeMap := by cases r <;> rfl
@[simp] theorem writeReg_supplier (r : Reg) (v : Word) (s : State) : (writeReg r v s).supplier = s.supplier := by cases r <;> rfl
@[simp] theorem writeReg_inputCalls (r : Reg) (v : Word) (s : State) : (writeReg r v s).inputCalls = s.inputCalls := by cases r <;> rfl

@[simp] theorem addCycles_regs (n : Nat) (s : State) : (addCycles n s).regs = s.regs := rfl
@[simp] theorem addCycles_flags (n : Nat) (s : State) : (addCycles n s).flags = s.flags := rfl
@[simp] theorem addCycles_tpat (n : Nat) (s : State) : (addCycles n s).tpat = s.tpat := rfl
@[simp] theorem addCycles_fpat (n : Nat) (s : State) : (addCycles n s).fpat = s.fpat := rfl
@[simp] theorem addCycles_out (n : Nat) (s : State) : (addCycles n s).out = s.out := rfl
@[simp] theorem addCycles_outChanged (n : Nat) (s : State) : (addCycles n s).outChanged = s.outChanged := rfl
@[simp] theorem addCycles_error (n : Nat) (s : State) : (addCycles n s).error = s.error := rfl
@[simp] theorem addCycles_instret (n : Nat) (s : State) : (addCycles n s).instret = s.instret := rfl
@[simp] theorem addCycles_cycles (n : Nat) (s : State) : (addCycles n s).cycles = s.cycles + n := rfl
@[simp] theorem addCycles_mem (n : Nat) (s : State) : (addCycles n s).mem = s.mem := rfl
@[simp] theorem addCycles_opcodeMap (n : Nat) (s : State) : (addCycles n s).opcodeMap = s.opcodeMap := rfl
@[simp] theorem addCycles_supplier (n : Nat) (s : State) : (addCycles n s).supplier = s.supplier := rfl
@[simp] theorem addCycles_inputCalls (n : Nat) (s : State) : (addCycles n s).inputCalls = s.inputCalls := rfl

@[simp] theorem beginStep_regs (s : State) : (beginStep s).regs = s.regs := rfl
@[simp] theorem beginStep_flags (s : State) : (beginStep s).flags = s.flags := rfl
@[simp] theorem beginStep_tpat (s : State) : (beginStep s).tpat = s.tpat := rfl
@[simp] theorem beginStep_fpat (s : State) : (beginStep s).fpat = s.fpat := rfl
@[simp] theorem beginStep_out (s : State) : (beginStep s).out = s.out := rfl
@[simp] theorem beginStep_outChanged (s : State) : (beginStep s).outChanged = false := rfl
@[simp] theorem beginStep_error (s : State) : (beginStep s).error = s.error := rfl
@[simp] theorem beginStep_instret (s : State) : (beginStep s).instret = s.instret := rfl
@[simp] theorem beginStep_cycles (s : State) : (beginStep s).cycles = s.cycles := rfl
@[simp] theorem beginStep_mem (s : State) : (beginStep s).mem = s.mem := rfl
@[simp] theorem beginStep_opcodeMap (s : State) : (beginStep s).opcodeMap = s.opcodeMap := rfl
@[simp] theorem beginStep_supplier (s : State) : (beginStep s).supplier = s.supplier := rfl
@[simp] theorem beginStep_inputCalls (s : State) : (beginStep s).inputCalls = s.inputCalls := rfl

@[simp] theorem advance_flags (o : Operand) (s : State) : (advance o s).flags = s.flags := rfl
@[simp] theorem advance_tpat (o : Operand) (s : State) : (advance o s).tpat = s.tpat := rfl
@[simp] theorem advance_fpat (o : Operand) (s : State) : (advance o s).fpat = s.fpat := rfl
@[simp] theorem advance_out (o : Operand) (s : State) : (advance o s).out = s.out := rfl
@[simp] theorem advance_outChanged (o : Operand) (s : State) : (advance o s).outChanged = s.outChanged := rfl
@[simp] theorem advance_error (o : Operand) (s : State) : (advance o s).error = s.error := rfl
@[simp] theorem advance_instret (o : Operand) (s : State) : (advance o s).instret = s.instret := rfl
@[simp] theorem advance_cycles (o : Operand) (s : State) : (advance o s).cycles = s.cycles + operandWords o := rfl
@[simp] theorem advance_mem (o : Operand) (s : State) : (advance o s).mem = s.mem := rfl
@[simp] theorem advance_opcodeMap (o : Operand) (s : State) : (advance o s).opcodeMap = s.opcodeMap := rfl
@[simp] theorem advance_supplier (o : Operand) (s : State) : (advance o s).supplier = s.supplier := rfl
@[simp] theorem advance_inputCalls (o : Operand) (s : State) : (advance o s).inputCalls = s.inputCalls := rfl

@[simp] theorem retire_regs (s : State) : (retire s).regs = s.regs := rfl
@[simp] theorem retire_flags (s : State) : (retire s).flags = s.flags := rfl
@[simp] theorem retire_tpat (s : State) : (retire s).tpat = s.tpat := rfl
@[simp] theorem retire_fpat (s : State) : (retire s).fpat = s.fpat := rfl
@[simp] theorem retire_out (s : State) : (retire s).out = s.out := rfl
@[simp] theorem retire_outChanged (s : State) : (retire s).outChanged = s.outChanged := rfl
@[simp] theorem retire_error (s : State) : (retire s).error = s.error := rfl
@[simp] theorem retire_instret (s : State) : (retire s).instret = s.instret + 1 := rfl
@[simp] theorem retire_cycles (s : State) : (retire s).cycles = s.cycles := rfl
@[simp] theorem retire_mem (s : State) : (retire s).mem = s.mem := rfl
@[simp] theorem retire_opcodeMap (s : State) : (retire s).opcodeMap = s.opcodeMap := rfl
@[simp] theorem retire_supplier (s : State) : (retire s).supplier = s.supplier := rfl
@[simp] theorem retire_inputCalls (s : State) : (retire s).inputCalls = s.inputCalls := rfl

@[simp] theorem memWrite_regs (a v : Word) (s : State) : (memWrite a v s).regs = s.regs := rfl
@[simp] theorem memWrite_flags (a v : Word) (s : State) : (memWrite a v s).flags = s.flags := rfl
@[simp] theorem memWrite_tpat (a v : Word) (s : State) : (memWrite a v s).tpat = s.tpat := rfl
@[simp] theorem memWrite_fpat (a v : Word) (s : State) : (memWrite a v s).fpat = s.fpat := rfl
@[simp] theorem memWrite_out (a v : Word) (s : State) : (memWrite a v s).out = s.out := rfl
@[simp] theorem memWrite_outChanged (a v : Word) (s : State) : (memWrite a v s).outChanged = s.outChanged := rfl
@[simp] theorem memWrite_error (a v : Word) (s : State) : (memWrite a v s).error = s.error := rfl
@[simp] theorem memWrite_instret (a v : Word) (s : State) : (memWrite a v s).instret = s.instret := rfl
@[simp] theorem memWrite_cycles (a v : Word) (s : State) : (memWrite a v s).cycles = s.cycles + 1 := rfl
@[simp] theorem memWrite_mem (a v : Word) (s : State) : (memWrite a v s).mem = writeWord s.mem a v := rfl
@[simp] theorem memWrite_opcodeMap (a v : Word) (s : State) : (memWrite a v s).opcodeMap = s.opcodeMap := rfl
@[simp] theorem memWrite_supplier (a v : Word) (s : State) : (memWrite a v s).supplier = s.supplier := rfl
@[simp] theorem memWrite_inputCalls (a v : Word) (s : State) : (memWrite a v s).inputCalls = s.inputCalls := rfl

@[simp] theorem raiseInvalidOpcode_regs (s : State) : (raiseInvalidOpcode s).regs = s.regs := rfl
@[simp] theorem raiseInvalidOpcode_flags (s : State) : (raiseInvalidOpcode s).flags = s.flags := rfl
@[simp] theorem raiseInvalidOpcode_tpat (s : State) : (raiseInvalidOpcode s).tpat = s.tpat := rfl
@[simp] theorem raiseInvalidOpcode_fpat (s : State) : (raiseInvalidOpcode s).fpat = s.fpat := rfl
@[simp] theorem raiseInvalidOpcode_out (s : State) : (raiseInvalidOpcode s).out = s.out := rfl
@[simp] theorem raiseInvalidOpcode_outChanged (s : State) : (raiseInvalidOpcode s).outChanged = s.outChanged := rfl
@[simp] theorem raiseInvalidOpcode_error (s : State) : (raiseInvalidOpcode s).error = true := rfl
@[simp] theorem raiseInvalidOpcode_instret (s : State) : (raiseInvalidOpcode s).instret = s.instret := rfl
@[simp] theorem raiseInvalidOpcode_cycles (s : State) : (raiseInvalidOpcode s).cycles = s.cycles := rfl
@[simp] theorem raiseInvalidOpcode_mem (s : State) : (raiseInvalidOpcode s).mem = s.mem := rfl
@[simp] theorem raiseInvalidOpcode_opcodeMap (s : State) : (raiseInvalidOpcode s).opcodeMap = s.opcodeMap := rfl
@[simp] theorem raiseInvalidOpcode_supplier (s : State) : (raiseInvalidOpcode s).supplier = s.supplier := rfl
@[simp] theorem raiseInvalidOpcode_inputCalls (s : State) : (raiseInvalidOpcode s).inputCalls = s.inputCalls := rfl

@[simp] theorem resetMemory_regs (s : State) : (resetMemory s).regs = s.regs := rfl
@[simp] theorem resetMemory_flags (s : State) : (resetMemory s).flags = s.flags := rfl
@[simp] theorem resetMemory_tpat (s : State) : (resetMemory s).tpat = s.tpat := rfl
@[simp] theorem resetMemory_fpat (s : State) : (resetMemory s).fpat = s.fpat := rfl
@[simp] theorem resetMemory_out (s : State) : (resetMemory s).out = s.out := rfl
@[simp] theorem resetMemory_outChanged (s : State) : (resetMemory s).outChanged = s.outChanged := rfl
@[simp] theorem resetMemory_error (s : State) : (resetMemory s).error = s.error := rfl
@[simp] theorem resetMemory_instret (s : State) : (resetMemory s).instret = s.instret := rfl
@[simp] theorem resetMemory_cycles (s : State) : (resetMemory s).cycles = s.cycles := rfl
@[simp] theorem resetMemory_mem (s : State) : (resetMemory s).mem = [] := rfl
@[simp] theorem resetMemory_opcodeMap (s : State) : (resetMemory s).opcodeMap = s.opcodeMap := rfl
@[simp] theorem resetMemory_supplier (s : State) : (resetMemory s).supplier = s.supplier := rfl
@[simp] theorem resetMemory_inputCalls (s : State) : (resetMemory s).inputCalls = s.inputCalls := rfl

@[simp] theorem resetState_regs (s : State) : (resetState s).regs = State.reset.regs := rfl
@[simp] theorem resetState_flags (s : State) : (resetState s).flags = State.reset.flags := rfl
@[simp] theorem resetState_tpat (s : State) : (resetState s).tpat = 1 := rfl
@[simp] theorem resetState_fpat (s : State) : (resetState s).fpat = 0 := rfl
@[simp] theorem resetState_out (s : State) : (resetState s).out = 0 := rfl
@[simp] theorem resetState_outChanged (s : State) : (resetState s).outChanged = false := rfl
@[simp] theorem resetState_error (s : State) : (resetState s).error = false := rfl
@[simp] theorem resetState_instret (s : State) : (resetState s).instret = 0 := rfl
@[simp] theorem resetState_cycles (s : State) : (resetState s).cycles = 0 := rfl
@[simp] theorem resetState_mem (s : State) : (resetState s).mem = s.mem := rfl
@[simp] theorem resetState_opcodeMap (s : State) : (resetState s).opcodeMap = s.opcodeMap := rfl
@[simp] theorem resetState_supplier (s : State) : (resetState s).supplier = s.supplier := rfl
@[simp] theorem resetState_inputCalls (s : State) : (resetState s).inputCalls = s.inputCalls := rfl

@[simp] theorem writeFlags_regs (f : Flags) (s : State) : (writeFlags f s).regs = s.regs := rfl
@[simp] theorem writeFlags_flags (f : Flags) (s : State) : (writeFlags f s).flags = f := rfl
@[simp] theorem writeFlags_tpat (f : Flags) (s : State) : (writeFlags f s).tpat = s.tpat := rfl
@[simp] theorem writeFlags_fpat (f : Flags) (s : State) : (writeFlags f s).fpat = s.fpat := rfl
@[simp] theorem writeFlags_out (f : Flags) (s : State) : (writeFlags f s).out = s.out := rfl
@[simp] theorem writeFlags_outChanged (f : Flags) (s : State) : (writeFlags f s).outChanged = s.outChanged := rfl
@[simp] theorem writeFlags_error (f : Flags) (s : State) : (writeFlags f s).error = s.error := rfl
@[simp] theorem writeFlags_instret (f : Flags) (s : State) : (writeFlags f s).instret = s.instret := rfl
@[simp] theorem writeFlags_cycles (f : Flags) (s : State) : (writeFlags f s).cycles = s.cycles := rfl
@[simp] theorem writeFlags_mem (f : Flags) (s : State) : (writeFlags f s).mem = s.mem := rfl
@[simp] theorem writeFlags_opcodeMap (f : Flags) (s : State) : (writeFlags f s).opcodeMap = s.opcodeMap := rfl
@[simp] theorem writeFlags_supplier (f : Flags) (s : State) : (writeFlags f s).supplier = s.supplier := rfl
@[simp] theorem writeFlags_inputCalls (f : Flags) (s : State) : (writeFlags f s).inputCalls = s.inputCalls := rfl

@[simp] theorem writeTpat_regs (v : Word) (s : State) : (writeTpat v s).regs = s.regs := rfl
@[simp] theorem writeTpat_flags (v : Word) (s : State) : (writeTpat v s).flags = s.flags := rfl
@[simp] theorem writeTpat_tpat (v : Word) (s : State) : (writeTpat v s).tpat = v := rfl
@[simp] theorem writeTpat_fpat (v : Word) (s : State) : (writeTpat v s).fpat = s.fpat := rfl
@[simp] theorem writeTpat_out (v : Word) (s : State) : (writeTpat v s).out = s.out := rfl
@[simp] theorem writeTpat_outChanged (v : Word) (s : State) : (writeTpat v s).outChanged = s.outChanged := rfl
@[simp] theorem writeTpat_error (v : Word) (s : State) : (writeTpat v s).error = s.error := rfl
@[simp] theorem writeTpat_instret (v : Word) (s : State) : (writeTpat v s).instret = s.instret := rfl
@[simp] theorem writeTpat_cycles (v : Word) (s : State) : (writeTpat v s).cycles = s.cycles := rfl
@[simp] theorem writeTpat_mem (v : Word) (s : State) : (writeTpat v s).mem = s.mem := rfl
@[simp] theorem writeTpat_opcodeMap (v : Word) (s : State) : (writeTpat v s).opcodeMap = s.opcodeMap := rfl
@[simp] theorem writeTpat_supplier (v : Word) (s : State) : (writeTpat v s).supplier = s.supplier := rfl
@[simp] theorem writeTpat_inputCalls (v : Word) (s : State) : (writeTpat v s).inputCalls = s.inputCalls := rfl

@[simp] theorem writeFpat_regs (v : Word) (s : State) : (writeFpat v s).regs = s.regs := rfl
@[simp] theorem writeFpat_flags (v : Word) (s : State) : (writeFpat v s).flags = s.flags := rfl
@[simp] theorem writeFpat_tpat (v : Word) (s : State) : (writeFpat v s).tpat = s.tpat := rfl
@[simp] theorem writeFpat_fpat (v : Word) (s : State) : (writeFpat v s).fpat = v := rfl
@[simp] theorem writeFpat_out (v : Word) (s : State) : (writeFpat v s).out = s.out := rfl
@[simp] theorem writeFpat_outChanged (v : Word) (s : State) : (writeFpat v s).outChanged = s.outChanged := rfl
@[simp] theorem writeFpat_error (v : Word) (s : State) : (writeFpat v s).error = s.error := rfl
@[simp] theorem writeFpat_instret (v : Word) (s : State) : (writeFpat v s).instret = s.instret := rfl
@[simp] theorem writeFpat_cycles (v : Word) (s : State) : (writeFpat v s).cycles = s.cycles := rfl
@[simp] theorem writeFpat_mem (v : Word) (s : State) : (writeFpat v s).mem = s.mem := rfl
@[simp] theorem writeFpat_opcodeMap (v : Word) (s : State) : (writeFpat v s).opcodeMap = s.opcodeMap := rfl
@[simp] theorem writeFpat_supplier (v : Word) (s : State) : (writeFpat v s).supplier = s.supplier := rfl
@[simp] theorem writeFpat_inputCalls (v : Word) (s : State) : (writeFpat v s).inputCalls = s.inputCalls := rfl

@[simp] theorem writeOut_regs (v : Word) (s : State) : (writeOut v s).regs = s.regs := rfl
@[simp] theorem writeOut_flags (v : Word) (s : State) : (writeOut v s).flags = s.flags := rfl
@[simp] theorem writeOut_tpat (v : Word) (s : State) : (writeOut v s).tpat = s.tpat := rfl
@[simp] theorem writeOut_fpat (v : Word) (s : State) : (writeOut v s).fpat = s.fpat := rfl
@[simp] theorem writeOut_out (v : Word) (s : State) : (writeOut v s).out = v := rfl
@[simp] theorem writeOut_outChanged (v : Word) (s : State) : (writeOut v s).outChanged = true := rfl
@[simp] theorem writeOut_error (v : Word) (s : State) : (writeOut v s).error = s.error := rfl
@[simp] theorem writeOut_instret (v : Word) (s : State) : (writeOut v s).instret = s.instret := rfl
@[simp] theorem writeOut_cycles (v : Word) (s : State) : (writeOut v s).cycles = s.cycles := rfl
@[simp] theorem writeOut_mem (v : Word) (s : State) : (writeOut v s).mem = s.mem := rfl
@[simp] theorem writeOut_opcodeMap (v : Word) (s : State) : (writeOut v s).opcodeMap = s.opcodeMap := rfl
@[simp] theorem writeOut_supplier (v : Word) (s : State) : (writeOut v s).supplier = s.supplier := rfl
@[simp] theorem writeOut_inputCalls (v : Word) (s : State) : (writeOut v s).inputCalls = s.inputCalls := rfl

@[simp] theorem advance_regs (o : Operand) (s : State) :
    (advance o s).regs = { s.regs with ip := s.regs.ip + BitVec.ofNat 16 (operandWords o) } := rfl

/-- A register read after a register write. -/
theorem readReg_writeReg (q r : Reg) (v : Word) (s : State) :
    readReg q (writeReg r v s) = if q = r then v else readReg q s := by
  cases q <;> cases r <;> rfl

@[simp] theorem readReg_writeReg_same (r : Reg) (v : Word) (s : State) : readReg r (writeReg r v s) = v := by
  simp [readReg_writeReg]

theorem readReg_writeReg_ne {q r : Reg} (h : q ≠ r) (v : Word) (s : State) :
    readReg q (writeReg r v s) = readReg q s := by
  simp [readReg_writeReg, h]

/-- Two states with the same registers read the same. -/
theorem readReg_congr {s t : State} (h : t.regs = s.regs) (q : Reg) : readReg q t = readReg q s := by
  cases q <;> simp [readReg, h]

/-- A register file is what its eight registers read as. -/
theorem regs_ext {s t : State} (h : ∀ q, readReg q t = readReg q s) : t.regs = s.regs := by
  have ha := h .a; have hb := h .b; have hc := h .c; have hd := h .d
  have he := h .e; have hf := h .fp; have hs := h .sp; have hi := h .ip
  cases t with | mk tr => cases s with | mk sr => cases tr; cases sr; simp_all [readReg]

@[simp] theorem readReg_addCycles (q : Reg) (n : Nat) (s : State) : readReg q (addCycles n s) = readReg q s := by
  cases q <;> rfl
@[simp] theorem readReg_beginStep (q : Reg) (s : State) : readReg q (beginStep s) = readReg q s := by
  cases q <;> rfl
@[simp] theorem readReg_retire (q : Reg) (s : State) : readReg q (retire s) = readReg q s := by
  cases q <;> rfl
@[simp] theorem readReg_memWrite (q : Reg) (a v : Word) (s : State) : readReg q (memWrite a v s) = readReg q s := by
  cases q <;> rfl
@[simp] theorem readReg_raiseInvalidOpcode (q : Reg) (s : State) : readReg q (raiseInvalidOpcode s) = readReg q s := by
  cases q <;> rfl
@[simp] theorem readReg_resetMemory (q : Reg) (s : State) : readReg q (resetMemory s) = readReg q s := by
  cases q <;> rfl

@[simp] theorem readReg_advance (q : Reg) (o : Operand) (s : State) :
    readReg q (advance o s) = phaseReg o s q := by
  cases q <;> rfl

@[simp] theorem readReg_writeFlags (q : Reg) (f : Flags) (s : State) : readReg q (writeFlags f s) = readReg q s := by
  cases q <;> rfl
@[simp] theorem readReg_writeTpat (q : Reg) (v : Word) (s : State) : readReg q (writeTpat v s) = readReg q s := by
  cases q <;> rfl
@[simp] theorem readReg_writeFpat (q : Reg) (v : Word) (s : State) : readReg q (writeFpat v s) = readReg q s := by
  cases q <;> rfl
@[simp] theorem readReg_writeOut (q : Reg) (v : Word) (s : State) : readReg q (writeOut v s) = readReg q s := by
  cases q <;> rfl

@[simp] theorem writeReg_sp (r : Reg) (v : Word) (s : State) :
    (writeReg r v s).regs.sp = if r = .sp then v else s.regs.sp := by cases r <;> rfl

@[simp] theorem writeReg_ip (r : Reg) (v : Word) (s : State) :
    (writeReg r v s).regs.ip = if r = .ip then v else s.regs.ip := by cases r <;> rfl

@[simp] theorem operandValue_advance (o p : Operand) (s : State) :
    operandValue o (advance p s) = operandValue o s := by
  cases o <;> rfl

@[simp] theorem condHolds_advance (cc : Cond) (o : Operand) (s : State) :
    condHolds cc (advance o s) = condHolds cc s := by
  cases cc <;> rfl

@[simp] theorem phaseReg_ip (o : Operand) (s : State) :
    phaseReg o s .ip = s.regs.ip + BitVec.ofNat 16 (operandWords o) := rfl

theorem phaseReg_of_ne {q : Reg} (h : q ≠ .ip) (o : Operand) (s : State) : phaseReg o s q = readReg q s := by
  simp [phaseReg, h]

end Sys2Proof.Machine
end

