-- ==== Sys2Proof/Laws/Ops.lean ====
section
/-! SUPPORT. For each shared operation, once, what it does; what executing any instruction can do; and the
equation of each arm of `exec`. -/

namespace Sys2Proof.Machine

/-- Issue with a condition that holds: advance, execute, retire. -/
theorem issue_of_holds {o : Operand} {cc : Cond} {body : State → State} {s : State}
    (h : condHolds cc s = true) : issue o cc body s = .next (retire (body (advance o s))) := by
  simp [issue, h]

/-- Issue with a condition that does not hold: advance and retire. -/
theorem issue_of_not_holds {o : Operand} {cc : Cond} {body : State → State} {s : State}
    (h : condHolds cc s = false) : issue o cc body s = .next (retire (advance o s)) := by
  simp [issue, h]

/-- Issue always answers a next state. -/
theorem issue_next (o : Operand) (cc : Cond) (body : State → State) (s : State) :
    issue o cc body s = .next (retire (if condHolds cc s then body (advance o s) else advance o s)) := by
  simp [issue]

@[simp] theorem memRead_fst (a : Word) (s : State) : (memRead a s).1 = readWord s.mem a := rfl

@[simp] theorem memRead_snd (a : Word) (s : State) : (memRead a s).2 = addCycles 1 s := rfl

@[simp] theorem loadReg_eq (r : Reg) (a : Word) (s : State) :
    loadReg r a s = writeReg r (readWord s.mem a) (addCycles 1 s) := rfl

@[simp] theorem swapReg_eq (r : Reg) (a : Word) (s : State) :
    swapReg r a s = writeReg r (readWord s.mem a) (memWrite a (readReg r s) (addCycles 1 s)) := rfl

@[simp] theorem push_eq (v : Word) (s : State) :
    push v s = writeReg .sp (s.regs.sp + 1) (memWrite s.regs.sp v s) := rfl

@[simp] theorem popReg_eq (r : Reg) (s : State) :
    popReg r s = writeReg r (readWord s.mem (s.regs.sp - 1)) (writeReg .sp (s.regs.sp - 1) (addCycles 1 s)) := rfl

@[simp] theorem writeRegZS_eq (r : Reg) (v : Word) (s : State) :
    writeRegZS r v s = writeReg r v (writeFlags (setZS v s.flags) s) := rfl

@[simp] theorem writeRegFlags_eq (r : Reg) (v : Word × Flags) (s : State) :
    writeRegFlags r v s = writeReg r v.1 (writeFlags v.2 s) := rfl

@[simp] theorem bitwise_eq (f : Word → Word → Word) (r : Reg) (o : Operand) (s : State) :
    bitwise f r o s = writeRegZS r (f (readReg r s) (operandValue o s)) s := rfl

@[simp] theorem compareStore_eq (f : Word → Word → Bool) (r : Reg) (o : Operand) (s : State) :
    compareStore f r o s = writeReg r (if f (readReg r s) (operandValue o s) then s.tpat else s.fpat) s := rfl

@[simp] theorem rotate_eq (f : Word → Nat → Word) (r : Reg) (o : Operand) (s : State) :
    rotate f r o s = writeRegZS r (f (readReg r s) (shiftCount (operandValue o s))) s := rfl

/-- A shift writes its word, takes `cf` from the shift and `zf`, `sf` from the word. -/
@[simp] theorem shift_eq (f : Bool → Word → Nat → Bool × Word) (r : Reg) (o : Operand) (s : State) :
    shift f r o s =
      writeRegZS r (f s.flags.cf (readReg r s) (shiftCount (operandValue o s))).2
        (writeFlags { s.flags with cf := (f s.flags.cf (readReg r s) (shiftCount (operandValue o s))).1 } s) := rfl

@[simp] theorem exchangeRegs_eq (r q : Reg) (s : State) :
    exchangeRegs r q s = writeReg q (readReg r s) (writeReg r (readReg q s) s) := rfl

@[simp] theorem setZS_zf (v : Word) (f : Flags) : (setZS v f).zf = (v == 0) := rfl
@[simp] theorem setZS_sf (v : Word) (f : Flags) : (setZS v f).sf = v.msb := rfl
@[simp] theorem setZS_cf (v : Word) (f : Flags) : (setZS v f).cf = f.cf := rfl
@[simp] theorem setZS_of (v : Word) (f : Flags) : (setZS v f).of = f.of := rfl

/-- Calling the supplier changes nothing but the supplier's own two fields. -/
theorem callInput_eq (s : State) :
    ∃ vs n, callInput s = { s with supplier := vs, inputCalls := n } := by
  unfold callInput
  split
  · exact ⟨s.supplier, s.inputCalls, rfl⟩
  · exact ⟨_, _, rfl⟩

@[simp] theorem callInput_regs (s : State) : (callInput s).regs = s.regs := by
  unfold callInput; split <;> rfl
@[simp] theorem callInput_flags (s : State) : (callInput s).flags = s.flags := by
  unfold callInput; split <;> rfl
@[simp] theorem callInput_tpat (s : State) : (callInput s).tpat = s.tpat := by
  unfold callInput; split <;> rfl
@[simp] theorem callInput_fpat (s : State) : (callInput s).fpat = s.fpat := by
  unfold callInput; split <;> rfl
@[simp] theorem callInput_out (s : State) : (callInput s).out = s.out := by
  unfold callInput; split <;> rfl
@[simp] theorem callInput_outChanged (s : State) : (callInput s).outChanged = s.outChanged := by
  unfold callInput; split <;> rfl
@[simp] theorem callInput_error (s : State) : (callInput s).error = s.error := by
  unfold callInput; split <;> rfl
@[simp] theorem callInput_instret (s : State) : (callInput s).instret = s.instret := by
  unfold callInput; split <;> rfl
@[simp] theorem callInput_cycles (s : State) : (callInput s).cycles = s.cycles := by
  unfold callInput; split <;> rfl
@[simp] theorem callInput_mem (s : State) : (callInput s).mem = s.mem := by
  unfold callInput; split <;> rfl
@[simp] theorem callInput_opcodeMap (s : State) : (callInput s).opcodeMap = s.opcodeMap := by
  unfold callInput; split <;> rfl

@[simp] theorem readReg_callInput (q : Reg) (s : State) : readReg q (callInput s) = readReg q s := by
  cases q <;> simp [readReg]
@[simp] theorem nextInput_advance (o : Operand) (s : State) : nextInput (advance o s) = nextInput s := rfl
@[simp] theorem inputValue_advance (o : Operand) (s : State) : inputValue (advance o s) = inputValue s := rfl

/-- The value `IN` reads, by whether a supplier is attached. -/
theorem inputValue_of_none {s : State} (h : nextInput s = none) : inputValue s = 0 := by simp [inputValue, h]

theorem inputValue_of_some {s : State} {v : Int} (h : nextInput s = some v) :
    ((inputValue s).toNat : Int) = v % 65536 := by
  simp only [inputValue, h, BitVec.toNat_ofInt]; omega

/-- `step` outside the error state. -/
theorem step_of_running {s : State} (h : s.error = false) : step s = exec (fetchInstr s) (beginStep s) := by
  simp [step, h]

/-- `step` in the error state. -/
theorem step_of_error {s : State} (h : s.error = true) : step s = .next s := by
  simp [step, h]

/-! The arm of each operation: its issue with its own body. -/

theorem exec_set (r : Reg) (o : Operand) (cc : Cond) (s : State) :
    exec (.set r o cc) s = issue o cc (fun p => writeReg r (operandValue o p) p) s := rfl

theorem exec_ld (r : Reg) (o : Operand) (cc : Cond) (s : State) :
    exec (.ld r o cc) s = issue o cc (fun p => loadReg r (operandValue o p) p) s := rfl

theorem exec_st (r : Reg) (o : Operand) (cc : Cond) (s : State) :
    exec (.st r o cc) s = issue o cc (fun p => memWrite (operandValue o p) (readReg r p) p) s := rfl

theorem exec_sti (r : Reg) (o : Operand) (cc : Cond) (s : State) :
    exec (.sti r o cc) s = issue o cc (fun p => memWrite (readReg r p) (operandValue o p) p) s := rfl

theorem exec_jump (r : Reg) (o : Operand) (cc : Cond) (s : State) :
    exec (.jump r o cc) s = issue o cc (fun p => writeReg .ip (operandValue o p) p) s := rfl

theorem exec_rdflags (r : Reg) (o : Operand) (cc : Cond) (s : State) :
    exec (.rdflags r o cc) s = issue o cc (fun p => writeReg r (flagWord p.flags) p) s := rfl

theorem exec_wrflags (r : Reg) (o : Operand) (cc : Cond) (s : State) :
    exec (.wrflags r o cc) s = issue o cc (fun p => writeFlags (flagsOfWord (operandValue o p)) p) s := rfl

theorem exec_pushr (r : Reg) (o : Operand) (cc : Cond) (s : State) :
    exec (.pushr r o cc) s = issue o cc (fun p => push (readReg r p) p) s := rfl

theorem exec_pushv (r : Reg) (o : Operand) (cc : Cond) (s : State) :
    exec (.pushv r o cc) s = issue o cc (fun p => push (operandValue o p) p) s := rfl

theorem exec_pop (r : Reg) (o : Operand) (cc : Cond) (s : State) :
    exec (.pop r o cc) s = issue o cc (fun p => popReg r p) s := rfl

theorem exec_call (r : Reg) (o : Operand) (cc : Cond) (s : State) :
    exec (.call r o cc) s = issue o cc (fun p => writeReg r (operandValue o p) (push (readReg r p) p)) s := rfl

theorem exec_ret (r : Reg) (o : Operand) (cc : Cond) (s : State) :
    exec (.ret r o cc) s = issue o cc (fun p => popReg .ip p) s := rfl

theorem exec_ldfp (r : Reg) (o : Operand) (cc : Cond) (s : State) :
    exec (.ldfp r o cc) s = issue o cc (fun p => loadReg r (frameAddr o p) p) s := rfl

theorem exec_stfp (r : Reg) (o : Operand) (cc : Cond) (s : State) :
    exec (.stfp r o cc) s = issue o cc (fun p => memWrite (frameAddr o p) (readReg r p) p) s := rfl

theorem exec_ldsp (r : Reg) (o : Operand) (cc : Cond) (s : State) :
    exec (.ldsp r o cc) s = issue o cc (fun p => loadReg r (stackAddr o p) p) s := rfl

theorem exec_stsp (r : Reg) (o : Operand) (cc : Cond) (s : State) :
    exec (.stsp r o cc) s = issue o cc (fun p => memWrite (stackAddr o p) (readReg r p) p) s := rfl

theorem exec_swapfp (r : Reg) (o : Operand) (cc : Cond) (s : State) :
    exec (.swapfp r o cc) s = issue o cc (fun p => swapReg r (frameAddr o p) p) s := rfl

theorem exec_swapsp (r : Reg) (o : Operand) (cc : Cond) (s : State) :
    exec (.swapsp r o cc) s = issue o cc (fun p => swapReg r (stackAddr o p) p) s := rfl

theorem exec_xchg (r : Reg) (o : Operand) (cc : Cond) (s : State) :
    exec (.xchg r o cc) s = issue o cc (fun p => exchangeRegs r (operandReg o) p) s := rfl

theorem exec_and (r : Reg) (o : Operand) (cc : Cond) (s : State) :
    exec (.and r o cc) s = issue o cc (fun p => bitwise (fun x y => x &&& y) r o p) s := rfl

theorem exec_nand (r : Reg) (o : Operand) (cc : Cond) (s : State) :
    exec (.nand r o cc) s = issue o cc (fun p => bitwise (fun x y => ~~~(x &&& y)) r o p) s := rfl

theorem exec_or (r : Reg) (o : Operand) (cc : Cond) (s : State) :
    exec (.or r o cc) s = issue o cc (fun p => bitwise (fun x y => x ||| y) r o p) s := rfl

theorem exec_nor (r : Reg) (o : Operand) (cc : Cond) (s : State) :
    exec (.nor r o cc) s = issue o cc (fun p => bitwise (fun x y => ~~~(x ||| y)) r o p) s := rfl

theorem exec_xor (r : Reg) (o : Operand) (cc : Cond) (s : State) :
    exec (.xor r o cc) s = issue o cc (fun p => bitwise (fun x y => x ^^^ y) r o p) s := rfl

theorem exec_xnor (r : Reg) (o : Operand) (cc : Cond) (s : State) :
    exec (.xnor r o cc) s = issue o cc (fun p => bitwise (fun x y => ~~~(x ^^^ y)) r o p) s := rfl

theorem exec_not (r : Reg) (o : Operand) (cc : Cond) (s : State) :
    exec (.not r o cc) s = issue o cc (fun p => writeRegZS r (~~~(operandValue o p)) p) s := rfl

theorem exec_test (r : Reg) (o : Operand) (cc : Cond) (s : State) :
    exec (.test r o cc) s = issue o cc (fun p => writeFlags (setZS (readReg r p &&& operandValue o p) p.flags) p) s := rfl

theorem exec_cmpeq (r : Reg) (o : Operand) (cc : Cond) (s : State) :
    exec (.cmpeq r o cc) s = issue o cc (fun p => compareStore (fun x y => x == y) r o p) s := rfl

theorem exec_cmpne (r : Reg) (o : Operand) (cc : Cond) (s : State) :
    exec (.cmpne r o cc) s = issue o cc (fun p => compareStore (fun x y => x != y) r o p) s := rfl

theorem exec_rotl (r : Reg) (o : Operand) (cc : Cond) (s : State) :
    exec (.rotl r o cc) s = issue o cc (fun p => rotate rotlWord r o p) s := rfl

theorem exec_rotr (r : Reg) (o : Operand) (cc : Cond) (s : State) :
    exec (.rotr r o cc) s = issue o cc (fun p => rotate rotrWord r o p) s := rfl

theorem exec_shl (r : Reg) (o : Operand) (cc : Cond) (s : State) :
    exec (.shl r o cc) s = issue o cc (fun p => shift shlWord r o p) s := rfl

theorem exec_shlc (r : Reg) (o : Operand) (cc : Cond) (s : State) :
    exec (.shlc r o cc) s = issue o cc (fun p => shift shlcWord r o p) s := rfl

theorem exec_shr (r : Reg) (o : Operand) (cc : Cond) (s : State) :
    exec (.shr r o cc) s = issue o cc (fun p => shift shrWord r o p) s := rfl

theorem exec_shrc (r : Reg) (o : Operand) (cc : Cond) (s : State) :
    exec (.shrc r o cc) s = issue o cc (fun p => shift shrcWord r o p) s := rfl

theorem exec_shra (r : Reg) (o : Operand) (cc : Cond) (s : State) :
    exec (.shra r o cc) s = issue o cc (fun p => shift shraWord r o p) s := rfl

theorem exec_add (r : Reg) (o : Operand) (cc : Cond) (s : State) :
    exec (.add r o cc) s = issue o cc (fun p => writeRegFlags r (addForm (readReg r p) (operandValue o p) false) p) s := rfl

theorem exec_addc (r : Reg) (o : Operand) (cc : Cond) (s : State) :
    exec (.addc r o cc) s = issue o cc (fun p => writeRegFlags r (addForm (readReg r p) (operandValue o p) p.flags.cf) p) s := rfl

theorem exec_sub (r : Reg) (o : Operand) (cc : Cond) (s : State) :
    exec (.sub r o cc) s = issue o cc (fun p => writeRegFlags r (subForm (readReg r p) (operandValue o p) false) p) s := rfl

theorem exec_subb (r : Reg) (o : Operand) (cc : Cond) (s : State) :
    exec (.subb r o cc) s = issue o cc (fun p => writeRegFlags r (subForm (readReg r p) (operandValue o p) p.flags.cf) p) s := rfl

theorem exec_comp (r : Reg) (o : Operand) (cc : Cond) (s : State) :
    exec (.comp r o cc) s = issue o cc (fun p => writeFlags (subForm (readReg r p) (operandValue o p) false).2 p) s := rfl

theorem exec_sbbr (r : Reg) (o : Operand) (cc : Cond) (s : State) :
    exec (.sbbr r o cc) s = issue o cc (fun p => writeRegFlags r (subForm (operandValue o p) (readReg r p) p.flags.cf) p) s := rfl

theorem exec_subr (r : Reg) (o : Operand) (cc : Cond) (s : State) :
    exec (.subr r o cc) s = issue o cc (fun p => writeRegFlags r (subForm (operandValue o p) (readReg r p) false) p) s := rfl

theorem exec_out (r : Reg) (o : Operand) (cc : Cond) (s : State) :
    exec (.out r o cc) s = issue o cc (fun p => writeOut (operandValue o p) p) s := rfl

theorem exec_inp (r : Reg) (o : Operand) (cc : Cond) (s : State) :
    exec (.inp r o cc) s = issue o cc (fun p => writeRegZS r (inputValue p) (callInput p)) s := rfl

theorem exec_qery (r : Reg) (o : Operand) (cc : Cond) (s : State) :
    exec (.qery r o cc) s = issue o cc (fun p => writeReg r (Config.queryTable (operandValue o p)) p) s := rfl

theorem exec_settpat (r : Reg) (o : Operand) (cc : Cond) (s : State) :
    exec (.settpat r o cc) s = issue o cc (fun p => writeTpat (operandValue o p) p) s := rfl

theorem exec_setfpat (r : Reg) (o : Operand) (cc : Cond) (s : State) :
    exec (.setfpat r o cc) s = issue o cc (fun p => writeFpat (operandValue o p) p) s := rfl

theorem exec_invalid (k : BitVec 6) (r : Reg) (o : Operand) (cc : Cond) (s : State) :
    exec (.invalid k r o cc) s = .next (raiseInvalidOpcode s) := rfl

/-- What executing an instruction can do: an invalid opcode raises the exception, any other instruction is issued
with the operation's own effect as body. -/
theorem exec_cases (i : Instr) :
    (i.op = none ∧ ∀ s, exec i s = .next (raiseInvalidOpcode s)) ∨
      ∃ op body, i.op = some op ∧ ∀ s, exec i s = issue i.arg2 i.cond body s := by
  cases i with
  | invalid k r o cc => exact .inl ⟨rfl, exec_invalid k r o cc⟩
  | set r o cc => exact .inr ⟨_, _, rfl, exec_set r o cc⟩
  | ld r o cc => exact .inr ⟨_, _, rfl, exec_ld r o cc⟩
  | st r o cc => exact .inr ⟨_, _, rfl, exec_st r o cc⟩
  | sti r o cc => exact .inr ⟨_, _, rfl, exec_sti r o cc⟩
  | jump r o cc => exact .inr ⟨_, _, rfl, exec_jump r o cc⟩
  | rdflags r o cc => exact .inr ⟨_, _, rfl, exec_rdflags r o cc⟩
  | wrflags r o cc => exact .inr ⟨_, _, rfl, exec_wrflags r o cc⟩
  | pushr r o cc => exact .inr ⟨_, _, rfl, exec_pushr r o cc⟩
  | pushv r o cc => exact .inr ⟨_, _, rfl, exec_pushv r o cc⟩
  | pop r o cc => exact .inr ⟨_, _, rfl, exec_pop r o cc⟩
  | call r o cc => exact .inr ⟨_, _, rfl, exec_call r o cc⟩
  | ret r o cc => exact .inr ⟨_, _, rfl, exec_ret r o cc⟩
  | ldfp r o cc => exact .inr ⟨_, _, rfl, exec_ldfp r o cc⟩
  | stfp r o cc => exact .inr ⟨_, _, rfl, exec_stfp r o cc⟩
  | ldsp r o cc => exact .inr ⟨_, _, rfl, exec_ldsp r o cc⟩
  | stsp r o cc => exact .inr ⟨_, _, rfl, exec_stsp r o cc⟩
  | swapfp r o cc => exact .inr ⟨_, _, rfl, exec_swapfp r o cc⟩
  | swapsp r o cc => exact .inr ⟨_, _, rfl, exec_swapsp r o cc⟩
  | xchg r o cc => exact .inr ⟨_, _, rfl, exec_xchg r o cc⟩
  | and r o cc => exact .inr ⟨_, _, rfl, exec_and r o cc⟩
  | nand r o cc => exact .inr ⟨_, _, rfl, exec_nand r o cc⟩
  | or r o cc => exact .inr ⟨_, _, rfl, exec_or r o cc⟩
  | nor r o cc => exact .inr ⟨_, _, rfl, exec_nor r o cc⟩
  | xor r o cc => exact .inr ⟨_, _, rfl, exec_xor r o cc⟩
  | xnor r o cc => exact .inr ⟨_, _, rfl, exec_xnor r o cc⟩
  | not r o cc => exact .inr ⟨_, _, rfl, exec_not r o cc⟩
  | test r o cc => exact .inr ⟨_, _, rfl, exec_test r o cc⟩
  | cmpeq r o cc => exact .inr ⟨_, _, rfl, exec_cmpeq r o cc⟩
  | cmpne r o cc => exact .inr ⟨_, _, rfl, exec_cmpne r o cc⟩
  | rotl r o cc => exact .inr ⟨_, _, rfl, exec_rotl r o cc⟩
  | rotr r o cc => exact .inr ⟨_, _, rfl, exec_rotr r o cc⟩
  | shl r o cc => exact .inr ⟨_, _, rfl, exec_shl r o cc⟩
  | shlc r o cc => exact .inr ⟨_, _, rfl, exec_shlc r o cc⟩
  | shr r o cc => exact .inr ⟨_, _, rfl, exec_shr r o cc⟩
  | shrc r o cc => exact .inr ⟨_, _, rfl, exec_shrc r o cc⟩
  | shra r o cc => exact .inr ⟨_, _, rfl, exec_shra r o cc⟩
  | add r o cc => exact .inr ⟨_, _, rfl, exec_add r o cc⟩
  | addc r o cc => exact .inr ⟨_, _, rfl, exec_addc r o cc⟩
  | sub r o cc => exact .inr ⟨_, _, rfl, exec_sub r o cc⟩
  | subb r o cc => exact .inr ⟨_, _, rfl, exec_subb r o cc⟩
  | comp r o cc => exact .inr ⟨_, _, rfl, exec_comp r o cc⟩
  | sbbr r o cc => exact .inr ⟨_, _, rfl, exec_sbbr r o cc⟩
  | subr r o cc => exact .inr ⟨_, _, rfl, exec_subr r o cc⟩
  | out r o cc => exact .inr ⟨_, _, rfl, exec_out r o cc⟩
  | inp r o cc => exact .inr ⟨_, _, rfl, exec_inp r o cc⟩
  | qery r o cc => exact .inr ⟨_, _, rfl, exec_qery r o cc⟩
  | settpat r o cc => exact .inr ⟨_, _, rfl, exec_settpat r o cc⟩
  | setfpat r o cc => exact .inr ⟨_, _, rfl, exec_setfpat r o cc⟩

/-- Every instruction answers a next state. -/
theorem exec_next (i : Instr) (s : State) : ∃ t, exec i s = .next t := by
  obtain ⟨-, h⟩ | ⟨_, body, -, h⟩ := exec_cases i
  · exact ⟨_, h s⟩
  · exact ⟨_, (h s).trans (issue_next ..)⟩

end Sys2Proof.Machine
end

