-- ==== Sys2Proof/Laws/Codes.lean ====
section
/-! SUPPORT. The codes of registers, operands and conditions read back, and the fields of a built instruction. -/

namespace Sys2Proof

@[simp] theorem regOfCode_regCode (r : Reg) : regOfCode (regCode r) = r := by cases r <;> rfl

@[simp] theorem regCode_regOfCode (k : BitVec 3) : regCode (regOfCode k) = k := by
  revert k; decide

@[simp] theorem condOfCode_condCode (c : Cond) : condOfCode (condCode c) = c := by cases c <;> rfl

@[simp] theorem condCode_condOfCode (k : BitVec 4) : condCode (condOfCode k) = k := by
  revert k; decide

@[simp] theorem operandOfCode_operandCode (o : Operand) : operandOfCode (operandCode o) (operandImm o) = o := by
  cases o <;> rfl

/-- An operand's code is 7 exactly where it brings an immediate word (R47). -/
theorem operandCode_eq_seven (o : Operand) : operandCode o = 7 ↔ operandWords o = 2 := by
  cases o <;> simp [operandCode, operandWords]

@[simp] theorem instrOf_op (op : Op) (r : Reg) (o : Operand) (c : Cond) : (instrOf op r o c).op = some op := by
  cases op <;> rfl

@[simp] theorem instrOf_arg1 (op : Op) (r : Reg) (o : Operand) (c : Cond) : (instrOf op r o c).arg1 = r := by
  cases op <;> rfl

@[simp] theorem instrOf_arg2 (op : Op) (r : Reg) (o : Operand) (c : Cond) : (instrOf op r o c).arg2 = o := by
  cases op <;> rfl

@[simp] theorem instrOf_cond (op : Op) (r : Reg) (o : Operand) (c : Cond) : (instrOf op r o c).cond = c := by
  cases op <;> rfl

end Sys2Proof
end

