-- ==== Sys2Proof/Laws/PerInstr.lean ====
section
/-! SUPPORT. The per-instruction family `Rebuild`: an instruction is its operation with its three fields, and
`instrOf` of an operation and three fields has them back. -/

namespace Sys2Proof.Laws.Rebuild

/-- `i` is rebuilt from its operation and its arg1, arg2 and condition fields (R60, R62). -/
def Statement (i : Instr) : Prop := ∀ op, i.op = some op → i = instrOf op i.arg1 i.arg2 i.cond

theorem set (r : Reg) (o : Operand) (cc : Cond) : Statement (.set r o cc) := by
  intro op h; cases h; rfl

theorem ld (r : Reg) (o : Operand) (cc : Cond) : Statement (.ld r o cc) := by
  intro op h; cases h; rfl

theorem st (r : Reg) (o : Operand) (cc : Cond) : Statement (.st r o cc) := by
  intro op h; cases h; rfl

theorem sti (r : Reg) (o : Operand) (cc : Cond) : Statement (.sti r o cc) := by
  intro op h; cases h; rfl

theorem jump (r : Reg) (o : Operand) (cc : Cond) : Statement (.jump r o cc) := by
  intro op h; cases h; rfl

theorem rdflags (r : Reg) (o : Operand) (cc : Cond) : Statement (.rdflags r o cc) := by
  intro op h; cases h; rfl

theorem wrflags (r : Reg) (o : Operand) (cc : Cond) : Statement (.wrflags r o cc) := by
  intro op h; cases h; rfl

theorem pushr (r : Reg) (o : Operand) (cc : Cond) : Statement (.pushr r o cc) := by
  intro op h; cases h; rfl

theorem pushv (r : Reg) (o : Operand) (cc : Cond) : Statement (.pushv r o cc) := by
  intro op h; cases h; rfl

theorem pop (r : Reg) (o : Operand) (cc : Cond) : Statement (.pop r o cc) := by
  intro op h; cases h; rfl

theorem call (r : Reg) (o : Operand) (cc : Cond) : Statement (.call r o cc) := by
  intro op h; cases h; rfl

theorem ret (r : Reg) (o : Operand) (cc : Cond) : Statement (.ret r o cc) := by
  intro op h; cases h; rfl

theorem ldfp (r : Reg) (o : Operand) (cc : Cond) : Statement (.ldfp r o cc) := by
  intro op h; cases h; rfl

theorem stfp (r : Reg) (o : Operand) (cc : Cond) : Statement (.stfp r o cc) := by
  intro op h; cases h; rfl

theorem ldsp (r : Reg) (o : Operand) (cc : Cond) : Statement (.ldsp r o cc) := by
  intro op h; cases h; rfl

theorem stsp (r : Reg) (o : Operand) (cc : Cond) : Statement (.stsp r o cc) := by
  intro op h; cases h; rfl

theorem swapfp (r : Reg) (o : Operand) (cc : Cond) : Statement (.swapfp r o cc) := by
  intro op h; cases h; rfl

theorem swapsp (r : Reg) (o : Operand) (cc : Cond) : Statement (.swapsp r o cc) := by
  intro op h; cases h; rfl

theorem xchg (r : Reg) (o : Operand) (cc : Cond) : Statement (.xchg r o cc) := by
  intro op h; cases h; rfl

theorem and (r : Reg) (o : Operand) (cc : Cond) : Statement (.and r o cc) := by
  intro op h; cases h; rfl

theorem nand (r : Reg) (o : Operand) (cc : Cond) : Statement (.nand r o cc) := by
  intro op h; cases h; rfl

theorem or (r : Reg) (o : Operand) (cc : Cond) : Statement (.or r o cc) := by
  intro op h; cases h; rfl

theorem nor (r : Reg) (o : Operand) (cc : Cond) : Statement (.nor r o cc) := by
  intro op h; cases h; rfl

theorem xor (r : Reg) (o : Operand) (cc : Cond) : Statement (.xor r o cc) := by
  intro op h; cases h; rfl

theorem xnor (r : Reg) (o : Operand) (cc : Cond) : Statement (.xnor r o cc) := by
  intro op h; cases h; rfl

theorem not (r : Reg) (o : Operand) (cc : Cond) : Statement (.not r o cc) := by
  intro op h; cases h; rfl

theorem test (r : Reg) (o : Operand) (cc : Cond) : Statement (.test r o cc) := by
  intro op h; cases h; rfl

theorem cmpeq (r : Reg) (o : Operand) (cc : Cond) : Statement (.cmpeq r o cc) := by
  intro op h; cases h; rfl

theorem cmpne (r : Reg) (o : Operand) (cc : Cond) : Statement (.cmpne r o cc) := by
  intro op h; cases h; rfl

theorem rotl (r : Reg) (o : Operand) (cc : Cond) : Statement (.rotl r o cc) := by
  intro op h; cases h; rfl

theorem rotr (r : Reg) (o : Operand) (cc : Cond) : Statement (.rotr r o cc) := by
  intro op h; cases h; rfl

theorem shl (r : Reg) (o : Operand) (cc : Cond) : Statement (.shl r o cc) := by
  intro op h; cases h; rfl

theorem shlc (r : Reg) (o : Operand) (cc : Cond) : Statement (.shlc r o cc) := by
  intro op h; cases h; rfl

theorem shr (r : Reg) (o : Operand) (cc : Cond) : Statement (.shr r o cc) := by
  intro op h; cases h; rfl

theorem shrc (r : Reg) (o : Operand) (cc : Cond) : Statement (.shrc r o cc) := by
  intro op h; cases h; rfl

theorem shra (r : Reg) (o : Operand) (cc : Cond) : Statement (.shra r o cc) := by
  intro op h; cases h; rfl

theorem add (r : Reg) (o : Operand) (cc : Cond) : Statement (.add r o cc) := by
  intro op h; cases h; rfl

theorem addc (r : Reg) (o : Operand) (cc : Cond) : Statement (.addc r o cc) := by
  intro op h; cases h; rfl

theorem sub (r : Reg) (o : Operand) (cc : Cond) : Statement (.sub r o cc) := by
  intro op h; cases h; rfl

theorem subb (r : Reg) (o : Operand) (cc : Cond) : Statement (.subb r o cc) := by
  intro op h; cases h; rfl

theorem comp (r : Reg) (o : Operand) (cc : Cond) : Statement (.comp r o cc) := by
  intro op h; cases h; rfl

theorem sbbr (r : Reg) (o : Operand) (cc : Cond) : Statement (.sbbr r o cc) := by
  intro op h; cases h; rfl

theorem subr (r : Reg) (o : Operand) (cc : Cond) : Statement (.subr r o cc) := by
  intro op h; cases h; rfl

theorem out (r : Reg) (o : Operand) (cc : Cond) : Statement (.out r o cc) := by
  intro op h; cases h; rfl

theorem inp (r : Reg) (o : Operand) (cc : Cond) : Statement (.inp r o cc) := by
  intro op h; cases h; rfl

theorem qery (r : Reg) (o : Operand) (cc : Cond) : Statement (.qery r o cc) := by
  intro op h; cases h; rfl

theorem settpat (r : Reg) (o : Operand) (cc : Cond) : Statement (.settpat r o cc) := by
  intro op h; cases h; rfl

theorem setfpat (r : Reg) (o : Operand) (cc : Cond) : Statement (.setfpat r o cc) := by
  intro op h; cases h; rfl

theorem invalid (k : BitVec 6) (r : Reg) (o : Operand) (cc : Cond) : Statement (.invalid k r o cc) := by
  intro op h; cases h

end Sys2Proof.Laws.Rebuild
end

