-- ==== Sys2Proof/Tests/Slice0.lean ====
section
/-! SUPPORT. The model's own tests: terms that WellFormed refuses, words written out from the spec's encoding, single
steps whose expected results are the vectors of spec/95_test_vectors.md (named in each comment), and for every
statement with hypotheses a witness that meets them. -/

namespace Sys2Proof.Machine

/-! WellFormed. -/

/-- A map that binds nothing but opcode 5, to `ADD`. -/
def tinyMap : OpcodeMap := (Vector.replicate 64 none).set 5 (some .add)

/-- Refused: an operation the map binds to no opcode (R55). -/
theorem test_wellFormed_refuses_unbound_operation :
    WellFormed tinyMap (.sub .a .one .always) = false ∧ WellFormed tinyMap (.add .a .one .always) = true := by
  decide

/-- Refused: an `invalid` whose opcode the map binds (R57). -/
theorem test_wellFormed_refuses_bound_invalid :
    WellFormed tinyMap (.invalid 5 .a .one .always) = false ∧
      WellFormed tinyMap (.invalid 6 .a .one .always) = true := by
  decide

/-! Words written out bit by bit: six bits of opcode (the map FM), three of arg1, three of arg2, four of cond (R45,
R49, R50, R54), the immediate in bits 31 to 16. -/

theorem test_decode_move_set :
    [decodeTableWord 16 0b0000010010100011,
      decodeTableWord 32 0b10100100110000100000101001111010,
      decodeTableWord 16 0b0000111111000001,
      decodeTableWord 16 0b0001000100011000,
      decodeTableWord 16 0b0001011011101111,
      decodeTableWord 16 0b0001100000110110,
      decodeTableWord 16 0b0001110110001101] =
      [some (.set .b .regC .ult),
        some (.ld .e (.imm 0xA4C2) .sle),
        some (.st .ip .zero .ugt),
        some (.sti .c .regB .sge),
        some (.jump .fp .minusOne .cNonzero),
        some (.rdflags .a .regD .ne),
        some (.wrflags .d .regA .neg)] := by
  decide

theorem test_decode_stack :
    [decodeTableWord 16 0b0010001101010100,
      decodeTableWord 16 0b0010010010101011,
      decodeTableWord 32 0b10101100110010100010101001110010,
      decodeTableWord 16 0b0010111111001001,
      decodeTableWord 16 0b0011000100010000] =
      [some (.pushr .sp .one .ule),
        some (.pushv .b .regC .ovf),
        some (.pop .e (.imm 0xACCA) .uge),
        some (.call .ip .zero .slt),
        some (.ret .c .regB .always)] := by
  decide

theorem test_decode_stack_relative :
    [decodeTableWord 16 0b0011011011100111,
      decodeTableWord 16 0b0011100000111110,
      decodeTableWord 16 0b0011110110000101,
      decodeTableWord 16 0b0100001101011100,
      decodeTableWord 16 0b0100010010100011,
      decodeTableWord 32 0b10110100110100100100101001111010,
      decodeTableWord 16 0b0100111111000001] =
      [some (.ldfp .fp .minusOne .sgt),
        some (.stfp .a .regD .notNeg),
        some (.ldsp .d .regA .eq),
        some (.stsp .sp .one .noOvf),
        some (.swapfp .b .regC .ult),
        some (.swapsp .e (.imm 0xB4D2) .sle),
        some (.xchg .ip .zero .ugt)] := by
  decide

theorem test_decode_bitwise_compare :
    [decodeTableWord 16 0b0101000100011000,
      decodeTableWord 16 0b0101011011101111,
      decodeTableWord 16 0b0101100000110110,
      decodeTableWord 16 0b0101110110001101,
      decodeTableWord 16 0b0110001101010100,
      decodeTableWord 16 0b0110010010101011,
      decodeTableWord 32 0b10111100110110100110101001110010,
      decodeTableWord 16 0b0110111111001001,
      decodeTableWord 16 0b0111000100010000,
      decodeTableWord 16 0b0111011011100111] =
      [some (.and .c .regB .sge),
        some (.nand .fp .minusOne .cNonzero),
        some (.or .a .regD .ne),
        some (.nor .d .regA .neg),
        some (.xor .sp .one .ule),
        some (.xnor .b .regC .ovf),
        some (.not .e (.imm 0xBCDA) .uge),
        some (.test .ip .zero .slt),
        some (.cmpeq .c .regB .always),
        some (.cmpne .fp .minusOne .sgt)] := by
  decide

theorem test_decode_shift_rotate :
    [decodeTableWord 16 0b0111100000111110,
      decodeTableWord 16 0b0111110110000101,
      decodeTableWord 16 0b1000001101011100,
      decodeTableWord 16 0b1000010010100011,
      decodeTableWord 32 0b10000100111000101000101001111010,
      decodeTableWord 16 0b1000111111000001,
      decodeTableWord 16 0b1001000100011000] =
      [some (.rotl .a .regD .notNeg),
        some (.rotr .d .regA .eq),
        some (.shl .sp .one .noOvf),
        some (.shlc .b .regC .ult),
        some (.shr .e (.imm 0x84E2) .sle),
        some (.shrc .ip .zero .ugt),
        some (.shra .c .regB .sge)] := by
  decide

theorem test_decode_arithmetic :
    [decodeTableWord 16 0b1001011011101111,
      decodeTableWord 16 0b1001100000110110,
      decodeTableWord 16 0b1001110110001101,
      decodeTableWord 16 0b1010001101010100,
      decodeTableWord 16 0b1010010010101011,
      decodeTableWord 32 0b10001100111010101010101001110010,
      decodeTableWord 16 0b1010111111001001] =
      [some (.add .fp .minusOne .cNonzero),
        some (.addc .a .regD .ne),
        some (.sub .d .regA .neg),
        some (.subb .sp .one .ule),
        some (.comp .b .regC .ovf),
        some (.sbbr .e (.imm 0x8CEA) .uge),
        some (.subr .ip .zero .slt)] := by
  decide

theorem test_decode_io_query_pattern :
    [decodeTableWord 16 0b1011000100010000,
      decodeTableWord 16 0b1011011011100111,
      decodeTableWord 16 0b1011100000111110,
      decodeTableWord 16 0b1011110110000101,
      decodeTableWord 16 0b1100001101011100] =
      [some (.out .c .regB .always),
        some (.inp .fp .minusOne .sgt),
        some (.qery .a .regD .notNeg),
        some (.settpat .d .regA .eq),
        some (.setfpat .sp .one .noOvf)] := by
  decide

/-- Opcodes 0, 49 and 63 are unbound, whatever the other fields (V-DEC). -/
theorem test_decode_invalid :
    [decodeTableWord 16 0b0000000000000000, decodeTableWord 16 0b1100010000000000,
      decodeTableWord 32 0b00010010001101001111110001111111, decodeTableWord 32 0b10000000000000011111111111111111] =
      [some (.invalid 0 .a .regA .always), some (.invalid 49 .a .regA .always),
        some (.invalid 63 .a (.imm 0x1234) .cNonzero), some (.invalid 63 .ip (.imm 0x8001) .cNonzero)] := by
  decide

/-- An immediate word missing from the list, and no word at all, are refused by name. -/
theorem test_decode_refuses_short_lists :
    (decode fixtureMap [0x0470]).toOption = none ∧ (decode fixtureMap []).toOption = none ∧
      (decode fixtureMap [0x0460]).toOption = some (.set .a .minusOne .always, []) := by
  decide

/-- The encoder writes the words of the assembler's examples (L1-1, L1-2). -/
theorem test_encode_words :
    encode fixtureMap (.set .c (.imm 0xFFFE) .eq) = [0x0575, 0xFFFE] ∧
      encode fixtureMap (.set .a .zero .always) = [0x0440] ∧
      encode fixtureMap (.invalid 63 .ip (.imm 0) .cNonzero) = [0xFFFF, 0x0000] := by
  decide

/-! Single steps. -/

/-- The state after reset with the fixture map FM in force. -/
def start : State := { State.reset with opcodeMap := fixtureMap }

/-- One step with an instruction's bits placed where the step fetches. -/
def stepWord (s : State) (nbits w : Nat) : State := outcomeState s (step (s.withFetchWord nbits w))

/-- As `stepWord`, the error flag being left as it is. -/
def stepMem (s : State) (w : Word) : State := outcomeState s (step { s with mem := writeWord s.mem s.regs.ip w })

/-- S8: `SET b, 1`. -/
theorem test_set_s8 :
    (fun t : State => (t.regs.b, t.regs.ip, t.outChanged, t.cycles))
      (stepWord { start with outChanged := true } 16 0x04D0) =
      (0x0001, 0x0001, false, 1) := by
  decide

/-- S7: `SET:5 a, imm 0x1234`. -/
theorem test_set_s7 :
    (fun t : State => (t.regs.a, t.regs.ip, t.cycles))
      (stepWord { start with flags := { start.flags with zf := true } } 32 0x12340475) =
      (0x1234, 0x0002, 2) := by
  decide

/-- M7: `LD a, b`. -/
theorem test_ld_m7 :
    (fun t : State => (t.regs.a, t.regs.ip, t.cycles))
      (stepWord { start with regs := { start.regs with b := 0x0200 }, mem := (writeWord [] 0x0200 0xCAFE) } 16 0x0810) =
      (0xCAFE, 0x0001, 2) := by
  decide

/-- M10: `LD d, -1`. -/
theorem test_ld_m10 :
    (fun t : State => (t.regs.d, t.regs.ip, t.cycles))
      (stepWord { start with mem := (writeWord [] 0xFFFF 0x00EE) } 16 0x09E0) =
      (0x00EE, 0x0001, 2) := by
  decide

/-- M11: `ST a, imm 0x0300`. -/
theorem test_st_m11 :
    (fun t : State => (t.regs.ip, readWord t.mem 0x0300, t.cycles))
      (stepWord { start with regs := { start.regs with a := 0xABCD } } 32 0x03000C70) =
      (0x0002, 0xABCD, 3) := by
  decide

/-- M13: `ST a, 0`. -/
theorem test_st_m13 :
    (fun t : State => (t.regs.ip, readWord t.mem 0x0000, t.cycles))
      (stepWord { start with regs := { start.regs with a := 0x1234 } } 16 0x0C40) =
      (0x0001, 0x1234, 2) := by
  decide

/-- M14: `STI c, imm 0x4444`. -/
theorem test_sti_m14 :
    (fun t : State => (t.regs.ip, readWord t.mem 0x0500, t.cycles))
      (stepWord { start with regs := { start.regs with c := 0x0500 } } 32 0x44441170) =
      (0x0002, 0x4444, 3) := by
  decide

/-- M15: `STI ip, 1`. -/
theorem test_sti_m15 :
    (fun t : State => (t.regs.ip, readWord t.mem 0x0021, t.cycles))
      (stepWord { start with regs := { start.regs with ip := 0x0020 } } 16 0x13D0) =
      (0x0021, 0x0001, 2) := by
  decide

/-- M18: `JUMP:6 a`. -/
theorem test_jump_m18 :
    (fun t : State => (t.regs.ip, t.cycles))
      (stepWord { start with regs := { start.regs with a := 0x2222 } } 16 0x1406) =
      (0x2222, 1) := by
  decide

/-- M16: `JUMP imm 0x1000`. -/
theorem test_jump_m16 :
    (fun t : State => (t.regs.ip, t.cycles))
      (stepWord start 32 0x10001470) =
      (0x1000, 2) := by
  decide

/-- M20: `RDFLAGS b`. -/
theorem test_rdflags_m20 :
    (fun t : State => (t.regs.b, t.regs.ip, t.cycles))
      (stepWord { start with flags := { start.flags with zf := true, sf := true, cf := true, of := true } } 16 0x1880) =
      (0x000F, 0x0001, 1) := by
  decide

/-- M21: `RDFLAGS ip`. -/
theorem test_rdflags_m21 :
    (fun t : State => (t.regs.ip, t.cycles))
      (stepWord { start with flags := { start.flags with cf := true } } 16 0x1B80) =
      (0x0004, 1) := by
  decide

/-- M23: `WRFLAGS 0`. -/
theorem test_wrflags_m23 :
    (fun t : State => (t.regs.ip, t.flags.zf, t.flags.sf, t.flags.cf, t.flags.of, t.cycles))
      (stepWord { start with flags := { start.flags with zf := true, sf := true, cf := true, of := true } } 16 0x1C40) =
      (0x0001, false, false, false, false, 1) := by
  decide

/-- M24: `WRFLAGS imm 0xFFF4`. -/
theorem test_wrflags_m24 :
    (fun t : State => (t.regs.ip, t.flags.cf, t.cycles))
      (stepWord start 32 0xFFF41C70) =
      (0x0002, true, 2) := by
  decide

/-- S10: `PUSHR ip`. -/
theorem test_pushr_s10 :
    (fun t : State => (t.regs.sp, t.regs.ip, readWord t.mem 0x8000, t.cycles))
      (stepWord { start with regs := { start.regs with ip := 0xFFFF, sp := 0x8000 }, mem := (writeWord [] 0x8000 0x1111) } 16 0x2380) =
      (0x8001, 0x0000, 0x0000, 2) := by
  decide

/-- K3: `PUSHR a`. -/
theorem test_pushr_k3 :
    (fun t : State => (t.regs.sp, t.regs.ip, readWord t.mem 0xFFFF, t.cycles))
      (stepWord { start with regs := { start.regs with sp := 0xFFFF, a := 0x0009 } } 16 0x2000) =
      (0x0000, 0x0001, 0x0009, 2) := by
  decide

/-- K4: `PUSHV -1`. -/
theorem test_pushv_k4 :
    (fun t : State => (t.regs.sp, t.regs.ip, readWord t.mem 0x8000, t.cycles))
      (stepWord { start with regs := { start.regs with sp := 0x8000 } } 16 0x2460) =
      (0x8001, 0x0001, 0xFFFF, 2) := by
  decide

/-- K8: `POP a`. -/
theorem test_pop_k8 :
    (fun t : State => (t.regs.a, t.regs.sp, t.regs.ip, t.cycles))
      (stepWord { start with regs := { start.regs with sp := 0x0000 }, mem := (writeWord [] 0xFFFF 0x0005) } 16 0x2800) =
      (0x0005, 0xFFFF, 0x0001, 2) := by
  decide

/-- K6: `POP sp`. -/
theorem test_pop_k6 :
    (fun t : State => (t.regs.sp, t.regs.ip, t.cycles))
      (stepWord { start with regs := { start.regs with sp := 0x8001 }, mem := (writeWord [] 0x8000 0x1234) } 16 0x2B00) =
      (0x1234, 0x0001, 2) := by
  decide

/-- K10: `CALL b, 1`. -/
theorem test_call_k10 :
    (fun t : State => (t.regs.b, t.regs.sp, t.regs.ip, readWord t.mem 0x8000, t.cycles))
      (stepWord { start with regs := { start.regs with sp := 0x8000, b := 0x0042 } } 16 0x2CD0) =
      (0x0001, 0x8001, 0x0001, 0x0042, 2) := by
  decide

/-- K9: `CALL ip, a`. -/
theorem test_call_k9 :
    (fun t : State => (t.regs.sp, t.regs.ip, readWord t.mem 0x8000, t.cycles))
      (stepWord { start with regs := { start.regs with ip := 0x0030, sp := 0x8000, a := 0x0200 } } 16 0x2F80) =
      (0x8001, 0x0200, 0x0031, 2) := by
  decide

/-- K12: `RET imm 0x1234 (ignored)`. -/
theorem test_ret_k12 :
    (fun t : State => (t.regs.sp, t.regs.ip, t.cycles))
      (stepWord { start with regs := { start.regs with sp := 0x8001 }, mem := (writeWord [] 0x8000 0x0010) } 32 0x12343070) =
      (0x8000, 0x0010, 3) := by
  decide

/-- K13: `RET`. -/
theorem test_ret_k13 :
    (fun t : State => (t.regs.sp, t.regs.ip, t.cycles))
      (stepWord { start with regs := { start.regs with sp := 0x0000 } } 16 0x3000) =
      (0xFFFF, 0x0000, 2) := by
  decide

/-- F3: `LDFP a, imm 0x0002`. -/
theorem test_ldfp_f3 :
    (fun t : State => (t.regs.a, t.regs.ip, t.cycles))
      (stepWord { start with regs := { start.regs with ip := 0x0100, fp := 0xFFFF }, mem := (writeWord [] 0x0001 0x0099) } 32 0x00023470) =
      (0x0099, 0x0102, 3) := by
  decide

/-- F2: `LDFP fp, 0`. -/
theorem test_ldfp_f2 :
    (fun t : State => (t.regs.fp, t.regs.ip, t.cycles))
      (stepWord { start with regs := { start.regs with fp := 0x9000 }, mem := (writeWord [] 0x9000 0xA000) } 16 0x36C0) =
      (0xA000, 0x0001, 2) := by
  decide

/-- F5: `STFP a, imm 0xFFFE`. -/
theorem test_stfp_f5 :
    (fun t : State => (t.regs.ip, readWord t.mem 0x8FFE, t.cycles))
      (stepWord { start with regs := { start.regs with fp := 0x9000, a := 0x0E0E } } 32 0xFFFE3870) =
      (0x0002, 0x0E0E, 3) := by
  decide

/-- F4: `STFP fp, 1`. -/
theorem test_stfp_f4 :
    (fun t : State => (t.regs.ip, readWord t.mem 0x9001, t.cycles))
      (stepWord { start with regs := { start.regs with fp := 0x9000 } } 16 0x3AD0) =
      (0x0001, 0x9000, 2) := by
  decide

/-- F6: `LDSP b, imm 0xFFFE`. -/
theorem test_ldsp_f6 :
    (fun t : State => (t.regs.b, t.regs.ip, t.cycles))
      (stepWord { start with regs := { start.regs with sp := 0x8002 }, mem := (writeWord [] 0x8000 0x0321) } 32 0xFFFE3CF0) =
      (0x0321, 0x0002, 3) := by
  decide

/-- F7: `LDSP sp, -1`. -/
theorem test_ldsp_f7 :
    (fun t : State => (t.regs.sp, t.regs.ip, t.cycles))
      (stepWord { start with regs := { start.regs with sp := 0x8001 }, mem := (writeWord [] 0x8000 0x7000) } 16 0x3F60) =
      (0x7000, 0x0001, 2) := by
  decide

/-- F8: `STSP ip, 0`. -/
theorem test_stsp_f8 :
    (fun t : State => (t.regs.ip, readWord t.mem 0x8000, t.cycles))
      (stepWord { start with regs := { start.regs with ip := 0x0005, sp := 0x8000 } } 16 0x43C0) =
      (0x0006, 0x0006, 2) := by
  decide

/-- F10: `SWAPFP c, a`. -/
theorem test_swapfp_f10 :
    (fun t : State => (t.regs.c, t.regs.ip, readWord t.mem 0x9004, t.cycles))
      (stepWord { start with regs := { start.regs with fp := 0x9000, a := 0x0004, c := 0x00CC }, mem := (writeWord [] 0x9004 0x00DD) } 16 0x4500) =
      (0x00DD, 0x0001, 0x00CC, 3) := by
  decide

/-- F9: `SWAPFP fp, 0`. -/
theorem test_swapfp_f9 :
    (fun t : State => (t.regs.fp, t.regs.ip, readWord t.mem 0x9000, t.cycles))
      (stepWord { start with regs := { start.regs with fp := 0x9000 }, mem := (writeWord [] 0x9000 0x1234) } 16 0x46C0) =
      (0x1234, 0x0001, 0x9000, 3) := by
  decide

/-- F11: `SWAPSP sp, -1`. -/
theorem test_swapsp_f11 :
    (fun t : State => (t.regs.sp, t.regs.ip, readWord t.mem 0x8000, t.cycles))
      (stepWord { start with regs := { start.regs with sp := 0x8001 }, mem := (writeWord [] 0x8000 0x6000) } 16 0x4B60) =
      (0x6000, 0x0001, 0x8001, 3) := by
  decide

/-- F14: `XCHG e, fp`. -/
theorem test_xchg_f14 :
    (fun t : State => (t.regs.e, t.regs.fp, t.regs.ip, t.cycles))
      (stepWord { start with regs := { start.regs with e := 0x000E, fp := 0x00F0 } } 16 0x4E50) =
      (0x00F0, 0x000E, 0x0001, 1) := by
  decide

/-- F17: `XCHG sp, d`. -/
theorem test_xchg_f17 :
    (fun t : State => (t.regs.d, t.regs.sp, t.regs.ip, t.cycles))
      (stepWord { start with regs := { start.regs with sp := 0x8000, d := 0x4000 } } 16 0x4F30) =
      (0x8000, 0x4000, 0x0001, 1) := by
  decide

/-- B1: `AND a, 0`. -/
theorem test_and_b1 :
    (fun t : State => (t.regs.a, t.regs.ip, t.flags.zf, t.cycles))
      (stepWord { start with regs := { start.regs with a := 0x1234 } } 16 0x5040) =
      (0x0000, 0x0001, true, 1) := by
  decide

/-- B2: `AND a, -1`. -/
theorem test_and_b2 :
    (fun t : State => (t.regs.ip, t.flags.sf, t.cycles))
      (stepWord { start with regs := { start.regs with a := 0x8000 } } 16 0x5060) =
      (0x0001, true, 1) := by
  decide

/-- B5: `NAND b, c`. -/
theorem test_nand_b5 :
    (fun t : State => (t.regs.b, t.regs.ip, t.flags.sf, t.cycles))
      (stepWord { start with regs := { start.regs with b := 0xFF00, c := 0x0FF0 } } 16 0x54A0) =
      (0xF0FF, 0x0001, true, 1) := by
  decide

/-- B4: `NAND a, 0`. -/
theorem test_nand_b4 :
    (fun t : State => (t.regs.a, t.regs.ip, t.flags.sf, t.cycles))
      (stepWord { start with regs := { start.regs with a := 0x1234 } } 16 0x5440) =
      (0xFFFF, 0x0001, true, 1) := by
  decide

/-- B7: `OR e, b`. -/
theorem test_or_b7 :
    (fun t : State => (t.regs.e, t.regs.ip, t.cycles))
      (stepWord { start with regs := { start.regs with e := 0x00F0, b := 0x0F00 }, flags := { start.flags with cf := true, of := true } } 16 0x5A10) =
      (0x0FF0, 0x0001, 1) := by
  decide

/-- B6: `OR a, 0`. -/
theorem test_or_b6 :
    (fun t : State => (t.regs.ip, t.flags.zf, t.cycles))
      (stepWord start 16 0x5840) =
      (0x0001, true, 1) := by
  decide

/-- B9: `NOR a, b`. -/
theorem test_nor_b9 :
    (fun t : State => (t.regs.a, t.regs.ip, t.flags.sf, t.cycles))
      (stepWord { start with regs := { start.regs with a := 0x00F0, b := 0x0F00 } } 16 0x5C10) =
      (0xF00F, 0x0001, true, 1) := by
  decide

/-- B8: `NOR a, -1`. -/
theorem test_nor_b8 :
    (fun t : State => (t.regs.a, t.regs.ip, t.flags.zf, t.cycles))
      (stepWord { start with regs := { start.regs with a := 0x1234 } } 16 0x5C60) =
      (0x0000, 0x0001, true, 1) := by
  decide

/-- B11: `XOR a, b`. -/
theorem test_xor_b11 :
    (fun t : State => (t.regs.a, t.regs.ip, t.flags.sf, t.cycles))
      (stepWord { start with regs := { start.regs with a := 0x8000, b := 0x0001 } } 16 0x6010) =
      (0x8001, 0x0001, true, 1) := by
  decide

/-- B10: `XOR a, -1`. -/
theorem test_xor_b10 :
    (fun t : State => (t.regs.a, t.regs.ip, t.flags.sf, t.cycles))
      (stepWord { start with regs := { start.regs with a := 0x0F0F } } 16 0x6060) =
      (0xF0F0, 0x0001, true, 1) := by
  decide

/-- B12: `XNOR a, a`. -/
theorem test_xnor_b12 :
    (fun t : State => (t.regs.a, t.regs.ip, t.flags.sf, t.cycles))
      (stepWord { start with regs := { start.regs with a := 0x1234 } } 16 0x6400) =
      (0xFFFF, 0x0001, true, 1) := by
  decide

/-- B13: `XNOR a, -1`. -/
theorem test_xnor_b13 :
    (fun t : State => (t.regs.ip, t.cycles))
      (stepWord { start with regs := { start.regs with a := 0x1234 } } 16 0x6460) =
      (0x0001, 1) := by
  decide

/-- B14: `NOT a, a`. -/
theorem test_not_b14 :
    (fun t : State => (t.regs.a, t.regs.ip, t.flags.sf, t.cycles))
      (stepWord { start with regs := { start.regs with a := 0x00FF } } 16 0x6800) =
      (0xFF00, 0x0001, true, 1) := by
  decide

/-- B15: `NOT a, -1`. -/
theorem test_not_b15 :
    (fun t : State => (t.regs.a, t.regs.ip, t.flags.zf, t.cycles))
      (stepWord { start with regs := { start.regs with a := 0x1234 } } 16 0x6860) =
      (0x0000, 0x0001, true, 1) := by
  decide

/-- B17: `TEST a, a`. -/
theorem test_test_b17 :
    (fun t : State => (t.regs.ip, t.flags.sf, t.cycles))
      (stepWord { start with regs := { start.regs with a := 0x8000 } } 16 0x6C00) =
      (0x0001, true, 1) := by
  decide

/-- B18: `TEST a, imm 0x0100`. -/
theorem test_test_b18 :
    (fun t : State => (t.regs.ip, t.flags.zf, t.cycles))
      (stepWord { start with regs := { start.regs with a := 0x00FF } } 32 0x01006C70) =
      (0x0002, true, 2) := by
  decide

/-- B21: `CMPEQ a, b`. -/
theorem test_cmpeq_b21 :
    (fun t : State => (t.regs.a, t.regs.ip, t.cycles))
      (stepWord { start with regs := { start.regs with a := 0x0001, b := 0x0002 }, tpat := 0x00AA, fpat := 0xFFFF } 16 0x7010) =
      (0xFFFF, 0x0001, 1) := by
  decide

/-- B20: `CMPEQ a, b`. -/
theorem test_cmpeq_b20 :
    (fun t : State => (t.regs.a, t.regs.ip, t.cycles))
      (stepWord { start with regs := { start.regs with a := 0x0001, b := 0x0002 } } 16 0x7010) =
      (0x0000, 0x0001, 1) := by
  decide

/-- B22: `CMPNE a, b`. -/
theorem test_cmpne_b22 :
    (fun t : State => (t.regs.a, t.regs.ip, t.cycles))
      (stepWord { start with regs := { start.regs with a := 0x0001, b := 0x0002 }, tpat := 0x00AA } 16 0x7410) =
      (0x00AA, 0x0001, 1) := by
  decide

/-- B23: `CMPNE a, a`. -/
theorem test_cmpne_b23 :
    (fun t : State => (t.regs.a, t.regs.ip, t.cycles))
      (stepWord { start with regs := { start.regs with a := 0x0009 }, flags := { start.flags with zf := true }, fpat := 0x0055 } 16 0x7400) =
      (0x0055, 0x0001, 1) := by
  decide

/-- H4: `ROTL a, imm 0x0008`. -/
theorem test_rotl_h4 :
    (fun t : State => (t.regs.ip, t.flags.zf, t.flags.sf, t.cycles))
      (stepWord { start with regs := { start.regs with a := 0x0000 }, flags := { start.flags with sf := true } } 32 0x00087870) =
      (0x0002, true, false, 2) := by
  decide

/-- H2: `ROTL a, -1`. -/
theorem test_rotl_h2 :
    (fun t : State => (t.regs.a, t.regs.ip, t.flags.sf, t.cycles))
      (stepWord { start with regs := { start.regs with a := 0x8001 } } 16 0x7860) =
      (0xC000, 0x0001, true, 1) := by
  decide

/-- H5: `ROTR a, 1`. -/
theorem test_rotr_h5 :
    (fun t : State => (t.regs.a, t.regs.ip, t.flags.sf, t.cycles))
      (stepWord { start with regs := { start.regs with a := 0x0001 } } 16 0x7C50) =
      (0x8000, 0x0001, true, 1) := by
  decide

/-- H6: `ROTR a, imm 0x000C`. -/
theorem test_rotr_h6 :
    (fun t : State => (t.regs.a, t.regs.ip, t.cycles))
      (stepWord { start with regs := { start.regs with a := 0x1234 } } 32 0x000C7C70) =
      (0x2341, 0x0002, 2) := by
  decide

/-- H8: `SHL a, -1`. -/
theorem test_shl_h8 :
    (fun t : State => (t.regs.a, t.regs.ip, t.flags.sf, t.flags.cf, t.cycles))
      (stepWord { start with regs := { start.regs with a := 0x0003 } } 16 0x8060) =
      (0x8000, 0x0001, true, true, 1) := by
  decide

/-- H10: `SHL a, imm 0x0004`. -/
theorem test_shl_h10 :
    (fun t : State => (t.regs.a, t.regs.ip, t.flags.sf, t.cycles))
      (stepWord { start with regs := { start.regs with a := 0x0F00 } } 32 0x00048070) =
      (0xF000, 0x0002, true, 2) := by
  decide

/-- H11: `SHLC a, imm 0x0002`. -/
theorem test_shlc_h11 :
    (fun t : State => (t.regs.a, t.regs.ip, t.flags.cf, t.cycles))
      (stepWord { start with regs := { start.regs with a := 0x8000 }, flags := { start.flags with cf := true } } 32 0x00028470) =
      (0x0003, 0x0002, false, 2) := by
  decide

/-- H13: `SHLC a, -1`. -/
theorem test_shlc_h13 :
    (fun t : State => (t.regs.a, t.regs.ip, t.flags.sf, t.cycles))
      (stepWord { start with regs := { start.regs with a := 0x0001 }, flags := { start.flags with cf := false } } 16 0x8460) =
      (0x8000, 0x0001, true, 1) := by
  decide

/-- H14: `SHR a, -1`. -/
theorem test_shr_h14 :
    (fun t : State => (t.regs.a, t.regs.ip, t.flags.cf, t.cycles))
      (stepWord { start with regs := { start.regs with a := 0xC000 } } 16 0x8860) =
      (0x0001, 0x0001, true, 1) := by
  decide

/-- H16: `SHR a, 0`. -/
theorem test_shr_h16 :
    (fun t : State => (t.regs.ip, t.flags.zf, t.cycles))
      (stepWord { start with regs := { start.regs with a := 0x0000 }, flags := { start.flags with cf := true } } 16 0x8840) =
      (0x0001, true, 1) := by
  decide

/-- H17: `SHRC a, imm 0x0002`. -/
theorem test_shrc_h17 :
    (fun t : State => (t.regs.a, t.regs.ip, t.flags.sf, t.flags.cf, t.cycles))
      (stepWord { start with regs := { start.regs with a := 0x0001 }, flags := { start.flags with cf := true } } 32 0x00028C70) =
      (0xC000, 0x0002, true, false, 2) := by
  decide

/-- H18: `SHRC a, -1`. -/
theorem test_shrc_h18 :
    (fun t : State => (t.regs.a, t.regs.ip, t.cycles))
      (stepWord { start with regs := { start.regs with a := 0x8000 }, flags := { start.flags with cf := false } } 16 0x8C60) =
      (0x0001, 0x0001, 1) := by
  decide

/-- H19: `SHRA a, 1`. -/
theorem test_shra_h19 :
    (fun t : State => (t.regs.a, t.regs.ip, t.flags.sf, t.flags.cf, t.cycles))
      (stepWord { start with regs := { start.regs with a := 0xFFFD } } 16 0x9050) =
      (0xFFFE, 0x0001, true, true, 1) := by
  decide

/-- H21: `SHRA a, -1`. -/
theorem test_shra_h21 :
    (fun t : State => (t.regs.a, t.regs.ip, t.flags.zf, t.flags.cf, t.cycles))
      (stepWord { start with regs := { start.regs with a := 0x7FFF } } 16 0x9060) =
      (0x0000, 0x0001, true, true, 1) := by
  decide

/-- A3: `ADD a, a`. -/
theorem test_add_a3 :
    (fun t : State => (t.regs.a, t.regs.ip, t.flags.zf, t.flags.cf, t.flags.of, t.cycles))
      (stepWord { start with regs := { start.regs with a := 0x8000 } } 16 0x9400) =
      (0x0000, 0x0001, true, true, true, 1) := by
  decide

/-- A6: `ADD a, b`. -/
theorem test_add_a6 :
    (fun t : State => (t.regs.a, t.regs.ip, t.flags.sf, t.flags.of, t.cycles))
      (stepWord { start with regs := { start.regs with a := 0x4000, b := 0x4000 } } 16 0x9410) =
      (0x8000, 0x0001, true, true, 1) := by
  decide

/-- A9: `ADDC a, 0`. -/
theorem test_addc_a9 :
    (fun t : State => (t.regs.a, t.regs.ip, t.flags.sf, t.flags.cf, t.flags.of, t.cycles))
      (stepWord { start with regs := { start.regs with a := 0x7FFF }, flags := { start.flags with cf := true } } 16 0x9840) =
      (0x8000, 0x0001, true, false, true, 1) := by
  decide

/-- A10: `ADDC b, d`. -/
theorem test_addc_a10 :
    (fun t : State => (t.regs.b, t.regs.ip, t.cycles))
      (stepWord { start with regs := { start.regs with b := 0x0001, d := 0x0002 }, flags := { start.flags with cf := false } } 16 0x98B0) =
      (0x0003, 0x0001, 1) := by
  decide

/-- A14: `SUB a, imm 0x8000`. -/
theorem test_sub_a14 :
    (fun t : State => (t.regs.a, t.regs.ip, t.flags.sf, t.flags.cf, t.flags.of, t.cycles))
      (stepWord { start with regs := { start.regs with a := 0x0000 } } 32 0x80009C70) =
      (0x8000, 0x0002, true, true, true, 2) := by
  decide

/-- A12: `SUB a, a`. -/
theorem test_sub_a12 :
    (fun t : State => (t.regs.a, t.regs.ip, t.flags.zf, t.flags.cf, t.cycles))
      (stepWord { start with regs := { start.regs with a := 0x1234 }, flags := { start.flags with cf := true } } 16 0x9C00) =
      (0x0000, 0x0001, true, false, 1) := by
  decide

/-- A18: `SUBB a, 0`. -/
theorem test_subb_a18 :
    (fun t : State => (t.regs.a, t.regs.ip, t.flags.cf, t.flags.of, t.cycles))
      (stepWord { start with regs := { start.regs with a := 0x8000 }, flags := { start.flags with cf := true } } 16 0xA040) =
      (0x7FFF, 0x0001, false, true, 1) := by
  decide

/-- A19: `SUBB a, b`. -/
theorem test_subb_a19 :
    (fun t : State => (t.regs.a, t.regs.ip, t.cycles))
      (stepWord { start with regs := { start.regs with a := 0x0005, b := 0x0003 }, flags := { start.flags with cf := false } } 16 0xA010) =
      (0x0002, 0x0001, 1) := by
  decide

/-- A20: `COMP a, b`. -/
theorem test_comp_a20 :
    (fun t : State => (t.regs.ip, t.flags.sf, t.flags.cf, t.cycles))
      (stepWord { start with regs := { start.regs with a := 0x0003, b := 0x0005 } } 16 0xA410) =
      (0x0001, true, true, 1) := by
  decide

/-- A22: `COMP a, b`. -/
theorem test_comp_a22 :
    (fun t : State => (t.regs.ip, t.flags.sf, t.cycles))
      (stepWord { start with regs := { start.regs with a := 0xFFFF, b := 0x0001 } } 16 0xA410) =
      (0x0001, true, 1) := by
  decide

/-- A24: `SBBR a, 0`. -/
theorem test_sbbr_a24 :
    (fun t : State => (t.regs.a, t.regs.ip, t.flags.sf, t.flags.cf, t.cycles))
      (stepWord { start with regs := { start.regs with a := 0x0001 }, flags := { start.flags with cf := false } } 16 0xA840) =
      (0xFFFF, 0x0001, true, true, 1) := by
  decide

/-- A25: `SBBR a, 0`. -/
theorem test_sbbr_a25 :
    (fun t : State => (t.regs.a, t.regs.ip, t.flags.sf, t.cycles))
      (stepWord { start with regs := { start.regs with a := 0x0000 }, flags := { start.flags with cf := true } } 16 0xA840) =
      (0xFFFF, 0x0001, true, 1) := by
  decide

/-- A26: `SUBR a, 0`. -/
theorem test_subr_a26 :
    (fun t : State => (t.regs.ip, t.flags.sf, t.flags.cf, t.flags.of, t.cycles))
      (stepWord { start with regs := { start.regs with a := 0x8000 } } 16 0xAC40) =
      (0x0001, true, true, true, 1) := by
  decide

/-- A27: `SUBR a, imm 0x0010`. -/
theorem test_subr_a27 :
    (fun t : State => (t.regs.a, t.regs.ip, t.cycles))
      (stepWord { start with regs := { start.regs with a := 0x0003 } } 32 0x0010AC70) =
      (0x000D, 0x0002, 2) := by
  decide

/-- I4: `OUT:5 a`. -/
theorem test_out_i4 :
    (fun t : State => (t.regs.ip, t.out, t.outChanged, t.cycles))
      (stepWord { start with regs := { start.regs with a := 0x0041 }, flags := { start.flags with zf := true } } 16 0xB005) =
      (0x0001, 0x0041, true, 1) := by
  decide

/-- I2: `OUT 0`. -/
theorem test_out_i2 :
    (fun t : State => (t.regs.ip, t.outChanged, t.cycles))
      (stepWord { start with out := 0x0000 } 16 0xB040) =
      (0x0001, true, 1) := by
  decide

/-- I6: `IN a`. -/
theorem test_inp_i6 :
    (fun t : State => (t.regs.a, t.regs.ip, t.flags.sf, t.cycles))
      (stepWord { start with supplier := some [-1] } 16 0xB400) =
      (0xFFFF, 0x0001, true, 1) := by
  decide

/-- I8: `IN:6 a`. -/
theorem test_inp_i8 :
    (fun t : State => (t.regs.a, t.regs.ip, t.cycles))
      (stepWord { start with supplier := some [7] } 16 0xB406) =
      (0x0007, 0x0001, 1) := by
  decide

/-- I10: `QERY b, imm 0x0003`. -/
theorem test_qery_i10 :
    (fun t : State => (t.regs.b, t.regs.ip, t.cycles))
      (stepWord start 32 0x0003B8F0) =
      (Config.queryTable 0x0003, 0x0002, 2) := by
  rfl

/-- I11: `SETTPAT 0`. -/
theorem test_settpat_i11 :
    (fun t : State => (t.regs.ip, t.tpat, t.cycles))
      (stepWord start 16 0xBC40) =
      (0x0001, 0x0000, 1) := by
  decide

/-- I12: `SETFPAT a`. -/
theorem test_setfpat_i12 :
    (fun t : State => (t.regs.ip, t.fpat, t.cycles))
      (stepWord { start with regs := { start.regs with a := 0xBEEF } } 16 0xC000) =
      (0x0001, 0xBEEF, 1) := by
  decide

/-- S2: an invalid word with arg2 = 7 raises the error and moves nothing. -/
theorem test_invalid_s2 :
    (fun t : State => (t.error, t.regs.ip, t.cycles, t.instret)) (stepWord start 32 0x12340075) =
      (true, 0x0000, 0, 0) := by
  decide

/-- S3: the invalid opcode 63; register a is kept. -/
theorem test_invalid_s3 :
    (fun t : State => (t.error, t.regs.ip, t.regs.a, t.cycles, t.instret))
      (stepWord { start with regs := { start.regs with a := 5 } } 16 0xFC00) = (true, 0x0000, 5, 0, 0) := by
  decide

/-- S5: a step in the error state changes nothing, also not out_changed. -/
theorem test_error_s5 :
    (fun t : State => (t.error, t.outChanged, t.regs.a, t.regs.ip, t.instret))
      (stepMem { start with error := true, outChanged := true } 0x0450) = (true, true, 0, 0, 0) := by
  decide

/-- S6: a skipped two-word instruction moves ip by 2 and retires. -/
theorem test_skip_s6 :
    (fun t : State => (t.regs.a, t.regs.ip, t.cycles, t.instret)) (stepWord start 32 0x12340475) =
      (0x0000, 0x0002, 2, 1) := by
  decide

/-- S12: a skipped OUT leaves the latch and its flag. -/
theorem test_skip_s12 :
    (fun t : State => (t.out, t.outChanged, t.regs.ip, t.instret))
      (stepWord { start with flags := { start.flags with zf := true } } 16 0xB056) = (0, false, 1, 1) := by
  decide

/-- S9: the immediate is fetched at address 0 after the wrap of ip. -/
theorem test_wrap_s9 :
    (fun t : State => (t.regs.a, t.regs.ip, t.cycles))
      (stepWord { start with regs := { start.regs with ip := 0xFFFF } } 32 0xBEEF0470) = (0xBEEF, 1, 2) := by
  decide

/-- The 16 condition bits of a state, code 0 first (V-COND). -/
def condBits (s : State) : List Bool :=
  [0, 1, 2, 3, 4, 5, 6, 7, 8, 9, 10, 11, 12, 13, 14, 15].map fun k => condHolds (condOfCode k) s

/-- V-COND, the rows of no flag, of zf and sf, and of all four flags with c = 1. -/
theorem test_conditions :
    condBits start =
        [true, true, true, false, false, false, true, true, true, false, false, false, true, false, true, false] ∧
      condBits { start with flags := ⟨true, true, false, false⟩ } =
        [true, false, true, false, true, true, false, false, false, true, true, false, true, true, false, false] ∧
      condBits { start with flags := ⟨true, true, true, true⟩, regs := { start.regs with c := 1 } } =
        [true, false, false, true, true, true, false, false, true, false, true, true, false, true, false, true] := by
  decide

/-- R-1: resetState clears CPU state, restores tpat and keeps memory. -/
theorem test_reset_r1 :
    (fun t : State => (t.error, t.regs.a, t.tpat, t.instret, t.cycles, readWord t.mem 0x0010))
      (interact .resetState
        { start with
          regs := { start.regs with a := 0x1234 }
          error := true
          tpat := 0x00FF
          instret := 50
          cycles := 90
          mem := writeWord [] 0x0010 0xABCD }) =
      (false, 0, 1, 0, 0, 0xABCD) := by
  decide

/-- R-3: resetMemory clears memory and keeps CPU state. -/
theorem test_reset_r3 :
    (fun t : State => (t.regs.a, readWord t.mem 0x0010))
      (interact .resetMemory
        { start with regs := { start.regs with a := 0x1234 }, mem := writeWord [] 0x0010 0xABCD }) =
      (0x1234, 0) := by
  decide

/-- Word i of an image is byte[2i] + 256 * byte[2i+1], a missing last byte being 0 (R168). -/
theorem test_load_image :
    (fun t : State => (readWord t.mem 0, readWord t.mem 1, readWord t.mem 2))
      (interact (.loadImage [0x70, 0x04, 0x05]) start) = (0x0470, 0x0005, 0) := by
  decide

/-- L1-2: the plain literals 0, 1, -1 take no immediate word, a forced one always does. -/
theorem test_assemble_operands :
    [assembleOperand (.literal (-1)), assembleOperand (.literal (-2)), assembleOperand (.forced 0),
      assembleOperand (.register .e), assembleOperand (.literal 65536)] =
      [some .minusOne, some (.imm 0xFFFE), some (.imm 0), none, none] := by
  decide

/-- L1-7: the words of `(start) set a, imm:5; add a, 3; out a; ret;` are those of program P1. -/
theorem test_assemble_scenario_1 :
    assemble fixtureMap
        [.label ['s'], .instruction .set .a (.value (.literal 5) true) none,
          .instruction .add .a (.value (.literal 3) false) none,
          .instruction .out .a (.register .a) none, .instruction .ret .a (.register .a) none] =
      some [0x0470, 0x0005, 0x9470, 0x0003, 0xB000, 0x3000] := by
  decide

/-- L1-8: `_var v(4), (1,2,3,4); _def S v.len;` gives four data words after the code, and S is 4. -/
theorem test_assemble_scenario_2 :
    assemble fixtureMap
        [.variable ['v'] (some 4) [1, 2, 3, 4], .constant ['S'] (.named (lenName ['v']) 0),
          .rawWord (.named ['S'] 0), .rawWord (.named ['v'] 1)] =
      some [0x0004, 0x0003, 1, 2, 3, 4] := by
  decide

/-- L1-3 and L1-9: a label used before it is defined resolves to its address, in an immediate word although the value
is 2; one never defined gives no image. -/
theorem test_assemble_labels :
    assemble fixtureMap [.instruction .jump .a (.value (.named ['x'] 0) false) none, .label ['x']] =
        some [0x1470, 0x0002] ∧
      assemble fixtureMap [.instruction .jump .a (.value (.named ['x'] 0) false) none] = none := by
  decide

/-- R64: a literal out of range is an error in a constant, an offset and a length too. -/
theorem test_assemble_literal_range :
    [assemble fixtureMap [.constant ['X'] (.literal 70000), .rawWord (.named ['X'] (-10000))],
        assemble fixtureMap [.constant ['X'] (.literal 5), .rawWord (.named ['X'] (-65536))],
        assemble fixtureMap [.rawWord (.named ['X'] 65536), .label ['X']],
        assemble fixtureMap [.variable ['v'] (some 65536) []],
        assemble fixtureMap [.constant ['X'] (.literal 65535), .rawWord (.named ['X'] (-65535))]] =
      [none, none, none, none, some [0]] := by
  decide

/-- R52: a name and an offset whose sum is out of range fill a word with the low 16 bits, patched or known. -/
theorem test_assemble_low_bits :
    assemble fixtureMap [.rawWord (.named ['x'] 65535), .rawWord (.literal 0), .label ['x']] = some [0x0001, 0] ∧
      assemble fixtureMap
          [.constant ['X'] (.literal (-32768)), .instruction .set .a (.value (.named ['X'] (-1)) false) none,
            .rawWord (.named ['X'] (-2))] =
        some [0x0470, 0x7FFF, 0x7FFE] := by
  decide

/-- A value under XCHG, a character code above a byte, and a leading plus: the model's choices (log entry 10). -/
theorem test_assemble_choices :
    assemble fixtureMap [.instruction .xchg .a (.value (.literal 0) false) none] = some [0x4C40] ∧
      assemble fixtureMap [.instruction .xchg .a (.register .e) none] = some [0x4C40] ∧
      charLiteralWord [Char.ofNat 256] = none ∧ integerLiteral ['+', '5'] = none := by
  decide

/-- A use of `__codeStart` is a forward reference, code 7 with the word 0, and none stands in a `_def`: the model's
choice (log entry 10). -/
theorem test_assemble_bounds_are_forward :
    assemble fixtureMap [.instruction .set .a (.value (.named "__codeStart".toList 0) false) none] =
        some [0x0470, 0x0000] ∧
      assemble fixtureMap [.constant ['x'] (.named "__codeStart".toList 0)] = none := by
  decide

/-- R64: radix suffixes, the range, and character literals packed low byte first. -/
theorem test_literals :
    [integerLiteral ['0', 'A', 'h'], integerLiteral ['1', '7', 'o'], integerLiteral ['1', '0', '1', 'b'],
        integerLiteral ['-', '3', '2', '7', '6', '8'], integerLiteral ['6', '5', '5', '3', '6'],
        integerLiteral ['8', 'o']] =
        [some 10, some 15, some 5, some (-32768), none, none] ∧
      [charLiteralWord ['A', 'B'], charLiteralWord ['\\', 'n'], charLiteralWord []] =
        [some 0x4241, some 0x000A, none] := by
  decide

/-! Witnesses: for every statement that has hypotheses, concrete values that meet them together. -/

/-- A state after a comparison that found 5 below 7, with the fixture map, some memory and a supplier. -/
def compared : State :=
  { start with
    regs := { start.regs with a := 5, c := 1, fp := 0x0200, sp := 0x8000, ip := 0x0010 }
    flags := ⟨false, true, true, false⟩
    mem := writeWord (writeWord [] 0x0010 0x0C50) 0x0203 0xBEEF
    supplier := some [-1] }

theorem witness_SetWritesOperandToRegister :
    condHolds .ult compared = true ∧ condHolds .always start = true := by
  decide

theorem witness_LoadsReadTheirAddress :
    condHolds .ule compared = true ∧ condHolds .always start = true := by
  decide

theorem witness_RdflagsReadsFlagWord :
    condHolds .ne compared = true ∧ condHolds .always start = true := by
  decide

theorem witness_WrflagsWritesFlags :
    condHolds .slt compared = true ∧ condHolds .always start = true := by
  decide

theorem witness_PopReadsBelowStackPointer :
    condHolds .sle compared = true ∧ condHolds .always start = true := by
  decide

theorem witness_RetPopsIntoIp :
    condHolds .noOvf compared = true ∧ condHolds .always start = true := by
  decide

theorem witness_BitwiseOperationsCompute :
    condHolds .neg compared = true ∧ condHolds .always start = true := by
  decide

theorem witness_NotComplementsOperand :
    condHolds .cNonzero compared = true ∧ condHolds .always start = true := by
  decide

theorem witness_TestSetsFlagsOnly :
    condHolds .ult compared = true ∧ condHolds .always start = true := by
  decide

theorem witness_CompSetsSubtractFlagsOnly :
    condHolds .ule compared = true ∧ condHolds .always start = true := by
  decide

theorem witness_OutWritesLatch :
    condHolds .ne compared = true ∧ condHolds .always start = true := by
  decide

theorem witness_QeryReadsTable :
    condHolds .slt compared = true ∧ condHolds .always start = true := by
  decide

theorem witness_PatternOperationsSetPatterns :
    condHolds .sle compared = true ∧ condHolds .always start = true := by
  decide

theorem witness_AddsGiveSumAndFlags :
    condHolds .noOvf compared = true ∧ condHolds .always start = true := by
  decide

theorem witness_SubtractsGiveDifferenceAndFlags :
    condHolds .neg compared = true ∧ condHolds .always start = true := by
  decide

theorem witness_ShiftsMoveTheWord :
    condHolds .cNonzero compared = true ∧ condHolds .always start = true := by
  decide

theorem witness_ShiftsThroughCarryRotateSeventeenBits :
    condHolds .ult compared = true ∧ condHolds .always start = true := by
  decide

theorem witness_StoresWriteTheirAddress :
    Memory.wf compared.mem = true ∧ condHolds .ult compared = true := by
  decide

theorem witness_StiWritesAtRegisterAddress :
    Memory.wf compared.mem = true ∧ condHolds .ule compared = true := by
  decide

theorem witness_CallPushesThenSetsRegister :
    Memory.wf compared.mem = true ∧ condHolds .ne compared = true := by
  decide

theorem witness_SwapsExchangeRegisterAndMemory :
    Memory.wf compared.mem = true ∧ condHolds .slt compared = true := by
  decide

theorem witness_PushesWriteAtStackPointer :
    Memory.wf compared.mem = true ∧ condHolds .slt compared = true ∧
      Operand.regA ∈ [Operand.regA, .regB, .regC, .regD] ∧ Operand.regD ∈ [Operand.regA, .regB, .regC, .regD] := by
  decide

/-- POP and CALL: the clause for a destination other than sp, and the destination sp itself. -/
theorem witness_PopAndCallDestinations : Reg.ip ≠ .sp ∧ Reg.a ≠ .sp ∧ condHolds .ult compared = true := by
  decide

/-- Each of the eight forms of arg2 meets exactly one clause of the premise. -/
theorem witness_XchgExchangesRegisters :
    condHolds .ult compared = true ∧
      [(Operand.regA, Reg.a), (.regB, .b), (.regC, .c), (.regD, .d), (.zero, .e), (.one, .fp), (.minusOne, .sp),
        (.imm 7, .ip)].all (fun p => operandReg p.1 == p.2) = true ∧
      ((Operand.minusOne, Reg.sp) ∈ [(Operand.regA, Reg.a), (.regB, .b), (.regC, .c), (.regD, .d), (.zero, .e),
        (.one, .fp), (.minusOne, .sp)]) := by
  decide

/-- The immediate form of XCHG. -/
theorem witness_XchgImmediate : Reg.ip = .ip ∧ ∃ w, Operand.imm 7 = .imm w := ⟨rfl, 7, rfl⟩

/-- Both clauses: a comparison that holds and one that does not. -/
theorem witness_CompareStoresWritePattern :
    condHolds .ult compared = true ∧ phaseReg (.imm 5) compared .a = operandValue (.imm 5) compared ∧
      phaseReg .one compared .a ≠ operandValue .one compared := by
  decide

/-- Counts 0 and 15, the ends of the range. -/
theorem witness_RotatesTurnTheWord :
    condHolds .ult compared = true ∧ (0 : Nat) < 16 ∧ (15 : Nat) < 16 := by
  decide

/-- No supplier, and a supplier whose next integer is -1. -/
theorem witness_InReadsSupplier :
    condHolds .ult compared = true ∧ nextInput start = none ∧ nextInput compared = some (-1) := by
  decide

/-- A condition that fails and one that holds; no supplier, one with a known integer, one past its known integers. -/
theorem witness_InTakesTheNextSuppliedInteger :
    condHolds .uge compared = false ∧ condHolds .ult compared = true ∧ start.supplier = none ∧
      compared.supplier = some (-1 :: []) ∧ ({ start with supplier := some [] } : State).supplier = some [] := by
  decide

/-- An unbound opcode at ip, and a bound one. -/
theorem witness_InvalidOpcodeEntersErrorState :
    start.error = false ∧ start.opcodeMap.lookup ((readWord start.mem start.regs.ip).extractLsb' 10 6) = none ∧
      compared.error = false ∧
      compared.opcodeMap.lookup ((readWord compared.mem compared.regs.ip).extractLsb' 10 6) ≠ none := by
  decide

/-- A one-word ST, a two-word SET and an invalid word decode at ip. -/
theorem witness_StepRunsDecodedInstruction :
    compared.error = false ∧
      (decode compared.opcodeMap [readWord compared.mem 0x0010, readWord compared.mem 0x0011]).toOption =
        some (.st .a .one .always, [0]) ∧
      (decode fixtureMap [0x04F0, 0x1234]).toOption = some (.set .b (.imm 0x1234) .always, []) ∧
      (decode start.opcodeMap [readWord start.mem 0, readWord start.mem 1]).toOption =
        some (.invalid 0 .a .regA .always, [0]) := by
  decide

theorem witness_ErrorStateIsPermanent : ({ start with error := true } : State).error = true := by
  decide

theorem witness_FalseConditionOnlyRetires :
    (Instr.set .a (.imm 3) .eq).op ≠ none ∧ condHolds (Instr.set .a (.imm 3) .eq).cond compared = false := by
  decide

/-- An operation, a state in the error state, and a state at an invalid word. -/
theorem witness_CyclesCountFetchesAndAccesses :
    (Instr.swapfp .a .one .always).op = some .swapfp ∧ ({ start with error := true } : State).error = true ∧
      (fetchInstr start).op = none := by
  decide

/-- An operation FM binds with and without an immediate, and an opcode it does not bind. -/
theorem witness_DecodeOfEncodeIsInstruction :
    WellFormed fixtureMap (.setfpat .ip (.imm 0xFFFF) .cNonzero) = true ∧
      WellFormed fixtureMap (.set .a .minusOne .always) = true ∧
      WellFormed fixtureMap (.invalid 0 .a .regA .always) = true ∧
      WellFormed fixtureMap (.invalid 63 .ip (.imm 0) .cNonzero) = true := by
  decide

/-- Both lengths of an encoded well-formed instruction. -/
theorem witness_PackingAndFieldsAreInverse :
    WellFormed fixtureMap (.xchg .a (.imm 0) .always) = true ∧ operandCode (.imm 0) = 7 ∧
      WellFormed fixtureMap (.xchg .a .minusOne .always) = true ∧ operandCode .minusOne ≠ 7 := by
  decide

/-- arg2 codes 6 and 7. -/
theorem witness_DecodeIsTotalWithLengthByArg2 :
    (0x4C60 : Word).extractLsb' 4 3 ≠ (7 : BitVec 3) ∧ (0x4C70 : Word).extractLsb' 4 3 = (7 : BitVec 3) := by
  decide

/-- A step that stores, from canonical memory. -/
theorem witness_StepKeepsMemoryCanonical :
    Memory.wf compared.mem = true ∧ ∃ t, step compared = .next t ∧ readWord t.mem 1 = 5 :=
  ⟨by decide, _, rfl, by decide⟩

/-- An empty file, one of 131072 bytes, and one of 131073. -/
theorem witness_ImageLoadFillsMemory :
    ([] : List Byte).length ≤ 131072 ∧ (List.replicate 131072 (0xFF : Byte)).length ≤ 131072 ∧
      131072 < (List.replicate 131073 (0xFF : Byte)).length := by
  simp only [List.length_replicate, List.length_nil]
  decide

/-- A list of 65,536 words, and an empty one. -/
theorem witness_ImageOfWordsLoadsBack :
    (List.replicate 65536 (0xABCD : Word)).length ≤ 65536 ∧ ([] : List Word).length ≤ 65536 := by
  simp only [List.length_replicate, List.length_nil]
  decide

theorem witness_ControllerKeepsMemoryCanonical : Memory.wf compared.mem = true := by
  decide

/-- An OUT that changes the latch, and a step that raises out_changed. -/
theorem witness_OutputChangesOnlyByOut :
    (∃ t, exec (.out .a .regA .always) compared = .next t ∧ t.out ≠ compared.out) ∧
      ∃ s t : State, s.error = false ∧ step s = .next t ∧ t.outChanged = true :=
  ⟨⟨_, rfl, by decide⟩, { start with mem := writeWord [] 0 0xB050 }, _, rfl, rfl, rfl⟩

/-- A changed tpat, a changed fpat, and an instruction that is neither CMPEQ nor CMPNE. -/
theorem witness_PatternsReadAndWrittenOnlyByTheirOperations :
    (∃ t, exec (.settpat .a .zero .always) compared = .next t ∧ t.tpat ≠ compared.tpat) ∧
      (∃ t, exec (.setfpat .a .one .always) compared = .next t ∧ t.fpat ≠ compared.fpat) ∧
      (Instr.add .a .one .always).op ≠ some .cmpeq ∧ (Instr.add .a .one .always).op ≠ some .cmpne :=
  ⟨⟨_, rfl, by decide⟩, ⟨_, rfl, by decide⟩, by decide, by decide⟩

/-- Every clause: zf by a test, sf by a bitwise operation, cf by a shift and by an addition, of by a subtraction. -/
theorem witness_FlagsWrittenOnlyByTheirOperations :
    (∃ t, exec (.test .b .one .always) start = .next t ∧ t.flags ≠ start.flags ∧ t.flags.zf ≠ start.flags.zf) ∧
      (∃ t, exec (.not .a .zero .always) start = .next t ∧ t.flags.sf ≠ start.flags.sf) ∧
      (∃ t, exec (.shr .a .one .always) { start with regs := { start.regs with a := 1 } } = .next t ∧
        t.flags.cf ≠ start.flags.cf) ∧
      (∃ t, exec (.sub .a .one .always) start = .next t ∧ t.flags.cf ≠ start.flags.cf) ∧
      ∃ t, exec (.sub .a .one .always) { start with regs := { start.regs with a := 0x8000 } } = .next t ∧
        t.flags.of ≠ start.flags.of :=
  ⟨⟨_, rfl, by decide, by decide⟩, ⟨_, rfl, by decide⟩, ⟨_, rfl, by decide⟩, ⟨_, rfl, by decide⟩, _, rfl, by decide⟩

/-- A step that raises the error, one that does not, and a state with error 1. -/
theorem witness_ErrorStateEntryAndExit :
    (∃ t, step start = .next t ∧ t.error = true) ∧ (∃ t, step compared = .next t ∧ t.error = false) ∧
      ({ start with error := true } : State).error = true :=
  ⟨⟨_, rfl, rfl⟩, ⟨_, rfl, rfl⟩, rfl⟩

/-- A step that calls the supplier, and one that executes IN with none attached. -/
theorem witness_SupplierCalledOncePerExecutedIn :
    (∃ s t : State, step s = .next t ∧ t.inputCalls = s.inputCalls + 1) ∧
      ∃ s t : State, step s = .next t ∧ stepKind s = .executed ∧ (fetchInstr s).op = some .inp ∧
        t.inputCalls = s.inputCalls :=
  ⟨⟨{ compared with mem := writeWord [] 0x0010 0xB400 }, _, rfl, rfl⟩,
    { start with mem := writeWord [] 0 0xB400 }, _, rfl, rfl, rfl, rfl⟩

/-- Counts 0 and 15, and the first and last pair of the list. -/
theorem witness_ShiftsAreRepeatedSingleSteps :
    (0 : Nat) < 16 ∧ (15 : Nat) < 16 ∧
      (Instr.shl, shlStep) ∈ [(Instr.shl, shlStep), (Instr.shr, shrStep), (Instr.shra, shraStep),
        (Instr.shlc, shlcStep), (Instr.shrc, shrcStep)] ∧
      (Instr.shrc, shrcStep) ∈ [(Instr.shl, shlStep), (Instr.shr, shrStep), (Instr.shra, shraStep),
        (Instr.shlc, shlcStep), (Instr.shrc, shrcStep)] := by
  simp

/-- The three clauses exclude each other: 1 and 0xFFFF, 0, 0x8000. -/
theorem witness_SubtractAgreesWithAddOfNegative :
    (1 : Word) ≠ 0 ∧ (1 : Word) ≠ 0x8000 ∧ (0xFFFF : Word) ≠ 0 ∧ (0xFFFF : Word) ≠ 0x8000 ∧ (0 : Word) = 0 ∧
      (0x8000 : Word) = 0x8000 ∧ (0 : Word) ≠ 0x8000 := by
  decide

theorem witness_CallThenReturnComesBack : Memory.wf compared.mem = true := by
  decide

/-- Two orders of the same writes. -/
theorem witness_CanonicalMemoriesThatReadAlikeAreEqual :
    Memory.wf (writeWord (writeWord [] 1 0x0500) 9 7) = true ∧
      Memory.wf (writeWord (writeWord [] 9 7) 1 0x0500) = true ∧
      ∀ a : Word, readWord (writeWord (writeWord [] 1 0x0500) 9 7) a =
        readWord (writeWord (writeWord [] 9 7) 1 0x0500) a :=
  ⟨by decide, by decide, fun _ => rfl⟩

/-- An ST to the next instruction's address, an ST over its own first word, and one over its own immediate. -/
theorem witness_StoreIsSeenByNextFetch :
    (Memory.wf compared.mem = true ∧
        operandValue (.imm 0x0012) compared = compared.regs.ip + BitVec.ofNat 16 (operandWords (.imm 0x0012))) ∧
      (∃ s : State, Memory.wf s.mem = true ∧ s.error = false ∧ fetchInstr s = .st .a .zero .always ∧
        operandValue .zero s = s.regs.ip) ∧
      ∃ s : State, Memory.wf s.mem = true ∧ s.error = false ∧ fetchInstr s = .st .a (.imm (s.regs.ip + 1)) .always :=
  ⟨⟨by decide, by decide⟩, ⟨{ start with mem := writeWord [] 0 0x0C40 }, by decide, rfl, by decide, rfl⟩,
    { start with mem := writeWord (writeWord [] 0 0x0C70) 1 1 }, by decide, rfl, by decide⟩

/-- The two ends of the range of literals, the values just outside it, the short literals, and all four forms. -/
theorem witness_AssemblerOperandsCarryTheirValue :
    ((-32768 : Int) ≤ -32768 ∧ (-32768 : Int) ≤ 65535 ∧ (-32768 : Int) ≠ 0) ∧
      ((-32768 : Int) ≤ 65535 ∧ (65535 : Int) ≤ 65535 ∧ (65535 : Int) ≠ -1) ∧
      ((-32769 : Int) < -32768 ∨ (65535 : Int) < -32769) ∧ ((65536 : Int) < -32768 ∨ (65535 : Int) < 65536) ∧
      assembleOperand (.literal (-32768)) = some (.imm 0x8000) ∧ assembleOperand (.forced 65535) = some (.imm 0xFFFF) ∧
      assembleOperand (.known 65537) = some (.imm 1) ∧ assembleOperand (.reference (-32769)) = some (.imm 0x7FFF) ∧
      assembleOperand (.literal 0) = some .zero := by
  decide

end Sys2Proof.Machine
end

section
/-! SUPPORT. The resets (10_state.md R30, 70_reset_and_hazards.md R166): settles O41. -/

namespace Sys2Proof.Machine

/-- Memory with no cell listed reads 0 at every address (R166, R170). -/
@[simp] theorem readWord_nil (a : Word) : readWord [] a = 0 := rfl

theorem atResetValues_resetState (s : State) : AtResetValues (resetState s) := by
  refine ⟨fun r => ?_, ⟨rfl, rfl, rfl, rfl⟩, by simp⟩
  cases r <;> rfl

/-- The reset state is what `resetState` makes of it. -/
theorem atResetValues_reset : AtResetValues State.reset := atResetValues_resetState State.reset

/-- Settles O41: each reset writes its own half of the state, so each leaves the other's half and the order of
the two does not matter. -/
theorem resetsSetTheirOwnState : Obligations.ResetsSetTheirOwnState := by
  refine ⟨atResetValues_reset, fun s => ⟨⟨?_, ?_⟩, ⟨?_, ?_⟩, ?_⟩⟩
  · exact atResetValues_resetState s
  · exact resetState_mem s
  · exact readWord_nil
  · rfl
  · rfl

end Sys2Proof.Machine
end

section
/-! SUPPORT. The pattern registers (10_state.md R22): how each update and each reading of the state relates to the
values they hold, which instructions do not see those values, and O45 settled from that. -/

namespace Sys2Proof.Machine

/-- The state with these values in the pattern registers; it is what the controller's `setPatterns` leaves. -/
def withPatterns (x y : Word) (s : State) : State := { s with tpat := x, fpat := y }

section Readings
variable (x y : Word) (s : State)

@[simp] theorem withPatterns_regs : (withPatterns x y s).regs = s.regs := rfl
@[simp] theorem withPatterns_flags : (withPatterns x y s).flags = s.flags := rfl
@[simp] theorem withPatterns_mem : (withPatterns x y s).mem = s.mem := rfl

/-- With the values it already holds, a state is itself. -/
theorem withPatterns_self : withPatterns s.tpat s.fpat s = s := rfl

@[simp] theorem readReg_withPatterns (r : Reg) : readReg r (withPatterns x y s) = readReg r s := by
  cases r <;> rfl
@[simp] theorem operandValue_withPatterns (o : Operand) : operandValue o (withPatterns x y s) = operandValue o s := by
  cases o <;> rfl
@[simp] theorem condHolds_withPatterns (cc : Cond) : condHolds cc (withPatterns x y s) = condHolds cc s := by
  cases cc <;> rfl
@[simp] theorem inputValue_withPatterns : inputValue (withPatterns x y s) = inputValue s := rfl
@[simp] theorem frameAddr_withPatterns (o : Operand) : frameAddr o (withPatterns x y s) = frameAddr o s := by
  simp [frameAddr]
@[simp] theorem stackAddr_withPatterns (o : Operand) : stackAddr o (withPatterns x y s) = stackAddr o s := by
  simp [stackAddr]

end Readings

section Updates
variable (x y : Word) (s : State)

@[simp] theorem writeReg_withPatterns (r : Reg) (v : Word) :
    writeReg r v (withPatterns x y s) = withPatterns x y (writeReg r v s) := by
  cases r <;> rfl
@[simp] theorem addCycles_withPatterns (n : Nat) :
    addCycles n (withPatterns x y s) = withPatterns x y (addCycles n s) := rfl
@[simp] theorem memWrite_withPatterns (a v : Word) :
    memWrite a v (withPatterns x y s) = withPatterns x y (memWrite a v s) := rfl
@[simp] theorem writeFlags_withPatterns (f : Flags) :
    writeFlags f (withPatterns x y s) = withPatterns x y (writeFlags f s) := rfl
@[simp] theorem writeOut_withPatterns (v : Word) :
    writeOut v (withPatterns x y s) = withPatterns x y (writeOut v s) := rfl
@[simp] theorem callInput_withPatterns :
    callInput (withPatterns x y s) = withPatterns x y (callInput s) := by
  cases h : s.supplier <;> simp [callInput, withPatterns, h]
@[simp] theorem advance_withPatterns (o : Operand) :
    advance o (withPatterns x y s) = withPatterns x y (advance o s) := rfl

end Updates

/-- Executing `i` neither reads nor writes the pattern registers: other values in them before are those values in
them after, and nothing else differs. -/
def IgnoresPatterns (i : Instr) : Prop :=
  ∀ (x y : Word) (s t : State), exec i s = .next t → exec i (withPatterns x y s) = .next (withPatterns x y t)

/-- An instruction whose operation ignores the pattern registers does so itself: its issue does. -/
theorem ignoresPatterns_of_issue {i : Instr} {o : Operand} {cc : Cond} {body : State → State}
    (hi : ∀ s, exec i s = issue o cc body s)
    (hbody : ∀ x y p, body (withPatterns x y p) = withPatterns x y (body p)) : IgnoresPatterns i := by
  intro x y s t h
  rw [hi, issue_next] at h ⊢
  cases h
  rw [condHolds_withPatterns, advance_withPatterns, hbody]
  split <;> rfl

/-- Ignoring the pattern registers includes keeping them. -/
theorem IgnoresPatterns.keepsPatterns {i : Instr} (hi : IgnoresPatterns i) {s t : State}
    (h : exec i s = .next t) : KeepsPatterns s t := by
  have hself := hi s.tpat s.fpat s t h
  rw [withPatterns_self, h] at hself
  injection hself with ht
  rw [ht]
  exact ⟨rfl, rfl⟩

/-- Four operations touch the pattern registers; every other instruction, the invalid one included, ignores
them. -/
theorem exec_pattern_cases (i : Instr) :
    IgnoresPatterns i ∨ (∃ r o cc, i = .settpat r o cc) ∨ (∃ r o cc, i = .setfpat r o cc) ∨
      (∃ r o cc, i = .cmpeq r o cc ∨ i = .cmpne r o cc) := by
  cases i with
  | settpat r o cc => exact .inr (.inl ⟨r, o, cc, rfl⟩)
  | setfpat r o cc => exact .inr (.inr (.inl ⟨r, o, cc, rfl⟩))
  | cmpeq r o cc => exact .inr (.inr (.inr ⟨r, o, cc, .inl rfl⟩))
  | cmpne r o cc => exact .inr (.inr (.inr ⟨r, o, cc, .inr rfl⟩))
  | invalid k r o cc =>
    refine .inl fun x y s t h => ?_
    cases h
    rfl
  | set r o cc => exact .inl (ignoresPatterns_of_issue (exec_set r o cc) (by simp))
  | ld r o cc => exact .inl (ignoresPatterns_of_issue (exec_ld r o cc) (by simp))
  | st r o cc => exact .inl (ignoresPatterns_of_issue (exec_st r o cc) (by simp))
  | sti r o cc => exact .inl (ignoresPatterns_of_issue (exec_sti r o cc) (by simp))
  | jump r o cc => exact .inl (ignoresPatterns_of_issue (exec_jump r o cc) (by simp))
  | rdflags r o cc => exact .inl (ignoresPatterns_of_issue (exec_rdflags r o cc) (by simp))
  | wrflags r o cc => exact .inl (ignoresPatterns_of_issue (exec_wrflags r o cc) (by simp))
  | pushr r o cc => exact .inl (ignoresPatterns_of_issue (exec_pushr r o cc) (by simp))
  | pushv r o cc => exact .inl (ignoresPatterns_of_issue (exec_pushv r o cc) (by simp))
  | pop r o cc => exact .inl (ignoresPatterns_of_issue (exec_pop r o cc) (by simp))
  | call r o cc => exact .inl (ignoresPatterns_of_issue (exec_call r o cc) (by simp))
  | ret r o cc => exact .inl (ignoresPatterns_of_issue (exec_ret r o cc) (by simp))
  | ldfp r o cc => exact .inl (ignoresPatterns_of_issue (exec_ldfp r o cc) (by simp))
  | stfp r o cc => exact .inl (ignoresPatterns_of_issue (exec_stfp r o cc) (by simp))
  | ldsp r o cc => exact .inl (ignoresPatterns_of_issue (exec_ldsp r o cc) (by simp))
  | stsp r o cc => exact .inl (ignoresPatterns_of_issue (exec_stsp r o cc) (by simp))
  | swapfp r o cc => exact .inl (ignoresPatterns_of_issue (exec_swapfp r o cc) (by simp))
  | swapsp r o cc => exact .inl (ignoresPatterns_of_issue (exec_swapsp r o cc) (by simp))
  | xchg r o cc => exact .inl (ignoresPatterns_of_issue (exec_xchg r o cc) (by simp))
  | and r o cc => exact .inl (ignoresPatterns_of_issue (exec_and r o cc) (by simp))
  | nand r o cc => exact .inl (ignoresPatterns_of_issue (exec_nand r o cc) (by simp))
  | or r o cc => exact .inl (ignoresPatterns_of_issue (exec_or r o cc) (by simp))
  | nor r o cc => exact .inl (ignoresPatterns_of_issue (exec_nor r o cc) (by simp))
  | xor r o cc => exact .inl (ignoresPatterns_of_issue (exec_xor r o cc) (by simp))
  | xnor r o cc => exact .inl (ignoresPatterns_of_issue (exec_xnor r o cc) (by simp))
  | not r o cc => exact .inl (ignoresPatterns_of_issue (exec_not r o cc) (by simp))
  | test r o cc => exact .inl (ignoresPatterns_of_issue (exec_test r o cc) (by simp))
  | rotl r o cc => exact .inl (ignoresPatterns_of_issue (exec_rotl r o cc) (by simp))
  | rotr r o cc => exact .inl (ignoresPatterns_of_issue (exec_rotr r o cc) (by simp))
  | shl r o cc => exact .inl (ignoresPatterns_of_issue (exec_shl r o cc) (by simp))
  | shlc r o cc => exact .inl (ignoresPatterns_of_issue (exec_shlc r o cc) (by simp))
  | shr r o cc => exact .inl (ignoresPatterns_of_issue (exec_shr r o cc) (by simp))
  | shrc r o cc => exact .inl (ignoresPatterns_of_issue (exec_shrc r o cc) (by simp))
  | shra r o cc => exact .inl (ignoresPatterns_of_issue (exec_shra r o cc) (by simp))
  | add r o cc => exact .inl (ignoresPatterns_of_issue (exec_add r o cc) (by simp))
  | addc r o cc => exact .inl (ignoresPatterns_of_issue (exec_addc r o cc) (by simp))
  | sub r o cc => exact .inl (ignoresPatterns_of_issue (exec_sub r o cc) (by simp))
  | subb r o cc => exact .inl (ignoresPatterns_of_issue (exec_subb r o cc) (by simp))
  | comp r o cc => exact .inl (ignoresPatterns_of_issue (exec_comp r o cc) (by simp))
  | sbbr r o cc => exact .inl (ignoresPatterns_of_issue (exec_sbbr r o cc) (by simp))
  | subr r o cc => exact .inl (ignoresPatterns_of_issue (exec_subr r o cc) (by simp))
  | out r o cc => exact .inl (ignoresPatterns_of_issue (exec_out r o cc) (by simp))
  | inp r o cc => exact .inl (ignoresPatterns_of_issue (exec_inp r o cc) (by simp))
  | qery r o cc => exact .inl (ignoresPatterns_of_issue (exec_qery r o cc) (by simp))

/-- What `advance`, `retire` and the operation each keep, the instruction keeps. -/
theorem exec_keeps_of_issue {α : Type} (f : State → α) (hadvance : ∀ o s, f (advance o s) = f s)
    (hretire : ∀ s, f (retire s) = f s) {i : Instr} {o : Operand} {cc : Cond} {body : State → State}
    (hi : ∀ s, exec i s = issue o cc body s) (hbody : ∀ p, f (body p) = f p) {s t : State}
    (h : exec i s = .next t) : f t = f s := by
  rw [hi, issue_next] at h
  cases h
  split <;> simp only [hretire, hbody, hadvance]

theorem exec_tpat_of_ne_settpat {i : Instr} {s t : State} (h : exec i s = .next t) (hop : i.op ≠ some .settpat) :
    t.tpat = s.tpat := by
  obtain hi | ⟨r, o, cc, rfl⟩ | ⟨r, o, cc, rfl⟩ | ⟨r, o, cc, rfl | rfl⟩ := exec_pattern_cases i
  · exact (hi.keepsPatterns h).1
  · exact absurd rfl hop
  · exact exec_keeps_of_issue State.tpat advance_tpat retire_tpat (exec_setfpat r o cc) (fun _ => rfl) h
  · exact exec_keeps_of_issue State.tpat advance_tpat retire_tpat (exec_cmpeq r o cc) (fun _ => writeReg_tpat ..) h
  · exact exec_keeps_of_issue State.tpat advance_tpat retire_tpat (exec_cmpne r o cc) (fun _ => writeReg_tpat ..) h

theorem exec_fpat_of_ne_setfpat {i : Instr} {s t : State} (h : exec i s = .next t) (hop : i.op ≠ some .setfpat) :
    t.fpat = s.fpat := by
  obtain hi | ⟨r, o, cc, rfl⟩ | ⟨r, o, cc, rfl⟩ | ⟨r, o, cc, rfl | rfl⟩ := exec_pattern_cases i
  · exact (hi.keepsPatterns h).2
  · exact exec_keeps_of_issue State.fpat advance_fpat retire_fpat (exec_settpat r o cc) (fun _ => rfl) h
  · exact absurd rfl hop
  · exact exec_keeps_of_issue State.fpat advance_fpat retire_fpat (exec_cmpeq r o cc) (fun _ => writeReg_fpat ..) h
  · exact exec_keeps_of_issue State.fpat advance_fpat retire_fpat (exec_cmpne r o cc) (fun _ => writeReg_fpat ..) h

/-- `u` is `t` but for the pattern registers. -/
def AgreeButPatterns (t u : State) : Prop := u = withPatterns u.tpat u.fpat t

/-- Where the operation's result depends on the pattern registers in the pattern registers only, so does the
issue's. -/
theorem issue_agreeButPatterns {o : Operand} {cc : Cond} {body : State → State}
    (hbody : ∀ x y p, AgreeButPatterns (body p) (body (withPatterns x y p))) (x y : Word) (s : State) :
    ∃ t u, issue o cc body s = .next t ∧ issue o cc body (withPatterns x y s) = .next u ∧
      AgreeButPatterns t u := by
  refine ⟨_, _, issue_next .., issue_next .., ?_⟩
  rw [condHolds_withPatterns, advance_withPatterns]
  split
  · exact congrArg retire (hbody x y (advance o s))
  · rfl

/-- No instruction but the two compare-store operations shows the old pattern values anywhere but in the pattern
registers. -/
theorem exec_agreeButPatterns {i : Instr} (heq : i.op ≠ some .cmpeq) (hne : i.op ≠ some .cmpne) (x y : Word)
    (s : State) :
    ∃ t u, exec i s = .next t ∧ exec i (withPatterns x y s) = .next u ∧ AgreeButPatterns t u := by
  obtain hi | ⟨r, o, cc, rfl⟩ | ⟨r, o, cc, rfl⟩ | ⟨r, o, cc, rfl | rfl⟩ := exec_pattern_cases i
  · obtain ⟨t, ht⟩ := exec_next i s
    exact ⟨t, _, ht, hi x y s t ht, rfl⟩
  · simp only [exec_settpat]
    refine issue_agreeButPatterns (fun x y p => ?_) x y s
    rw [operandValue_withPatterns]
    rfl
  · simp only [exec_setfpat]
    refine issue_agreeButPatterns (fun x y p => ?_) x y s
    rw [operandValue_withPatterns]
    rfl
  · exact absurd rfl heq
  · exact absurd rfl hne

/-- Settles O45, from the four cases in which an instruction touches the pattern registers. -/
theorem patternsReadAndWrittenOnlyByTheirOperations :
    Obligations.PatternsReadAndWrittenOnlyByTheirOperations := by
  refine ⟨⟨rfl, rfl, fun s => ⟨resetState_tpat s, resetState_fpat s⟩⟩, fun i s t h => ⟨?_, ?_⟩, ?_⟩
  · exact fun hchanged => of_not_not fun hop => hchanged (exec_tpat_of_ne_settpat h hop)
  · exact fun hchanged => of_not_not fun hop => hchanged (exec_fpat_of_ne_setfpat h hop)
  · exact fun i s x y heq hne => exec_agreeButPatterns heq hne x y s

end Sys2Proof.Machine
end

section
/-! SUPPORT. The instruction word (30_encoding.md R45 to R47, R49, R50, R54, R55, R61): packing and the four fields as
arithmetic, what a well-formed instruction encodes to, what two words decode to, and O35, O36 and O38 settled from
that. -/

namespace Sys2Proof

/-! Packing and fields (R45, R46): each field is a digit of the word, and packing is the sum of the digits. -/

theorem fieldsOf_opcode_toNat (w : Word) : (fieldsOf w).opcode.toNat = w.toNat / 1024 := by
  simp only [fieldsOf, BitVec.extractLsb'_toNat, Nat.shiftRight_eq_div_pow]; omega

theorem fieldsOf_arg1_toNat (w : Word) : (fieldsOf w).arg1.toNat = w.toNat / 128 % 8 := by
  simp [fieldsOf, Nat.shiftRight_eq_div_pow]

theorem fieldsOf_arg2_toNat (w : Word) : (fieldsOf w).arg2.toNat = w.toNat / 16 % 8 := by
  simp [fieldsOf, Nat.shiftRight_eq_div_pow]

theorem fieldsOf_cond_toNat (w : Word) : (fieldsOf w).cond.toNat = w.toNat % 16 := by
  simp [fieldsOf]

/-- The packed number, which always fits 16 bits (R46). -/
theorem packWord_toNat (f : Fields) : (packWord f).toNat =
    f.opcode.toNat * 1024 + f.arg1.toNat * 128 + f.arg2.toNat * 16 + f.cond.toNat := by
  simp only [packWord, BitVec.toNat_ofNat]; omega

/-- Fields with the same four numbers are the same. -/
theorem Fields.eq_of_toNat_eq {f g : Fields} (hop : f.opcode.toNat = g.opcode.toNat)
    (h1 : f.arg1.toNat = g.arg1.toNat) (h2 : f.arg2.toNat = g.arg2.toNat) (hc : f.cond.toNat = g.cond.toNat) :
    f = g := by
  cases f; cases g
  exact (Fields.mk.injEq ..).mpr
    ⟨BitVec.eq_of_toNat_eq hop, BitVec.eq_of_toNat_eq h1, BitVec.eq_of_toNat_eq h2, BitVec.eq_of_toNat_eq hc⟩

@[simp] theorem fieldsOf_packWord (f : Fields) : fieldsOf (packWord f) = f := by
  have hpack := packWord_toNat f
  apply Fields.eq_of_toNat_eq
  · rw [fieldsOf_opcode_toNat]; omega
  · rw [fieldsOf_arg1_toNat]; omega
  · rw [fieldsOf_arg2_toNat]; omega
  · rw [fieldsOf_cond_toNat]; omega

@[simp] theorem packWord_fieldsOf (w : Word) : packWord (fieldsOf w) = w := by
  apply BitVec.eq_of_toNat_eq
  rw [packWord_toNat, fieldsOf_opcode_toNat, fieldsOf_arg1_toNat, fieldsOf_arg2_toNat, fieldsOf_cond_toNat]
  omega

/-! The arg2 field and the length of an instruction (R47). -/

theorem hasImmediate_iff (w : Word) : hasImmediate w = true ↔ w.extractLsb' 4 3 = (7 : BitVec 3) := by
  exact decide_eq_true_iff

@[simp] theorem operandCode_operandOfCode (k : BitVec 3) (immediate : Option Word) :
    operandCode (operandOfCode k immediate) = k := by
  obtain ⟨⟨n, hn⟩⟩ := k
  interval_cases n <;> rfl

/-- The length rule: two words for code 7, one for any other code (R47). -/
theorem operandWords_eq (o : Operand) : operandWords o = if operandCode o = 7 then 2 else 1 := by
  cases o <;> rfl

theorem length_operandImm (o : Operand) : (operandImm o).toList.length + 1 = operandWords o := by
  cases o <;> rfl

/-! Encoding a well-formed instruction (R46, R55). -/

theorem wellFormed_of_op {i : Instr} {op : Op} (h : i.op = some op) (m : OpcodeMap) :
    WellFormed m i = m.binds op := by
  cases i <;> cases h <;> rfl

theorem instrOpcode_of_op {i : Instr} {op : Op} (h : i.op = some op) (m : OpcodeMap) :
    instrOpcode m i = opcodeFrom op 0 m.toList := by
  cases i <;> cases h <;> rfl

/-- The instructions of no operation are the invalid opcodes (R61). -/
theorem eq_invalid_of_op {i : Instr} (h : i.op = none) : ∃ k, i = .invalid k i.arg1 i.arg2 i.cond := by
  cases i with
  | invalid k => exact ⟨k, rfl⟩
  | _ => cases h

/-- The search for an opcode finds one in a table that binds the operation. -/
theorem exists_opcodeFrom {op : Op} {table : List (Option Op)} (h : some op ∈ table) (k : Nat) :
    ∃ code, opcodeFrom op k table = some code := by
  induction table generalizing k with
  | nil => cases h
  | cons x rest ih =>
    by_cases hx : x = some op
    · exact ⟨_, if_pos hx⟩
    · obtain ⟨code, hcode⟩ := ih ((List.mem_cons.mp h).resolve_left (Ne.symm hx)) (k + 1)
      exact ⟨code, (if_neg hx).trans hcode⟩

theorem exists_instrOpcode {m : OpcodeMap} {i : Instr} (h : WellFormed m i = true) :
    ∃ code, instrOpcode m i = some code := by
  cases hop : i.op with
  | none =>
    obtain ⟨k, hk⟩ := eq_invalid_of_op hop
    exact ⟨k, hk ▸ rfl⟩
  | some op =>
    rw [wellFormed_of_op hop] at h
    rw [instrOpcode_of_op hop]
    exact exists_opcodeFrom (List.contains_iff_mem.mp h) 0

theorem encode_of_instrOpcode {m : OpcodeMap} {i : Instr} {code : BitVec 6} (h : instrOpcode m i = some code) :
    encode m i =
      packWord ⟨code, regCode i.arg1, operandCode i.arg2, condCode i.cond⟩ :: (operandImm i.arg2).toList := by
  simp only [encode, h]

/-- A well-formed instruction encodes to as many words as its arg2 takes. -/
theorem length_encode {m : OpcodeMap} {i : Instr} (h : WellFormed m i = true) :
    (encode m i).length = operandWords i.arg2 := by
  obtain ⟨code, hcode⟩ := exists_instrOpcode h
  rw [encode_of_instrOpcode hcode, List.length_cons, length_operandImm]

/-! Decoding two words (R47, R57, R61). -/

/-- Decoding takes the second of two words exactly where the first brings an immediate. -/
theorem decode_cons_cons (m : OpcodeMap) (w next : Word) (rest : List Word) :
    decode m (w :: next :: rest) =
      .ok (decodeWith m w next, if hasImmediate w then rest else next :: rest) := by
  simp only [decode]; split <;> rfl

theorem binds_of_lookup {m : OpcodeMap} {k : BitVec 6} {op : Op} (h : m.lookup k = some op) :
    m.binds op = true :=
  List.contains_iff_mem.mpr (h ▸ Vector.mem_toList_iff.mpr (Vector.getElem_mem k.isLt))

@[simp] theorem instrOfDecoded_op (d : Decoded) : (instrOfDecoded d).op = d.op := by
  obtain ⟨_ | op, opcode, arg1, arg2, cond, imm⟩ := d
  · rfl
  · exact instrOf_op ..

@[simp] theorem instrOfDecoded_arg2 (d : Decoded) : (instrOfDecoded d).arg2 = operandOfCode d.arg2 d.imm := by
  obtain ⟨_ | op, opcode, arg1, arg2, cond, imm⟩ := d
  · rfl
  · exact instrOf_arg2 ..

/-- A decoded instruction names what the map binds to its opcode field (R61). -/
theorem decodeWith_op (m : OpcodeMap) (w next : Word) :
    (decodeWith m w next).op = m.lookup (fieldsOf w).opcode :=
  instrOfDecoded_op _

/-- The arg2 field of the first word is the code of the decoded operand. -/
theorem operandCode_decodeWith (m : OpcodeMap) (w next : Word) :
    operandCode (decodeWith m w next).arg2 = (fieldsOf w).arg2 := by
  rw [decodeWith, instrOfDecoded_arg2, operandCode_operandOfCode]
  rfl

/-- Whatever the decoder makes of a word is well formed: a bound opcode gives its operation, an unbound one an
invalid opcode (R55, R57). -/
theorem wellFormed_decodeWith (m : OpcodeMap) (w next : Word) : WellFormed m (decodeWith m w next) = true := by
  cases hop : m.lookup (fieldsOf w).opcode with
  | none => simp [decodeWith, instrOfDecoded, decodeRecord, hop, WellFormed]
  | some op => rw [wellFormed_of_op ((decodeWith_op m w next).trans hop), binds_of_lookup hop]

/-- A word that brings no immediate decodes the same whatever follows it (R47). -/
theorem decodeWith_of_not_hasImmediate {w : Word} (h : ¬ hasImmediate w = true) (m : OpcodeMap) (x y : Word) :
    decodeWith m w x = decodeWith m w y := by
  simp only [decodeWith, decodeRecord, if_neg h]

end Sys2Proof

namespace Sys2Proof.Machine

/-- Settles O35: the fields are the digits of the packed number, and the arg2 operand alone gives the length. -/
theorem packingAndFieldsAreInverse : Obligations.PackingAndFieldsAreInverse := by
  refine ⟨fun f => ⟨packWord_toNat f, fieldsOf_packWord f⟩,
    fun w => ⟨packWord_fieldsOf w, rfl, rfl, rfl, rfl⟩, fun m i hwf => ?_⟩
  rw [length_encode hwf, operandWords_eq]
  by_cases h : operandCode i.arg2 = 7 <;> simp [h]

/-- Settles O36: the instruction is `decodeWith` of the two words, each of whose properties is a lemma above. -/
theorem decodeIsTotalWithLengthByArg2 : Obligations.DecodeIsTotalWithLengthByArg2 := by
  intro m w n rest
  refine ⟨decodeWith m w n, wellFormed_decodeWith m w n, decodeWith_op m w n, ?_, ?_, fun hne n' => ?_⟩
  · simp only [decode_cons_cons, hasImmediate_iff]
  · rw [operandWords_eq, operandCode_decodeWith]
    rfl
  · exact decodeWith_of_not_hasImmediate (mt (hasImmediate_iff w).mp hne) m n' n

/-- Settles O38: each code, looked up in its own table, selects the entry beside it. -/
theorem codesSelectOperandsAndConditions : Obligations.CodesSelectOperandsAndConditions := by
  intro s w
  refine ⟨?registers, ?operands, ?conditions⟩
  case registers => rfl
  case operands => rfl
  case conditions => rfl

end Sys2Proof.Machine
end

section
/-! SUPPORT. The sequencer (40_sequencer.md R68, R78, R80, R81): a run in the error state, an instruction whose
condition is false, and what the two counters gain; settles O30, O31 and O33. -/

namespace Sys2Proof.Machine

/-! Runs of the machine, by their first step. -/

theorem run_zero (s : State) : Host.Core.run Sys2Proof.core 0 s = .next s := rfl

/-- A run goes on from the state its first step answers. -/
theorem run_succ_of_next {s t : State} (h : step s = .next t) (k : Nat) :
    Host.Core.run Sys2Proof.core (k + 1) s = Host.Core.run Sys2Proof.core k t := by
  have hcore : Sys2Proof.core.step s = .next t := h
  simp only [Host.Core.run, hcore]

/-- Settles O30, by induction on the number of steps: the first one answers the same state. -/
theorem errorStateIsPermanent : Obligations.ErrorStateIsPermanent := by
  intro s k herror
  induction k with
  | zero => exact run_zero s
  | succ k ih => rw [run_succ_of_next (step_of_error herror), ih]

/-- Settles O31: every valid instruction is issued, and an issue runs its operation only where the condition
holds. -/
theorem falseConditionOnlyRetires : Obligations.FalseConditionOnlyRetires := by
  intro i s hop hcond
  obtain ⟨hnone, -⟩ | ⟨_, body, -, hissue⟩ := exec_cases i
  · exact absurd hnone hop
  · rw [hissue, issue_of_not_holds hcond]
    rfl

/-! The counters. -/

/-- An operation's effect makes `n` memory accesses: it adds that many cycles and retires nothing itself. -/
def MakesAccesses (n : Nat) (body : State → State) : Prop :=
  ∀ p, (body p).cycles = p.cycles + n ∧ (body p).instret = p.instret

/-- A valid instruction is the issue of an effect that makes the memory accesses of its operation's row in the
catalogue (R60). -/
theorem exec_issues_accesses {i : Instr} (h : i.op ≠ none) :
    ∃ op body, i.op = some op ∧ (∀ s, exec i s = issue i.arg2 i.cond body s) ∧
      MakesAccesses (memAccesses op) body := by
  cases i with
  | invalid k r o cc => exact absurd rfl h
  | set r o cc => exact ⟨_, _, rfl, exec_set r o cc, fun p => by simp [memAccesses]⟩
  | ld r o cc => exact ⟨_, _, rfl, exec_ld r o cc, fun p => by simp [memAccesses]⟩
  | st r o cc => exact ⟨_, _, rfl, exec_st r o cc, fun p => by simp [memAccesses]⟩
  | sti r o cc => exact ⟨_, _, rfl, exec_sti r o cc, fun p => by simp [memAccesses]⟩
  | jump r o cc => exact ⟨_, _, rfl, exec_jump r o cc, fun p => by simp [memAccesses]⟩
  | rdflags r o cc => exact ⟨_, _, rfl, exec_rdflags r o cc, fun p => by simp [memAccesses]⟩
  | wrflags r o cc => exact ⟨_, _, rfl, exec_wrflags r o cc, fun p => by simp [memAccesses]⟩
  | pushr r o cc => exact ⟨_, _, rfl, exec_pushr r o cc, fun p => by simp [memAccesses]⟩
  | pushv r o cc => exact ⟨_, _, rfl, exec_pushv r o cc, fun p => by simp [memAccesses]⟩
  | pop r o cc => exact ⟨_, _, rfl, exec_pop r o cc, fun p => by simp [memAccesses]⟩
  | call r o cc => exact ⟨_, _, rfl, exec_call r o cc, fun p => by simp [memAccesses]⟩
  | ret r o cc => exact ⟨_, _, rfl, exec_ret r o cc, fun p => by simp [memAccesses]⟩
  | ldfp r o cc => exact ⟨_, _, rfl, exec_ldfp r o cc, fun p => by simp [memAccesses]⟩
  | stfp r o cc => exact ⟨_, _, rfl, exec_stfp r o cc, fun p => by simp [memAccesses]⟩
  | ldsp r o cc => exact ⟨_, _, rfl, exec_ldsp r o cc, fun p => by simp [memAccesses]⟩
  | stsp r o cc => exact ⟨_, _, rfl, exec_stsp r o cc, fun p => by simp [memAccesses]⟩
  | swapfp r o cc => exact ⟨_, _, rfl, exec_swapfp r o cc, fun p => by simp [memAccesses]⟩
  | swapsp r o cc => exact ⟨_, _, rfl, exec_swapsp r o cc, fun p => by simp [memAccesses]⟩
  | xchg r o cc => exact ⟨_, _, rfl, exec_xchg r o cc, fun p => by simp [memAccesses]⟩
  | and r o cc => exact ⟨_, _, rfl, exec_and r o cc, fun p => by simp [memAccesses]⟩
  | nand r o cc => exact ⟨_, _, rfl, exec_nand r o cc, fun p => by simp [memAccesses]⟩
  | or r o cc => exact ⟨_, _, rfl, exec_or r o cc, fun p => by simp [memAccesses]⟩
  | nor r o cc => exact ⟨_, _, rfl, exec_nor r o cc, fun p => by simp [memAccesses]⟩
  | xor r o cc => exact ⟨_, _, rfl, exec_xor r o cc, fun p => by simp [memAccesses]⟩
  | xnor r o cc => exact ⟨_, _, rfl, exec_xnor r o cc, fun p => by simp [memAccesses]⟩
  | not r o cc => exact ⟨_, _, rfl, exec_not r o cc, fun p => by simp [memAccesses]⟩
  | test r o cc => exact ⟨_, _, rfl, exec_test r o cc, fun p => by simp [memAccesses]⟩
  | cmpeq r o cc => exact ⟨_, _, rfl, exec_cmpeq r o cc, fun p => by simp [memAccesses]⟩
  | cmpne r o cc => exact ⟨_, _, rfl, exec_cmpne r o cc, fun p => by simp [memAccesses]⟩
  | rotl r o cc => exact ⟨_, _, rfl, exec_rotl r o cc, fun p => by simp [memAccesses]⟩
  | rotr r o cc => exact ⟨_, _, rfl, exec_rotr r o cc, fun p => by simp [memAccesses]⟩
  | shl r o cc => exact ⟨_, _, rfl, exec_shl r o cc, fun p => by simp [memAccesses]⟩
  | shlc r o cc => exact ⟨_, _, rfl, exec_shlc r o cc, fun p => by simp [memAccesses]⟩
  | shr r o cc => exact ⟨_, _, rfl, exec_shr r o cc, fun p => by simp [memAccesses]⟩
  | shrc r o cc => exact ⟨_, _, rfl, exec_shrc r o cc, fun p => by simp [memAccesses]⟩
  | shra r o cc => exact ⟨_, _, rfl, exec_shra r o cc, fun p => by simp [memAccesses]⟩
  | add r o cc => exact ⟨_, _, rfl, exec_add r o cc, fun p => by simp [memAccesses]⟩
  | addc r o cc => exact ⟨_, _, rfl, exec_addc r o cc, fun p => by simp [memAccesses]⟩
  | sub r o cc => exact ⟨_, _, rfl, exec_sub r o cc, fun p => by simp [memAccesses]⟩
  | subb r o cc => exact ⟨_, _, rfl, exec_subb r o cc, fun p => by simp [memAccesses]⟩
  | comp r o cc => exact ⟨_, _, rfl, exec_comp r o cc, fun p => by simp [memAccesses]⟩
  | sbbr r o cc => exact ⟨_, _, rfl, exec_sbbr r o cc, fun p => by simp [memAccesses]⟩
  | subr r o cc => exact ⟨_, _, rfl, exec_subr r o cc, fun p => by simp [memAccesses]⟩
  | out r o cc => exact ⟨_, _, rfl, exec_out r o cc, fun p => by simp [memAccesses]⟩
  | inp r o cc => exact ⟨_, _, rfl, exec_inp r o cc, fun p => by simp [memAccesses]⟩
  | qery r o cc => exact ⟨_, _, rfl, exec_qery r o cc, fun p => by simp [memAccesses]⟩
  | settpat r o cc => exact ⟨_, _, rfl, exec_settpat r o cc, fun p => by simp [memAccesses]⟩
  | setfpat r o cc => exact ⟨_, _, rfl, exec_setfpat r o cc, fun p => by simp [memAccesses]⟩

/-- An issue counts its fetched words, and its effect's accesses where the condition holds. -/
theorem issue_counts {n : Nat} {body : State → State} (hbody : MakesAccesses n body) (o : Operand) (cc : Cond)
    (s : State) :
    ∃ t, issue o cc body s = .next t ∧ Counts o (if condHolds cc s then n else 0) s t := by
  refine ⟨_, issue_next .., ?_⟩
  obtain ⟨hcycles, hinstret⟩ := hbody (advance o s)
  split <;> simp [Counts, hcycles, hinstret]

/-- What a valid instruction adds to the counters (R80, R81). -/
theorem exec_counts {i : Instr} {op : Op} (h : i.op = some op) (s : State) :
    ∃ t, exec i s = .next t ∧ Counts i.arg2 (if condHolds i.cond s then memAccesses op else 0) s t := by
  obtain ⟨op', body, hop, hissue, hbody⟩ := exec_issues_accesses (i := i) (by simp [h])
  obtain rfl : op' = op := Option.some.inj (hop.symm.trans h)
  rw [hissue]
  exact issue_counts hbody ..

/-- An instruction without an operation raises the exception. -/
theorem exec_of_op_none {i : Instr} (h : i.op = none) (s : State) : exec i s = .next (raiseInvalidOpcode s) := by
  obtain ⟨-, hraise⟩ | ⟨op, _, hop, -⟩ := exec_cases i
  · exact hraise s
  · simp [h] at hop

/-- A step that retires nothing: it stands still in the error state, or it raises the exception. -/
theorem step_of_error_or_invalid {s : State} (h : s.error = true ∨ (fetchInstr s).op = none) :
    step s = .next s ∨ step s = .next (raiseInvalidOpcode (beginStep s)) := by
  cases herror : s.error with
  | true => exact .inl (step_of_error herror)
  | false =>
    have hop : (fetchInstr s).op = none := h.resolve_left (by simp [herror])
    exact .inr ((step_of_running herror).trans (exec_of_op_none hop _))

/-- Settles O33: an issue counts what it fetches and accesses, and neither kind of step that retires nothing
touches the counters. -/
theorem cyclesCountFetchesAndAccesses : Obligations.CyclesCountFetchesAndAccesses := by
  refine ⟨fun i op s hop => ?_, fun s h => ?_⟩
  · obtain ⟨t, hexec, hcycles, hinstret⟩ := exec_counts hop s
    exact ⟨t, hexec, hinstret, hcycles⟩
  · obtain hstep | hstep := step_of_error_or_invalid h
    · exact ⟨_, hstep, rfl, rfl⟩
    · exact ⟨_, hstep, rfl, rfl⟩

end Sys2Proof.Machine
end

section
/-! SUPPORT. The move/set family (41_move_set.md R89 to R97, with the loads and stores of 43_stack_relative_swap.md R105
to R108): the frame of each update, then the three kinds of effect the family is made of (a register written, a word of
memory written, the flags written); settles O1 to O7. -/

namespace Sys2Proof.Machine

/-! The frame of each update: which updates keep the pattern registers, output, input, error flag and opcode map, and
when memory and registers are kept. -/

section Frame
variable {s t : State} {o : Operand}

@[simp] theorem keepsRest_refl : KeepsRest s s := ⟨⟨rfl, rfl⟩, ⟨rfl, rfl⟩, ⟨rfl, rfl⟩, rfl, rfl⟩

@[simp] theorem keepsRest_writeReg (r : Reg) (v : Word) : KeepsRest s (writeReg r v t) ↔ KeepsRest s t := by
  cases r <;> exact Iff.rfl
@[simp] theorem keepsRest_addCycles (n : Nat) : KeepsRest s (addCycles n t) ↔ KeepsRest s t := Iff.rfl
@[simp] theorem keepsRest_advance : KeepsRest s (advance o t) ↔ KeepsRest s t := Iff.rfl
@[simp] theorem keepsRest_retire : KeepsRest s (retire t) ↔ KeepsRest s t := Iff.rfl
@[simp] theorem keepsRest_memWrite (a v : Word) : KeepsRest s (memWrite a v t) ↔ KeepsRest s t := Iff.rfl
@[simp] theorem keepsRest_writeFlags (f : Flags) : KeepsRest s (writeFlags f t) ↔ KeepsRest s t := Iff.rfl

theorem keepsMemory_of_mem_eq (h : t.mem = s.mem) : KeepsMemory s t := fun _ => by rw [h]

theorem keepsMemoryBut_of_mem_eq {a v : Word} (h : t.mem = writeWord s.mem a v) : KeepsMemoryBut a s t :=
  fun _ hlow hhigh => by rw [h, readByte_writeWord_ne _ _ _ hlow hhigh]

/-- Registers that are those of the execute phase's start are kept. -/
theorem keepsRegs_of_regs_eq (h : t.regs = (advance o s).regs) (rs : List Reg) : KeepsRegs o rs s t :=
  fun q _ => by rw [readReg_congr h, readReg_advance]

/-- One more register written is one more register excepted. -/
theorem KeepsRegs.writeReg {rs : List Reg} (h : KeepsRegs o rs s t) (r : Reg) (v : Word) :
    KeepsRegs o (r :: rs) s (writeReg r v t) := by
  intro q hq
  obtain ⟨hne, hrs⟩ := not_or.1 (mt List.mem_cons.2 hq)
  rw [readReg_writeReg_ne hne, h q hrs]

@[simp] theorem keepsRegs_retire (rs : List Reg) : KeepsRegs o rs s (retire t) ↔ KeepsRegs o rs s t := by
  simp only [KeepsRegs, readReg_retire]

@[simp] theorem addCycles_zero : addCycles 0 s = s := rfl

end Frame

/-! A register written. -/

/-- The whole effect of an instruction that writes `v` to `x[r]` and `f` to the flags and makes `n` memory reads. -/
def WritesRegFlags (o : Operand) (r : Reg) (v : Word) (f : Flags) (n : Nat) (s t : State) : Prop :=
  readReg r t = v ∧ KeepsRegs o [r] s t ∧ t.flags = f ∧ KeepsMemory s t ∧ KeepsRest s t ∧ Counts o n s t

theorem writesRegFlags_retire (o : Operand) (r : Reg) (v : Word) (f : Flags) (n : Nat) (s : State) :
    WritesRegFlags o r v f n s (retire (writeReg r v (writeFlags f (addCycles n (advance o s))))) := by
  have hregs : KeepsRegs o [] s (writeFlags f (addCycles n (advance o s))) := keepsRegs_of_regs_eq (by simp) []
  refine ⟨by simp, ?_, by simp, keepsMemory_of_mem_eq (by simp), by simp, by simp [Counts]⟩
  exact (keepsRegs_retire [r]).2 (hregs.writeReg r v)

/-- An issued operation that writes a register and the flags, where the condition holds. -/
theorem issue_writesRegFlags {o : Operand} {cc : Cond} {body : State → State} {s : State} {r : Reg} {v : Word}
    {f : Flags} {n : Nat} (hcond : condHolds cc s = true)
    (hbody : body (advance o s) = writeReg r v (writeFlags f (addCycles n (advance o s)))) :
    ∃ t, issue o cc body s = .next t ∧ WritesRegFlags o r v f n s t :=
  ⟨_, issue_of_holds hcond, hbody ▸ writesRegFlags_retire o r v f n s⟩

/-- An issued operation that writes a register only keeps the flags. -/
theorem issue_writesReg {o : Operand} {cc : Cond} {body : State → State} {s : State} {r : Reg} {v : Word} {n : Nat}
    (hcond : condHolds cc s = true) (hbody : body (advance o s) = writeReg r v (addCycles n (advance o s))) :
    ∃ t, issue o cc body s = .next t ∧ WritesRegFlags o r v s.flags n s t :=
  issue_writesRegFlags hcond hbody

/-- An instruction issued with a load of `x[a1]` loads from that address, the base read before the write (R90,
R105, R107). -/
theorem loadsFrom_of_issue {mk : Reg → Operand → Cond → Instr} {addr : Operand → State → Word}
    (hexec : ∀ r o cc s, exec (mk r o cc) s = issue o cc (fun p => loadReg r (addr o p) p) s)
    (haddr : ∀ o s, addr o (advance o s) = addr o s) : LoadsFrom mk addr := by
  intro r o cc s hcond
  rw [hexec]
  exact issue_writesReg hcond (by simp [haddr])

/-! A word of memory written. -/

/-- The whole effect of an instruction that stores `v` at `a`. -/
def StoresWord (o : Operand) (a v : Word) (s t : State) : Prop :=
  readWord t.mem a = v ∧ KeepsMemoryBut a s t ∧ KeepsRegs o [] s t ∧ t.flags = s.flags ∧ KeepsRest s t ∧
    Counts o 1 s t

theorem storesWord_retire {s : State} (hinv : s.Inv) (o : Operand) (a v : Word) :
    StoresWord o a v s (retire (memWrite a v (advance o s))) :=
  ⟨readWord_writeWord_same hinv a v, keepsMemoryBut_of_mem_eq rfl, keepsRegs_of_regs_eq rfl [], rfl, by simp,
    by simp [Counts]⟩

/-- An issued store, where the condition holds. -/
theorem issue_storesWord {o : Operand} {cc : Cond} {body : State → State} {s : State} {a v : Word} (hinv : s.Inv)
    (hcond : condHolds cc s = true) (hbody : body (advance o s) = memWrite a v (advance o s)) :
    ∃ t, issue o cc body s = .next t ∧ StoresWord o a v s t :=
  ⟨_, issue_of_holds hcond, hbody ▸ storesWord_retire hinv o a v⟩

/-- An instruction issued with a store of `x[a1]` stores at that address (R91, R106, R108). -/
theorem storesTo_of_issue {mk : Reg → Operand → Cond → Instr} {addr : Operand → State → Word}
    (hexec : ∀ r o cc s, exec (mk r o cc) s = issue o cc (fun p => memWrite (addr o p) (readReg r p) p) s)
    (haddr : ∀ o s, addr o (advance o s) = addr o s) : StoresTo mk addr := by
  intro r o cc s hinv hcond
  rw [hexec]
  exact issue_storesWord hinv hcond (by simp [haddr])

/-- `STI` stores `A2` at the address `x[a1]` holds (R92). -/
theorem exec_sti_storesWord {s : State} (hinv : s.Inv) {cc : Cond} (hcond : condHolds cc s = true) (r : Reg)
    (o : Operand) : ∃ t, exec (.sti r o cc) s = .next t ∧ StoresWord o (phaseReg o s r) (operandValue o s) s t :=
  issue_storesWord hinv hcond (by simp)

/-! The flags written. -/

/-- The whole effect of an instruction that writes `f` to the flags and no register but `ip`. -/
def WritesFlags (o : Operand) (f : Flags) (s t : State) : Prop :=
  t.flags = f ∧ KeepsRegs o [] s t ∧ KeepsMemory s t ∧ KeepsRest s t ∧ Counts o 0 s t

theorem writesFlags_retire (o : Operand) (f : Flags) (s : State) :
    WritesFlags o f s (retire (writeFlags f (advance o s))) :=
  ⟨rfl, keepsRegs_of_regs_eq rfl [], keepsMemory_of_mem_eq rfl, by simp, by simp [Counts]⟩

/-- An issued operation that writes the flags only, where the condition holds. -/
theorem issue_writesFlags {o : Operand} {cc : Cond} {body : State → State} {s : State} {f : Flags}
    (hcond : condHolds cc s = true) (hbody : body (advance o s) = writeFlags f (advance o s)) :
    ∃ t, issue o cc body s = .next t ∧ WritesFlags o f s t :=
  ⟨_, issue_of_holds hcond, hbody ▸ writesFlags_retire o f s⟩

/-- `WRFLAGS` writes the flags from `A2` (R95). -/
theorem exec_wrflags_writesFlags {s : State} {cc : Cond} (hcond : condHolds cc s = true) (r : Reg) (o : Operand) :
    ∃ t, exec (.wrflags r o cc) s = .next t ∧ WritesFlags o (flagsOfWord (operandValue o s)) s t :=
  issue_writesFlags hcond (by simp)

/-- The flag word as a number: four bits, so nothing is lost modulo 65536 (R96). -/
theorem flagWord_toNat (f : Flags) :
    (flagWord f).toNat = f.zf.toNat + 2 * f.sf.toNat + 4 * f.cf.toNat + 8 * f.of.toNat := by
  have hzf := f.zf.toNat_le
  have hsf := f.sf.toNat_le
  have hcf := f.cf.toNat_le
  have hof := f.of.toNat_le
  simp only [flagWord, BitVec.toNat_ofNat]
  omega

/-- `RDFLAGS` writes the flag word to `x[a1]` (R94). -/
theorem exec_rdflags_writesReg {s : State} {cc : Cond} (hcond : condHolds cc s = true) (r : Reg) (o : Operand) :
    ∃ t, exec (.rdflags r o cc) s = .next t ∧ WritesRegFlags o r (flagWord s.flags) s.flags 0 s t :=
  issue_writesReg hcond (by simp)

/-! Jumps. -/

/-- `JUMP` writes `ip` whether or not its condition holds: going on in sequence is a write of the sequential
address (R72, R93). -/
theorem exec_jump_eq (r : Reg) (o : Operand) (cc : Cond) (s : State) :
    exec (.jump r o cc) s = .next (retire (writeReg .ip
      (if condHolds cc s then operandValue o s else s.regs.ip + BitVec.ofNat 16 (operandWords o)) (advance o s))) := by
  rw [exec_jump, issue_next, operandValue_advance]
  split
  · rfl
  · rfl

/-! The statements. -/

/-- Settles O2: the three loads differ in their address only, and moving `ip` on changes none of the three. -/
theorem loadsReadTheirAddress : Obligations.LoadsReadTheirAddress :=
  ⟨loadsFrom_of_issue exec_ld fun o => operandValue_advance o o,
    loadsFrom_of_issue exec_ldfp fun o s => by simp,
    loadsFrom_of_issue exec_ldsp fun o s => by simp⟩

/-- Settles O3: the three stores differ in their address only, and moving `ip` on changes none of the three. -/
theorem storesWriteTheirAddress : Obligations.StoresWriteTheirAddress :=
  ⟨storesTo_of_issue exec_st fun o => operandValue_advance o o,
    storesTo_of_issue exec_stfp fun o s => by simp,
    storesTo_of_issue exec_stsp fun o s => by simp⟩

/-- Settles O1: `SET` is a register write without a memory access. -/
theorem setWritesOperandToRegister : Obligations.SetWritesOperandToRegister := by
  intro r o cc s hcond
  rw [exec_set]
  exact issue_writesReg hcond (by simp)

/-- Settles O4; for `a1 = ip` the store lands where `ip` then points. -/
theorem stiWritesAtRegisterAddress : Obligations.StiWritesAtRegisterAddress := by
  refine ⟨fun r o cc s hinv hcond => exec_sti_storesWord hinv hcond r o, fun o s hinv => ?_⟩
  obtain ⟨t, hexec, hword, -, hregs, -⟩ := exec_sti_storesWord hinv (cc := .always) rfl .ip o
  have hip : t.regs.ip = phaseReg o s .ip := hregs .ip List.not_mem_nil
  exact ⟨t, hexec, by rw [fetchWord, hip, hword]⟩

/-- Settles O5: either way `JUMP` is a write of `ip` without a memory access. -/
theorem jumpSetsIp : Obligations.JumpSetsIp := fun r o cc s =>
  ⟨_, exec_jump_eq r o cc s, writesRegFlags_retire o .ip _ s.flags 0 s⟩

/-- Settles O6: `RDFLAGS` is a register write of the flag word, whose number is that sum. -/
theorem rdflagsReadsFlagWord : Obligations.RdflagsReadsFlagWord := by
  intro r o cc s hcond
  obtain ⟨t, hexec, hreg, hframe⟩ := exec_rdflags_writesReg hcond r o
  exact ⟨t, hexec, by rw [hreg, flagWord_toNat], hframe⟩

/-- Settles O7: `WRFLAGS` writes the flags only, each from its own bit of `A2`. -/
theorem wrflagsWritesFlags : Obligations.WrflagsWritesFlags := by
  intro r o cc s hcond
  obtain ⟨t, hexec, hflags, hframe⟩ := exec_wrflags_writesFlags hcond r o
  exact ⟨t, hexec, congrArg Flags.zf hflags, congrArg Flags.sf hflags, congrArg Flags.cf hflags,
    congrArg Flags.of hflags, hframe⟩

end Sys2Proof.Machine
end

section
/-! SUPPORT. The stack family (42_stack.md R98 to R102): an operation is one access at the stack pointer or below it,
then one register written after another; settles O8 to O11. -/

namespace Sys2Proof.Machine

/-! A register written after a memory access: what stays true. -/

section Frame
variable {s t : State} {o : Operand}

/-- Retiring touches no register, so it may as well come before the last register write. -/
theorem retire_writeReg (r : Reg) (v : Word) (s : State) : retire (writeReg r v s) = writeReg r v (retire s) := by
  cases r <;> rfl

@[simp] theorem keepsMemory_writeReg (r : Reg) (v : Word) : KeepsMemory s (writeReg r v t) ↔ KeepsMemory s t := by
  simp only [KeepsMemory, writeReg_mem]

@[simp] theorem keepsMemoryBut_writeReg (a : Word) (r : Reg) (v : Word) :
    KeepsMemoryBut a s (writeReg r v t) ↔ KeepsMemoryBut a s t := by
  simp only [KeepsMemoryBut, writeReg_mem]

@[simp] theorem counts_writeReg (n : Nat) (r : Reg) (v : Word) :
    Counts o n s (writeReg r v t) ↔ Counts o n s t := by
  simp only [Counts, writeReg_cycles, writeReg_instret]

/-- The frame of a stack operation outside memory: one access is counted, and only registers among `rs` and `ip`
change. -/
def AccessesOnce (o : Operand) (rs : List Reg) (s t : State) : Prop :=
  KeepsRegs o rs s t ∧ t.flags = s.flags ∧ KeepsRest s t ∧ Counts o 1 s t

theorem AccessesOnce.writeReg {rs : List Reg} (h : AccessesOnce o rs s t) (r : Reg) (v : Word) :
    AccessesOnce o (r :: rs) s (writeReg r v t) := by
  obtain ⟨hregs, hflags, hrest, hcounts⟩ := h
  exact ⟨hregs.writeReg r v, by rw [writeReg_flags, hflags], (keepsRest_writeReg r v).2 hrest,
    (counts_writeReg 1 r v).2 hcounts⟩

end Frame

/-! A word pushed. -/

/-- The whole effect of an instruction that pushes `v`. -/
def PushesWord (o : Operand) (v : Word) (s t : State) : Prop :=
  readWord t.mem s.regs.sp = v ∧ t.regs.sp = s.regs.sp + 1 ∧ KeepsMemoryBut s.regs.sp s t ∧ AccessesOnce o [.sp] s t

/-- A push is a store at the old `sp` and then a write of `sp` (R18, R98). -/
theorem pushesWord_retire {s : State} (hinv : s.Inv) (o : Operand) (v : Word) :
    PushesWord o v s (retire (push v (advance o s))) := by
  obtain ⟨hword, hmem, hframe⟩ := storesWord_retire hinv o s.regs.sp v
  have hframe : AccessesOnce o [] s (retire (memWrite s.regs.sp v (advance o s))) := hframe
  rw [push_eq, retire_writeReg]
  exact ⟨by rwa [writeReg_mem], by simp, (keepsMemoryBut_writeReg ..).2 hmem, hframe.writeReg .sp _⟩

/-- An instruction issued with a push of `read` pushes what the execute phase reads so. -/
theorem pushes_of_issue {mk : Reg → Operand → Cond → Instr} {read value : Reg → Operand → State → Word}
    (hexec : ∀ r o cc s, exec (mk r o cc) s = issue o cc (fun p => push (read r o p) p) s)
    (hread : ∀ r o s, read r o (advance o s) = value r o s) : Pushes mk value := by
  intro r o cc s hinv hcond
  rw [hexec, issue_of_holds hcond, hread]
  exact ⟨_, rfl, pushesWord_retire hinv o (value r o s)⟩

/-- Where arg2 selects a register by value, it is the register it selects by number (R50, R111). -/
theorem operandValue_eq_readReg {o : Operand} (h : o ∈ [Operand.regA, .regB, .regC, .regD]) (s : State) :
    operandValue o s = readReg (operandReg o) s := by
  simp only [List.mem_cons, List.not_mem_nil, or_false] at h
  obtain rfl | rfl | rfl | rfl := h
  all_goals rfl

/-- `CALL` is a push and then a write of `x[a1]`, whose value was read before (R101). -/
theorem exec_call_of_holds {cc : Cond} {s : State} (hcond : condHolds cc s = true) (r : Reg) (o : Operand) :
    exec (.call r o cc) s =
      .next (writeReg r (operandValue o s) (retire (push (phaseReg o s r) (advance o s)))) := by
  rw [exec_call, issue_of_holds hcond, retire_writeReg, operandValue_advance, readReg_advance]

/-! A word popped. -/

/-- `POP` lowers `sp` and then writes `x[a1]`, with the word read before either (R100). -/
theorem exec_pop_of_holds {cc : Cond} {s : State} (hcond : condHolds cc s = true) (r : Reg) (o : Operand) :
    exec (.pop r o cc) s = .next (writeReg r (readWord s.mem (s.regs.sp - 1))
      (retire (writeReg .sp (s.regs.sp - 1) (addCycles 1 (advance o s))))) := by
  rw [exec_pop, issue_of_holds hcond, popReg_eq, retire_writeReg]
  rfl

/-- `RET` is `POP ip`, whatever its arg1 (R102). -/
theorem exec_ret_eq_pop (r : Reg) (o : Operand) (cc : Cond) (s : State) :
    exec (.ret r o cc) s = exec (.pop .ip o cc) s := by
  rw [exec_ret, exec_pop]

/-! The statements. -/

/-- Settles O8: both pushes are one push of what they read, and a register `a` to `d` reads the same as arg1 and as
arg2. -/
theorem pushesWriteAtStackPointer : Obligations.PushesWriteAtStackPointer := by
  refine ⟨pushes_of_issue exec_pushr fun r o s => readReg_advance r o s,
    pushes_of_issue exec_pushv fun _ o s => operandValue_advance o o s, fun r o cc s ho => ?_⟩
  simp only [exec_pushv, exec_pushr, operandValue_eq_readReg ho]

/-- Settles O9: the write of `x[a1]` comes last, so it holds the popped word whatever it is, and `sp` is lowered
unless it is that register. -/
theorem popReadsBelowStackPointer : Obligations.PopReadsBelowStackPointer := by
  intro r o cc s hcond
  obtain ⟨hsp, hregs, hflags, hmem, hrest, hcounts⟩ := writesRegFlags_retire o .sp (s.regs.sp - 1) s.flags 1 s
  have hframe := AccessesOnce.writeReg ⟨hregs, hflags, hrest, hcounts⟩ r (readWord s.mem (s.regs.sp - 1))
  obtain ⟨hregs, hflags, hrest, hcounts⟩ := hframe
  exact ⟨_, exec_pop_of_holds hcond r o, readReg_writeReg_same .., fun hr => by rw [writeReg_sp, if_neg hr]; exact hsp,
    hregs, hflags, (keepsMemory_writeReg ..).2 hmem, hrest, hcounts⟩

/-- Settles O10: the push leaves its effect, and the write of `x[a1]` after it changes that register only. -/
theorem callPushesThenSetsRegister : Obligations.CallPushesThenSetsRegister := by
  intro r o cc s hinv hcond
  obtain ⟨hword, hsp, hmem, hframe⟩ := pushesWord_retire hinv o (phaseReg o s r)
  exact ⟨_, exec_call_of_holds hcond r o, by rwa [writeReg_mem], readReg_writeReg_same ..,
    fun hr => by rwa [writeReg_sp, if_neg hr], (keepsMemoryBut_writeReg ..).2 hmem, hframe.writeReg r _⟩

/-- Settles O11: `RET` is `POP ip`, so it is O9 for `ip`, which is not `sp`. -/
theorem retPopsIntoIp : Obligations.RetPopsIntoIp := by
  intro r o cc s
  refine ⟨exec_ret_eq_pop r o cc s, fun hcond => ?_⟩
  obtain ⟨t, hexec, hip, hsp, hframe⟩ := popReadsBelowStackPointer .ip o cc s hcond
  exact ⟨t, by rw [exec_ret_eq_pop, hexec], hip, hsp (by decide), hframe⟩

end Sys2Proof.Machine
end

section
/-! SUPPORT. The exchanges of 43_stack_relative_swap.md (R109 to R111): a register with a memory word, and a register
with a register; settles O12 and O13. -/

namespace Sys2Proof.Machine

/-! A register and a memory word. -/

/-- The state after an exchange of `x[r]` with the word at `a`: both sides take the other's old value. -/
def swapped (o : Operand) (r : Reg) (a : Word) (s : State) : State :=
  retire (writeReg r (readWord s.mem a) (memWrite a (phaseReg o s r) (addCycles 1 (advance o s))))

/-- An issued exchange of `x[r]` with the word at `addr` leaves `swapped`, the address being the one at the start
(R109, R110). -/
theorem issue_swapReg {o : Operand} {cc : Cond} {s : State} {addr : State → Word} (hcond : condHolds cc s = true)
    (haddr : addr (advance o s) = addr s) (r : Reg) :
    issue o cc (fun p => swapReg r (addr p) p) s = .next (swapped o r (addr s) s) := by
  rw [issue_of_holds hcond, swapReg_eq, haddr, readReg_advance, advance_mem, swapped]

theorem swapped_keepsRegs (o : Operand) (r : Reg) (a : Word) (s : State) : KeepsRegs o [r] s (swapped o r a s) := by
  have hstore : KeepsRegs o [] s (memWrite a (phaseReg o s r) (addCycles 1 (advance o s))) :=
    keepsRegs_of_regs_eq rfl []
  exact (keepsRegs_retire [r]).2 (hstore.writeReg r _)

/-- An exchange writes one word of memory, the old register (R109, R110). -/
theorem swapped_mem (o : Operand) (r : Reg) (a : Word) (s : State) :
    (swapped o r a s).mem = writeWord s.mem a (phaseReg o s r) := by
  simp [swapped]

/-- An instruction issued with an exchange at an address that moving `ip` on does not change swaps there. -/
theorem swapsWith_of_issue {mk : Reg → Operand → Cond → Instr} {addr : Operand → State → Word}
    (hexec : ∀ r o cc s, exec (mk r o cc) s = issue o cc (fun p => swapReg r (addr o p) p) s)
    (haddr : ∀ o s, addr o (advance o s) = addr o s) : SwapsWith mk addr := by
  intro r o cc s hinv hcond
  have hmem := swapped_mem o r (addr o s) s
  refine ⟨swapped o r (addr o s) s, (hexec r o cc s).trans (issue_swapReg hcond (haddr o s) r), ?_, ?_,
    keepsMemoryBut_of_mem_eq hmem, swapped_keepsRegs o r (addr o s) s, ?_, ?_, ?_⟩
  · simp [swapped]
  · rw [hmem, readWord_writeWord_same hinv]
  all_goals simp [swapped, Counts]

/-! Two registers. -/

/-- After an exchange the first register holds what the second held, also where they are one register. -/
theorem readReg_exchangeRegs_left (r q : Reg) (s : State) : readReg r (exchangeRegs r q s) = readReg q s := by
  rw [exchangeRegs_eq, readReg_writeReg]
  split
  case isTrue hsame => rw [hsame]
  case isFalse => rw [readReg_writeReg_same]

theorem readReg_exchangeRegs_right (r q : Reg) (s : State) : readReg q (exchangeRegs r q s) = readReg r s :=
  readReg_writeReg_same ..

theorem readReg_exchangeRegs_of_ne {r q x : Reg} (hr : x ≠ r) (hq : x ≠ q) (s : State) :
    readReg x (exchangeRegs r q s) = readReg x s := by
  rw [exchangeRegs_eq, readReg_writeReg_ne hq, readReg_writeReg_ne hr]

/-- An exchange of two registers keeps the rest of the register file. -/
theorem keepsRegs_exchangeRegs (o : Operand) (r q : Reg) (s : State) :
    KeepsRegs o [r, q] s (exchangeRegs r q (advance o s)) := by
  intro x hx
  simp only [List.mem_cons, List.not_mem_nil, or_false, not_or] at hx
  obtain ⟨hr, hq⟩ := hx
  rw [readReg_exchangeRegs_of_ne hr hq, readReg_advance]

/-- The table of R111 is the register reading of arg2, an immediate form selecting `ip`. -/
theorem operandReg_eq_of_form {o : Operand} {q : Reg}
    (h : (o, q) ∈ [(Operand.regA, Reg.a), (.regB, .b), (.regC, .c), (.regD, .d), (.zero, .e), (.one, .fp),
      (.minusOne, .sp)] ∨ (q = .ip ∧ ∃ w, o = .imm w)) : operandReg o = q := by
  obtain hlisted | ⟨rfl, w, rfl⟩ := h
  · have hall : ∀ p ∈ [(Operand.regA, Reg.a), (.regB, .b), (.regC, .c), (.regD, .d), (.zero, .e), (.one, .fp),
        (.minusOne, .sp)], operandReg p.1 = p.2 := by decide
    exact hall _ hlisted
  · rfl

/-! The statements. -/

/-- Settles O12: the two swaps differ in their base only, and moving `ip` on changes neither address. -/
theorem swapsExchangeRegisterAndMemory : Obligations.SwapsExchangeRegisterAndMemory :=
  ⟨swapsWith_of_issue exec_swapfp fun o s => by simp, swapsWith_of_issue exec_swapsp fun o s => by simp⟩

/-- Settles O13: `XCHG` exchanges `x[a1]` with the register arg2 selects, after `ip` has moved on, so that `ip` counts
as the next instruction's address. -/
theorem xchgExchangesRegisters : Obligations.XchgExchangesRegisters := by
  intro r q o cc s hcond hform
  obtain rfl := operandReg_eq_of_form hform
  refine ⟨_, (exec_xchg r o cc s).trans (issue_of_holds hcond), ?_, ?_,
    (keepsRegs_retire _).2 (keepsRegs_exchangeRegs o r _ s), ?_, keepsMemory_of_mem_eq ?_, ?_, ?_⟩
  · rw [readReg_retire, readReg_exchangeRegs_left, readReg_advance]
  · rw [readReg_retire, readReg_exchangeRegs_right, readReg_advance]
  all_goals simp [Counts]

end Sys2Proof.Machine
end

section
/-! SUPPORT. The bitwise, test and compare-store family (44_bitwise_compare.md R112 to R123): a result with its zero
and sign flags, and a pattern picked by a comparison; settles O14 to O17. -/

namespace Sys2Proof.Machine

/-- The flags `setZS` leaves are those the frame vocabulary asks for (R10). -/
theorem setsZS_of_flags_eq {v : Word} {s t : State} (h : t.flags = setZS v s.flags) : SetsZS v s t :=
  ⟨by rw [h, setZS_zf, beq_eq_decide], by rw [h, setZS_sf, BitVec.msb_eq_getLsbD_last], by rw [h, setZS_cf],
    by rw [h, setZS_of]⟩

/-- A two-operand form run after `ip` has moved on: its arguments are what the execute phase reads (R112). -/
theorem bitwise_advance (f : Word → Word → Word) (r : Reg) (o : Operand) (s : State) :
    bitwise f r o (advance o s) =
      writeRegZS r (f (phaseReg o s r) (operandValue o s)) (advance o s) := by
  rw [bitwise_eq, readReg_advance, operandValue_advance]

/-- An instruction issued with the two-operand form of `f` computes `f` and takes `zf` and `sf` from the result
(R112). -/
theorem computesZS_of_issue {mk : Reg → Operand → Cond → Instr} {f : Word → Word → Word}
    (hexec : ∀ r o cc s, exec (mk r o cc) s = issue o cc (bitwise f r o) s) : ComputesZS mk f := by
  intro r o cc s hcond
  obtain ⟨t, hissue, hreg, hregs, hflags, hframe⟩ := issue_writesRegFlags (n := 0) hcond (bitwise_advance f r o s)
  have hzs : SetsZS (readReg r t) s t := setsZS_of_flags_eq (by rw [hflags, hreg, advance_flags])
  exact ⟨t, by rw [hexec, hissue], hreg, hzs, hregs, hframe⟩

/-- `NOT` is the two-operand form that ignores `x[a1]` (R119). -/
theorem exec_not_eq_bitwise (r : Reg) (o : Operand) (cc : Cond) (s : State) :
    exec (.not r o cc) s = issue o cc (bitwise (fun _ y => ~~~y) r o) s :=
  exec_not r o cc s

/-- `TEST` writes the flags of the and, and no register (R120). -/
theorem exec_test_writesFlags {s : State} {cc : Cond} (hcond : condHolds cc s = true) (r : Reg) (o : Operand) :
    ∃ t, exec (.test r o cc) s = .next t ∧
      WritesFlags o (setZS (phaseReg o s r &&& operandValue o s) s.flags) s t :=
  issue_writesFlags hcond (by simp)

/-- An instruction issued with a compare-store picks its pattern by the relation its test decides (R121). -/
theorem storesPattern_of_issue {mk : Reg → Operand → Cond → Instr} {test : Word → Word → Bool}
    {holds : Word → Word → Prop} (hexec : ∀ r o cc s, exec (mk r o cc) s = issue o cc (compareStore test r o) s)
    (htest : ∀ x y, test x y = true ↔ holds x y) : StoresPattern mk holds := by
  intro r o cc s hcond
  have hbody : compareStore test r o (advance o s) =
      writeReg r (if test (phaseReg o s r) (operandValue o s) then s.tpat else s.fpat) (advance o s) := by simp
  obtain ⟨t, hissue, hreg, hframe⟩ := issue_writesReg (n := 0) hcond hbody
  refine ⟨t, by rw [hexec, hissue], fun hholds => ?_, fun hfails => ?_, hframe⟩
  · rw [hreg, if_pos ((htest _ _).2 hholds)]
  · rw [hreg, if_neg (mt (htest _ _).1 hfails)]

/-! The statements. -/

/-- Settles O14: the six are the two-operand form, each with its own function. -/
theorem bitwiseOperationsCompute : Obligations.BitwiseOperationsCompute :=
  ⟨computesZS_of_issue exec_and, computesZS_of_issue exec_nand, computesZS_of_issue exec_or,
    computesZS_of_issue exec_nor, computesZS_of_issue exec_xor, computesZS_of_issue exec_xnor⟩

/-- Settles O17: the two compare-stores differ in their test only, and each test decides its relation. -/
theorem compareStoresWritePattern : Obligations.CompareStoresWritePattern :=
  ⟨storesPattern_of_issue exec_cmpeq fun _ _ => beq_iff_eq, storesPattern_of_issue exec_cmpne fun _ _ => bne_iff_ne⟩

/-- Settles O15: `NOT` is the two-operand form of the complement. -/
theorem notComplementsOperand : Obligations.NotComplementsOperand := computesZS_of_issue exec_not_eq_bitwise

/-- Settles O16: `TEST` writes flags only, those of the and. -/
theorem testSetsFlagsOnly : Obligations.TestSetsFlagsOnly := by
  intro r o cc s hcond
  obtain ⟨t, hexec, hflags, hframe⟩ := exec_test_writesFlags hcond r o
  exact ⟨t, hexec, setsZS_of_flags_eq hflags, hframe⟩

end Sys2Proof.Machine
end

section
/-! SUPPORT. The rotates and shifts (45_shift_rotate.md R124 to R132): the laws of rotating a pattern of any width, each
closed form as an operation on patterns, the 17 bits of the shifts through carry as a rotation, and the repeated
single-bit steps; settles O18, O19, O20 and O50. -/

namespace Sys2Proof.Machine

/-! Rotations of a pattern of any width. -/

section Rotation
variable {w : Nat} (x : BitVec w)

/-- Rotating by one count and then another is rotating by their sum. -/
theorem rotateLeft_rotateLeft (m n : Nat) : (x.rotateLeft m).rotateLeft n = x.rotateLeft (m + n) := by
  apply BitVec.eq_of_getMsbD_eq
  intro i hi
  have hmod : (n + i) % w < w := Nat.mod_lt _ (by omega)
  simp only [BitVec.getMsbD_rotateLeft, hi, hmod, decide_true, Bool.true_and, Nat.add_mod_mod, Nat.add_assoc]

theorem rotateLeft_zero : x.rotateLeft 0 = x :=
  BitVec.eq_of_getMsbD_eq fun i hi => by simp [BitVec.getMsbD_rotateLeft, Nat.mod_eq_of_lt hi, hi]

theorem rotateLeft_add_width (n : Nat) : x.rotateLeft (n + w) = x.rotateLeft n := by
  rw [← BitVec.rotateLeft_mod_eq_rotateLeft, Nat.add_mod_right, BitVec.rotateLeft_mod_eq_rotateLeft]

theorem rotateLeft_width : x.rotateLeft w = x := by
  simpa only [Nat.zero_add, rotateLeft_zero] using rotateLeft_add_width x 0

/-- A right rotation is the left rotation by the complementary count. -/
theorem rotateRight_eq_rotateLeft {n : Nat} (h : n < w) : x.rotateRight n = x.rotateLeft (w - n) := by
  rcases Nat.eq_zero_or_pos n with rfl | hpos
  · simp [BitVec.rotateRight_def, rotateLeft_width]
  · rw [BitVec.rotateRight_def, BitVec.rotateLeft_def, Nat.mod_eq_of_lt h, Nat.mod_eq_of_lt (by omega : w - n < w),
      Nat.sub_sub_self h.le, BitVec.or_comm]

theorem rotateRight_rotateLeft {n : Nat} (h : n < w) : (x.rotateLeft n).rotateRight n = x := by
  rw [rotateRight_eq_rotateLeft _ h, rotateLeft_rotateLeft, Nat.add_sub_of_le h.le, rotateLeft_width]

theorem rotateLeft_rotateRight {n : Nat} (h : n < w) : (x.rotateRight n).rotateLeft n = x := by
  rw [rotateRight_eq_rotateLeft _ h, rotateLeft_rotateLeft, Nat.sub_add_cancel h.le, rotateLeft_width]

/-- One more bit of a right rotation is one more single-bit rotation. -/
theorem rotateRight_succ {n : Nat} (h : n + 1 < w) : x.rotateRight (n + 1) = (x.rotateRight n).rotateRight 1 := by
  rw [rotateRight_eq_rotateLeft _ h, rotateRight_eq_rotateLeft _ (by omega : n < w),
    rotateRight_eq_rotateLeft _ (by omega : 1 < w), rotateLeft_rotateLeft, ← rotateLeft_add_width]
  congr 1
  omega

/-- The two halves of a rotation share no bit, so their union is their sum. -/
theorem toNat_shiftLeft_or_ushiftRight {n k : Nat} (h : n + k = w) :
    (x <<< n ||| x >>> k).toNat = (x.toNat * 2 ^ n + x.toNat / 2 ^ k) % 2 ^ w := by
  have hdisjoint : x <<< n &&& x >>> k = 0#w := by
    ext i hi
    simp only [BitVec.getElem_and, BitVec.getElem_shiftLeft, BitVec.getElem_ushiftRight, BitVec.getElem_zero]
    by_cases hn : i < n
    · simp [hn]
    · rw [BitVec.getLsbD_of_ge _ _ (by omega), Bool.and_false]
  rw [← BitVec.add_eq_or_of_and_eq_zero _ _ hdisjoint, BitVec.toNat_add, BitVec.toNat_shiftLeft,
    BitVec.toNat_ushiftRight, Nat.shiftLeft_eq, Nat.shiftRight_eq_div_pow, Nat.mod_add_mod]

theorem toNat_rotateLeft {n : Nat} (h : n < w) :
    (x.rotateLeft n).toNat = (x.toNat * 2 ^ n + x.toNat / 2 ^ (w - n)) % 2 ^ w := by
  rw [BitVec.rotateLeft_def, Nat.mod_eq_of_lt h, toNat_shiftLeft_or_ushiftRight x (Nat.add_sub_of_le h.le)]

theorem toNat_rotateRight {n : Nat} (h : n < w) :
    (x.rotateRight n).toNat = (x.toNat / 2 ^ n + x.toNat * 2 ^ (w - n)) % 2 ^ w := by
  rw [BitVec.rotateRight_def, Nat.mod_eq_of_lt h, BitVec.or_comm,
    toNat_shiftLeft_or_ushiftRight x (Nat.sub_add_cancel h.le), Nat.add_comm]

end Rotation

/-! The count, and the closed forms as operations on patterns (R124, R126 to R128, R130, R132). -/

theorem shiftCount_eq_mod (v : Word) : shiftCount v = v.toNat % 16 := by
  rw [shiftCount, BitVec.toNat_and]
  exact Nat.and_two_pow_sub_one_eq_mod v.toNat 4

theorem ofNat_mul_two_pow (x : Word) (n : Nat) : BitVec.ofNat 16 (x.toNat * 2 ^ n) = x <<< n := by
  apply BitVec.eq_of_toNat_eq
  rw [BitVec.toNat_ofNat, BitVec.toNat_shiftLeft, Nat.shiftLeft_eq]

theorem ofNat_div_two_pow (x : Word) (n : Nat) : BitVec.ofNat 16 (x.toNat / 2 ^ n) = x >>> n := by
  rw [← Nat.shiftRight_eq_div_pow, ← BitVec.toNat_ushiftRight, BitVec.ofNat_toNat, BitVec.setWidth_eq]

/-- The quotient rounds toward minus infinity, as the arithmetic shift does (R132). -/
theorem ofInt_div_two_pow (x : Word) (n : Nat) : BitVec.ofInt 16 (x.toInt / (2 ^ n : Int)) = x.sshiftRight n := by
  have hdiv : x.toInt / (2 ^ n : Int) = (x.sshiftRight n).toInt := by
    rw [BitVec.toInt_sshiftRight, Int.shiftRight_eq_div_pow, Int.natCast_pow]
    rfl
  rw [hdiv, BitVec.ofInt_toInt]

theorem rotlWord_eq_rotateLeft (x : Word) {n : Nat} (h : n < 16) : rotlWord x n = x.rotateLeft n := by
  rw [rotlWord, ofNat_mul_two_pow, ofNat_div_two_pow, BitVec.rotateLeft_def, Nat.mod_eq_of_lt h]

theorem rotrWord_eq_rotateRight (x : Word) {n : Nat} (h : n < 16) : rotrWord x n = x.rotateRight n := by
  rw [rotrWord, ofNat_mul_two_pow, ofNat_div_two_pow, BitVec.rotateRight_def, Nat.mod_eq_of_lt h]

theorem shlWord_eq (cf : Bool) (x : Word) (n : Nat) :
    shlWord cf x n = (if n = 0 then cf else x.getLsbD (16 - n), x <<< n) := by
  simp only [shlWord, ofNat_mul_two_pow, Nat.pos_iff_ne_zero, ite_not]

theorem shrWord_eq (cf : Bool) (x : Word) (n : Nat) :
    shrWord cf x n = (if n = 0 then cf else x.getLsbD (n - 1), x >>> n) := by
  simp only [shrWord, ofNat_div_two_pow, Nat.pos_iff_ne_zero, ite_not]

theorem shraWord_eq (cf : Bool) (x : Word) (n : Nat) :
    shraWord cf x n = (if n = 0 then cf else x.getLsbD (n - 1), x.sshiftRight n) := by
  simp only [shraWord, ofInt_div_two_pow, Nat.pos_iff_ne_zero, ite_not]

/-! The 17 bits of the shifts through carry (R129, R131). -/

/-- The carry above the word, as one pattern of 17 bits. -/
def carryBits (cf : Bool) (x : Word) : BitVec 17 := BitVec.cons cf x

theorem toNat_carryBits (cf : Bool) (x : Word) : (carryBits cf x).toNat = carryWord cf x := by
  rw [carryBits, BitVec.toNat_cons', Nat.shiftLeft_eq, carryWord]

/-- Splitting a 17-bit value loses nothing. -/
theorem carryWord_splitCarry {q : Nat} (h : q < 2 ^ 17) : carryWord (splitCarry q).1 (splitCarry q).2 = q := by
  simp only [carryWord, splitCarry, Nat.toNat_testBit, BitVec.toNat_ofNat]
  omega

theorem carryBits_splitCarry (q : BitVec 17) : carryBits (splitCarry q.toNat).1 (splitCarry q.toNat).2 = q :=
  BitVec.eq_of_toNat_eq (by rw [toNat_carryBits, carryWord_splitCarry q.isLt])

/-- The two parts of a joined pattern are what it was joined from. -/
theorem splitCarry_carryBits (cf : Bool) (x : Word) : splitCarry (carryBits cf x).toNat = (cf, x) := by
  have hcarry : (carryBits cf x).toNat.testBit 16 = cf :=
    (BitVec.msb_eq_getLsbD_last (carryBits cf x)).symm.trans BitVec.msb_cons
  have hword : BitVec.ofNat 16 (carryBits cf x).toNat = x := by
    rw [BitVec.ofNat_toNat, carryBits, BitVec.setWidth_cons]
  rw [splitCarry, hcarry, hword]

/-- `SHLC` rotates the 17 bits left. -/
theorem shlcWord_eq_rotateLeft (cf : Bool) (x : Word) {n : Nat} (h : n < 16) :
    shlcWord cf x n = splitCarry ((carryBits cf x).rotateLeft n).toNat := by
  rw [toNat_rotateLeft _ (by omega), toNat_carryBits]
  rfl

/-- `SHRC` rotates the 17 bits right. -/
theorem shrcWord_eq_rotateRight (cf : Bool) (x : Word) {n : Nat} (h : n < 16) :
    shrcWord cf x n = splitCarry ((carryBits cf x).rotateRight n).toNat := by
  rw [toNat_rotateRight _ (by omega), toNat_carryBits]
  rfl

/-! The single-bit steps (R125). -/

theorem word_add_self (x : Word) : x + x = x <<< 1 := by
  apply BitVec.eq_of_toNat_eq
  rw [BitVec.toNat_add, BitVec.toNat_shiftLeft, Nat.shiftLeft_eq]
  omega

/-- Keeping bit 15 of a word shifted right by one is the arithmetic shift by one (R125, R132). -/
theorem ushiftRight_or_sign (x : Word) : x >>> 1 ||| x &&& 0x8000 = x.sshiftRight 1 := by
  have hsign : (0x8000 : Word) = BitVec.twoPow 16 15 := rfl
  ext i hi
  simp only [hsign, BitVec.getElem_or, BitVec.getElem_and, BitVec.getElem_ushiftRight, BitVec.getElem_twoPow,
    BitVec.getElem_sshiftRight, BitVec.msb_eq_getLsbD_last]
  by_cases h : i = 15
  · subst h; simp
  · simp [h, show 1 + i < 16 by omega, BitVec.getLsbD_eq_getElem]

/-- A bit put above a word shifted right by one adds its weight (R131). -/
theorem ushiftRight_or_carry (cf : Bool) (x : Word) :
    x >>> 1 ||| (if cf then 0x8000 else 0) = BitVec.ofNat 16 (x.toNat / 2 + cf.toNat * 0x8000) := by
  have hhalf : (x >>> 1).toNat = x.toNat / 2 := Nat.shiftRight_eq_div_pow _ 1
  apply BitVec.eq_of_toNat_eq
  rw [BitVec.toNat_or, BitVec.toNat_ofNat, hhalf]
  cases cf with
  | false => exact (Nat.or_zero _).trans (by rw [Bool.toNat_false]; omega)
  | true =>
    have hor : 0x8000 ||| x.toNat / 2 = 0x8000 + x.toNat / 2 :=
      (Nat.two_pow_add_eq_or_of_lt (i := 15) (by omega) 1).symm
    exact (Nat.or_comm _ _).trans (hor.trans (by rw [Bool.toNat_true]; omega))

/-- Splitting a 17-bit value and joining a carry and a word are inverse. -/
theorem splitCarry_eq_iff {q : Nat} {cf : Bool} {x : Word} (h : q < 2 ^ 17) :
    splitCarry q = (cf, x) ↔ q = carryWord cf x := by
  constructor
  · intro hsplit
    rw [← carryWord_splitCarry h, hsplit]
  · rintro rfl
    rw [← toNat_carryBits, splitCarry_carryBits]

/-- `SHLC` by one: the word doubled, with the carry below, and bit 15 out (R129). -/
theorem shlcWord_one (cf : Bool) (x : Word) :
    shlcWord cf x 1 = (x.getLsbD 15, BitVec.ofNat 16 (2 * x.toNat + cf.toNat)) := by
  refine (splitCarry_eq_iff (Nat.mod_lt _ (by omega))).2 ?_
  have hcf := cf.toNat_le
  have htop : (cf.toNat * 65536 + x.toNat) / 65536 = cf.toNat := by omega
  have hrot : ((cf.toNat * 65536 + x.toNat) * 2 + cf.toNat) % 131072 = 2 * x.toNat + cf.toNat := by omega
  simp only [carryWord, BitVec.getLsbD, Nat.toNat_testBit, BitVec.toNat_ofNat, Nat.reduceSub, Nat.reducePow, htop, hrot]
  omega

/-- `SHRC` by one: the word halved, with the carry above, and bit 0 out (R131). -/
theorem shrcWord_one (cf : Bool) (x : Word) :
    shrcWord cf x 1 = (x.getLsbD 0, BitVec.ofNat 16 (x.toNat / 2 + cf.toNat * 0x8000)) := by
  refine (splitCarry_eq_iff (Nat.mod_lt _ (by omega))).2 ?_
  have hcf := cf.toNat_le
  have hhalf : (cf.toNat * 65536 + x.toNat) / 2 = x.toNat / 2 + cf.toNat * 32768 := by omega
  have hfit : (x.toNat / 2 + cf.toNat * 32768) % 65536 = x.toNat / 2 + cf.toNat * 32768 := by omega
  simp only [carryWord, BitVec.getLsbD, Nat.toNat_testBit, BitVec.toNat_ofNat, Nat.reduceSub, Nat.reducePow, hhalf,
    hfit]
  omega

theorem shlcStep_eq (v : Bool × Word) : shlcStep v = shlcWord v.1 v.2 1 := by
  rw [shlcWord_one, shlcStep, BitVec.ofNat_add, Nat.two_mul, BitVec.ofNat_add, BitVec.ofNat_toNat, BitVec.setWidth_eq]

theorem shrcStep_eq (v : Bool × Word) : shrcStep v = shrcWord v.1 v.2 1 := by
  rw [shrcWord_one, shrcStep, ushiftRight_or_carry]

/-! Repeated steps (R125). -/

/-- The last step of a repetition may be split off instead of the first. -/
theorem shiftSteps_succ (step : Bool × Word → Bool × Word) (n : Nat) (v : Bool × Word) :
    shiftSteps step (n + 1) v = step (shiftSteps step n v) := by
  induction n generalizing v with
  | zero => rfl
  | succ n ih => exact ih (step v)

/-- What keeps its argument for the count 0 and makes one step more for each count up to 15 is the repeated step. -/
theorem eq_shiftSteps {step : Bool × Word → Bool × Word} {v : Bool × Word} {f : Nat → Bool × Word} (hzero : f 0 = v)
    (hsucc : ∀ n, n + 1 < 16 → f (n + 1) = step (f n)) {n : Nat} (h : n < 16) : f n = shiftSteps step n v := by
  induction n with
  | zero => exact hzero
  | succ n ih => rw [hsucc n h, ih (by omega), shiftSteps_succ]

theorem shlWord_eq_steps (cf : Bool) (x : Word) {n : Nat} (h : n < 16) :
    shlWord cf x n = shiftSteps shlStep n (cf, x) := by
  refine eq_shiftSteps (f := shlWord cf x) (by simp [shlWord_eq]) (fun n hn => ?_) h
  have hcarry : (x <<< n).getLsbD 15 = x.getLsbD (15 - n) := by
    rw [BitVec.getLsbD_shiftLeft]; simp [show ¬ 15 < n by omega]
  simp only [shlWord_eq, shlStep, word_add_self, ← BitVec.shiftLeft_add, hcarry, Nat.add_one_ne_zero, if_false,
    Nat.reduceSubDiff]

theorem shrWord_eq_steps (cf : Bool) (x : Word) {n : Nat} (h : n < 16) :
    shrWord cf x n = shiftSteps shrStep n (cf, x) := by
  refine eq_shiftSteps (f := shrWord cf x) (by simp [shrWord_eq]) (fun n _ => ?_) h
  simp [shrWord_eq, shrStep, BitVec.shiftRight_add]

theorem shraWord_eq_steps (cf : Bool) (x : Word) {n : Nat} (h : n < 16) :
    shraWord cf x n = shiftSteps shraStep n (cf, x) := by
  refine eq_shiftSteps (f := shraWord cf x) (by simp [shraWord_eq]) (fun n hn => ?_) h
  have hcarry : (x.sshiftRight n).getLsbD 0 = x.getLsbD n := by
    rw [BitVec.getLsbD_sshiftRight]; simp [show n < 16 by omega]
  simp only [shraWord_eq, shraStep, ushiftRight_or_sign, BitVec.sshiftRight_add, hcarry, Nat.add_one_ne_zero, if_false,
    Nat.add_sub_cancel]

theorem shlcWord_eq_steps (cf : Bool) (x : Word) {n : Nat} (h : n < 16) :
    shlcWord cf x n = shiftSteps shlcStep n (cf, x) := by
  refine eq_shiftSteps (f := shlcWord cf x) ?_ (fun n hn => ?_) h
  · rw [shlcWord_eq_rotateLeft cf x (by omega), rotateLeft_zero, splitCarry_carryBits]
  · rw [shlcStep_eq, shlcWord_eq_rotateLeft _ _ hn, shlcWord_eq_rotateLeft cf x (by omega : n < 16),
      shlcWord_eq_rotateLeft _ _ (by omega), carryBits_splitCarry, rotateLeft_rotateLeft]

theorem shrcWord_eq_steps (cf : Bool) (x : Word) {n : Nat} (h : n < 16) :
    shrcWord cf x n = shiftSteps shrcStep n (cf, x) := by
  refine eq_shiftSteps (f := shrcWord cf x) ?_ (fun n hn => ?_) h
  · rw [shrcWord_eq_rotateRight cf x (by omega), rotateRight_eq_rotateLeft _ (by omega), Nat.sub_zero, rotateLeft_width,
      splitCarry_carryBits]
  · rw [shrcStep_eq, shrcWord_eq_rotateRight _ _ hn, shrcWord_eq_rotateRight cf x (by omega : n < 16),
      shrcWord_eq_rotateRight _ _ (by omega), carryBits_splitCarry, rotateRight_succ _ (by omega)]

/-! The instructions. -/

/-- A rotate is the two-operand form of the word rotated by the count (R124). -/
theorem computesZS_of_rotate {mk : Reg → Operand → Cond → Instr} {f g : Word → Nat → Word}
    (hexec : ∀ r o cc s, exec (mk r o cc) s = issue o cc (rotate f r o) s)
    (hf : ∀ x n, n < 16 → f x n = g x n) : ComputesZS mk (fun x y => g x (y.toNat % 16)) := by
  have hcount : (fun x y : Word => f x (shiftCount y)) = fun x y => g x (y.toNat % 16) := by
    funext x y
    rw [shiftCount_eq_mod, hf _ _ (Nat.mod_lt _ (by omega))]
  exact computesZS_of_issue (hcount ▸ hexec)

/-- The effect of a shift whose carry and word are `v`: `zf` and `sf` from the word, `of` kept (R125). -/
def ShiftsWord (o : Operand) (r : Reg) (v : Bool × Word) (s t : State) : Prop :=
  readReg r t = v.2 ∧ t.flags.cf = v.1 ∧ t.flags.zf = decide (readReg r t = 0) ∧
    t.flags.sf = (readReg r t).getLsbD 15 ∧ t.flags.of = s.flags.of ∧
    KeepsRegs o [r] s t ∧ KeepsMemory s t ∧ KeepsRest s t ∧ Counts o 0 s t

/-- An instruction issued with a shift by `f` takes its carry and word from `f` of the incoming carry, `x[a1]` and the
count (R124, R125). -/
theorem shiftsWord_of_issue {mk : Reg → Operand → Cond → Instr} {f : Bool → Word → Nat → Bool × Word}
    (hexec : ∀ r o cc s, exec (mk r o cc) s = issue o cc (shift f r o) s) {cc : Cond} {s : State}
    (hcond : condHolds cc s = true) (r : Reg) (o : Operand) :
    ∃ t, exec (mk r o cc) s = .next t ∧
      ShiftsWord o r (f s.flags.cf (phaseReg o s r) ((operandValue o s).toNat % 16)) s t := by
  have hbody : shift f r o (advance o s) = _ := shift_eq f r o (advance o s)
  rw [advance_flags, readReg_advance, operandValue_advance, shiftCount_eq_mod] at hbody
  obtain ⟨t, hissue, hreg, hregs, hflags, hframe⟩ := issue_writesRegFlags (n := 0) hcond hbody
  obtain ⟨hzf, hsf, hcf, hof⟩ : SetsZS _ (writeFlags _ (advance o s)) t := setsZS_of_flags_eq hflags
  exact ⟨t, by rw [hexec, hissue], hreg, hcf, by rw [hzf, hreg], by rw [hsf, hreg], hof, hregs, hframe⟩

theorem shiftsTo_of_issue {mk : Reg → Operand → Cond → Instr} {f : Bool → Word → Nat → Bool × Word}
    {word : Word → Nat → Word} {carry : Word → Nat → Bool}
    (hexec : ∀ r o cc s, exec (mk r o cc) s = issue o cc (shift f r o) s)
    (hf : ∀ cf x n, f cf x n = (if n = 0 then cf else carry x n, word x n)) : ShiftsTo mk word carry := by
  intro r o cc s hcond
  obtain ⟨t, hnext, heffect⟩ := shiftsWord_of_issue hexec hcond r o
  rw [hf] at heffect
  exact ⟨t, _, rfl, hnext, heffect⟩

/-- Executing `mk` makes as many single-bit steps as `A2` modulo 16 says, on the incoming carry and `x[a1]` (R125). -/
def ExecutesSteps (mk : Reg → Operand → Cond → Instr) (step : Bool × Word → Bool × Word) : Prop :=
  ∀ (r : Reg) (o : Operand) (s : State),
    ∃ t, exec (mk r o .always) s = .next t ∧
      (t.flags.cf, readReg r t) =
        shiftSteps step ((operandValue o s).toNat % 16) (s.flags.cf, phaseReg o s r) ∧
      t.flags.zf = decide (readReg r t = 0) ∧ t.flags.sf = (readReg r t).getLsbD 15 ∧ t.flags.of = s.flags.of

theorem executesSteps_of_issue {mk : Reg → Operand → Cond → Instr} {f : Bool → Word → Nat → Bool × Word}
    {step : Bool × Word → Bool × Word} (hexec : ∀ r o cc s, exec (mk r o cc) s = issue o cc (shift f r o) s)
    (hf : ∀ cf x {n}, n < 16 → f cf x n = shiftSteps step n (cf, x)) : ExecutesSteps mk step := by
  intro r o s
  obtain ⟨t, hnext, hreg, hcf, hzf, hsf, hof, _⟩ := shiftsWord_of_issue hexec (cc := .always) rfl r o
  refine ⟨t, hnext, ?_, hzf, hsf, hof⟩
  rw [hreg, hcf, ← hf _ _ (Nat.mod_lt _ (by omega))]

/-- A shift that splits a 17-bit value shifts the carry and the word together (R129, R131). -/
theorem shiftsCarryTo_of_issue {mk : Reg → Operand → Cond → Instr} {f : Bool → Word → Nat → Bool × Word}
    {rot : Nat → Nat → Nat} (hexec : ∀ r o cc s, exec (mk r o cc) s = issue o cc (shift f r o) s)
    (hf : ∀ cf x n, f cf x n = splitCarry (rot (carryWord cf x) n)) (hrot : ∀ q n, rot q n < 2 ^ 17) :
    ShiftsCarryTo mk rot := by
  intro r o cc s hcond
  obtain ⟨t, hnext, hreg, hcf, hframe⟩ := shiftsWord_of_issue hexec hcond r o
  refine ⟨t, hnext, ?_, hframe⟩
  rw [hreg, hcf, hf]
  exact carryWord_splitCarry (hrot _ _)

theorem shiftsCarryTo_shlc : ShiftsCarryTo .shlc (fun q n => (q * 2 ^ n + q / 2 ^ (17 - n)) % 2 ^ 17) :=
  shiftsCarryTo_of_issue exec_shlc (fun _ _ _ => rfl) fun _ _ => Nat.mod_lt _ (by omega)

theorem shiftsCarryTo_shrc : ShiftsCarryTo .shrc (fun q n => (q / 2 ^ n + q * 2 ^ (17 - n)) % 2 ^ 17) :=
  shiftsCarryTo_of_issue exec_shrc (fun _ _ _ => rfl) fun _ _ => Nat.mod_lt _ (by omega)

/-! Chains of two words: a shift of one word, then a shift through carry of the other (R129, R131). -/

theorem toNat_shlWord_one {cf c : Bool} {x y : Word} (h : shlWord cf x 1 = (c, y)) :
    c.toNat * 65536 + y.toNat = 2 * x.toNat := by
  obtain ⟨rfl, rfl⟩ := Prod.mk.inj ((shlWord_eq cf x 1).symm.trans h)
  simp only [Nat.one_ne_zero, if_false, BitVec.getLsbD, Nat.toNat_testBit, BitVec.toNat_shiftLeft, Nat.shiftLeft_eq]
  omega

theorem toNat_shlcWord_one {cf c : Bool} {x y : Word} (h : shlcWord cf x 1 = (c, y)) :
    c.toNat * 65536 + y.toNat = 2 * x.toNat + cf.toNat := by
  have hcf := cf.toNat_le
  obtain ⟨rfl, rfl⟩ := Prod.mk.inj ((shlcWord_one cf x).symm.trans h)
  simp only [BitVec.getLsbD, Nat.toNat_testBit, BitVec.toNat_ofNat]
  omega

theorem toNat_shrWord_one {cf c : Bool} {x y : Word} (h : shrWord cf x 1 = (c, y)) :
    2 * y.toNat + c.toNat = x.toNat := by
  obtain ⟨rfl, rfl⟩ := Prod.mk.inj ((shrWord_eq cf x 1).symm.trans h)
  simp only [Nat.one_ne_zero, if_false, BitVec.getLsbD, Nat.toNat_testBit, BitVec.toNat_ushiftRight,
    Nat.shiftRight_eq_div_pow]
  omega

theorem toNat_shrcWord_one {cf c : Bool} {x y : Word} (h : shrcWord cf x 1 = (c, y)) :
    2 * y.toNat + c.toNat = cf.toNat * 65536 + x.toNat := by
  have hcf := cf.toNat_le
  obtain ⟨rfl, rfl⟩ := Prod.mk.inj ((shrcWord_one cf x).symm.trans h)
  simp only [BitVec.getLsbD, Nat.toNat_testBit, BitVec.toNat_ofNat]
  omega

/-- A shift of a register other than `ip` by the constant 1 keeps the other registers. -/
theorem exec_shift_one {mk : Reg → Operand → Cond → Instr} {f : Bool → Word → Nat → Bool × Word}
    (hexec : ∀ r o cc s, exec (mk r o cc) s = issue o cc (shift f r o) s) {r : Reg} (hr : r ≠ .ip) (s : State) :
    ∃ t, exec (mk r .one .always) s = .next t ∧ f s.flags.cf (readReg r s) 1 = (t.flags.cf, readReg r t) ∧
      ∀ q, q ≠ r → q ≠ .ip → readReg q t = readReg q s := by
  obtain ⟨t, hnext, hreg, hcf, _, _, _, hkeeps, _⟩ := shiftsWord_of_issue hexec (cc := .always) rfl r .one
  refine ⟨t, hnext, ?_, fun q hq hip => ?_⟩
  · rw [hreg, hcf, phaseReg_of_ne hr]
    rfl
  · rw [hkeeps q (by simpa using hq), phaseReg_of_ne hip]

/-- `SHL` of the low word, then `SHLC` of the high word. -/
theorem exec_shl_shlc (s : State) :
    ∃ t u, exec (.shl .a .one .always) s = .next t ∧ exec (.shlc .b .one .always) t = .next u ∧
      u.flags.cf.toNat * 2 ^ 32 + u.regs.b.toNat * 65536 + u.regs.a.toNat =
        2 * (s.regs.b.toNat * 65536 + s.regs.a.toNat) := by
  obtain ⟨t, hshl, hlow, hkeep⟩ := exec_shift_one exec_shl (r := .a) (by decide) s
  obtain ⟨u, hshlc, hhigh, hkeep'⟩ := exec_shift_one exec_shlc (r := .b) (by decide) t
  have hb : t.regs.b = s.regs.b := hkeep .b (by decide) (by decide)
  have ha : u.regs.a = t.regs.a := hkeep' .a (by decide) (by decide)
  have hout : t.flags.cf.toNat * 65536 + t.regs.a.toNat = 2 * s.regs.a.toNat := toNat_shlWord_one hlow
  have hin : u.flags.cf.toNat * 65536 + u.regs.b.toNat = 2 * t.regs.b.toNat + t.flags.cf.toNat :=
    toNat_shlcWord_one hhigh
  refine ⟨t, u, hshl, hshlc, ?_⟩
  rw [ha, ← hb]
  linarith

/-- `SHR` of the high word, then `SHRC` of the low word. -/
theorem exec_shr_shrc (s : State) :
    ∃ t u, exec (.shr .b .one .always) s = .next t ∧ exec (.shrc .a .one .always) t = .next u ∧
      2 * (u.regs.b.toNat * 65536 + u.regs.a.toNat) + u.flags.cf.toNat =
        s.regs.b.toNat * 65536 + s.regs.a.toNat := by
  obtain ⟨t, hshr, hhigh, hkeep⟩ := exec_shift_one exec_shr (r := .b) (by decide) s
  obtain ⟨u, hshrc, hlow, hkeep'⟩ := exec_shift_one exec_shrc (r := .a) (by decide) t
  have ha : t.regs.a = s.regs.a := hkeep .a (by decide) (by decide)
  have hb : u.regs.b = t.regs.b := hkeep' .b (by decide) (by decide)
  have hout : 2 * t.regs.b.toNat + t.flags.cf.toNat = s.regs.b.toNat := toNat_shrWord_one hhigh
  have hin : 2 * u.regs.a.toNat + u.flags.cf.toNat = t.flags.cf.toNat * 65536 + t.regs.a.toNat :=
    toNat_shrcWord_one hlow
  refine ⟨t, u, hshr, hshrc, ?_⟩
  rw [hb, ← ha]
  omega

/-! The statements. -/

/-- Settles O18: both words are the library's rotations, which the laws above undo and exchange. -/
theorem rotatesTurnTheWord : Obligations.RotatesTurnTheWord := by
  refine ⟨computesZS_of_rotate exec_rotl fun x n => rotlWord_eq_rotateLeft x,
    computesZS_of_rotate exec_rotr fun x n => rotrWord_eq_rotateRight x, fun x n h => ?_⟩
  rw [rotlWord_eq_rotateLeft x h, rotrWord_eq_rotateRight x h, rotrWord_eq_rotateRight _ h, rotlWord_eq_rotateLeft _ h,
    rotlWord_eq_rotateLeft x (Nat.mod_lt _ (by omega)), BitVec.rotateLeft_mod_eq_rotateLeft]
  exact ⟨rotateRight_rotateLeft x h, rotateLeft_rotateRight x h, rotateRight_eq_rotateLeft x h⟩

/-- Settles O19: each closed form is the library's shift, with the last bit out as its carry. -/
theorem shiftsMoveTheWord : Obligations.ShiftsMoveTheWord :=
  ⟨shiftsTo_of_issue exec_shl shlWord_eq, shiftsTo_of_issue exec_shr shrWord_eq,
    shiftsTo_of_issue exec_shra shraWord_eq⟩

/-- Settles O20: the two closed forms split the stated 17-bit values, and a chain of two single-bit shifts passes the
bit between the words through the carry. -/
theorem shiftsThroughCarryRotateSeventeenBits : Obligations.ShiftsThroughCarryRotateSeventeenBits :=
  ⟨shiftsCarryTo_shlc, shiftsCarryTo_shrc, fun cf x => ⟨shlcWord_one cf x, shrcWord_one cf x⟩,
    fun s => ⟨exec_shl_shlc s, exec_shr_shrc s⟩⟩

/-- Settles O50: by induction on the count each closed form is its repeated step, and the instructions use the closed
forms. -/
theorem shiftsAreRepeatedSingleSteps : Obligations.ShiftsAreRepeatedSingleSteps := by
  refine ⟨fun cf x n h => ⟨shlWord_eq_steps cf x h, shrWord_eq_steps cf x h, shraWord_eq_steps cf x h,
    shlcWord_eq_steps cf x h, shrcWord_eq_steps cf x h⟩, ?_⟩
  simp only [List.forall_mem_cons]
  exact ⟨executesSteps_of_issue exec_shl shlWord_eq_steps, executesSteps_of_issue exec_shr shrWord_eq_steps,
    executesSteps_of_issue exec_shra shraWord_eq_steps, executesSteps_of_issue exec_shlc shlcWord_eq_steps,
    executesSteps_of_issue exec_shrc shrcWord_eq_steps, fun _ h => absurd h List.not_mem_nil⟩

end Sys2Proof.Machine
end

section
/-! SUPPORT. The arithmetic family (46_arithmetic.md R134 to R141): what the add and subtract forms leave, an
instruction issued with one of them, and two instructions chained through the carry to 32 bits; settles O21, O22 and
O23. -/

namespace Sys2Proof.Machine

/-! The add and subtract forms (R134). -/

section Forms
variable {x y v : Word} {c : Bool} {t : State}

/-- A state whose flags are those of the add form holds the add form's sum as its result. -/
theorem isAddResult_of_flags_eq (h : t.flags = (addForm x y c).2) : IsAddResult x y c (addForm x y c).1 t := by
  refine ⟨BitVec.toNat_ofNat .., by rw [h, addForm], ?_, ?_, ?_⟩
  · simp only [h, addForm, BitVec.msb_eq_getLsbD_last]
  · rw [h, addForm, beq_eq_decide]
  · rw [h, addForm, BitVec.msb_eq_getLsbD_last]

/-- A state whose flags are those of the subtract form holds the subtract form's difference as its result. -/
theorem isSubResult_of_flags_eq (h : t.flags = (subForm x y c).2) : IsSubResult x y c (subForm x y c).1 t := by
  refine ⟨?_, by rw [h, subForm], ?_, ?_, ?_⟩
  · rw [subForm, BitVec.toNat_ofInt, Int.toNat_of_nonneg (Int.emod_nonneg _ (by decide))]
    rfl
  · simp only [h, subForm, BitVec.msb_eq_getLsbD_last]
  · rw [h, subForm, beq_eq_decide]
  · rw [h, subForm, BitVec.msb_eq_getLsbD_last]

/-- The carry out and the word are together the whole sum: two words and a carry need no more than 17 bits. -/
theorem IsAddResult.toNat_eq (h : IsAddResult x y c v t) :
    t.flags.cf.toNat * 65536 + v.toNat = x.toNat + y.toNat + c.toNat := by
  obtain ⟨hword, hcf, _⟩ := h
  have hx := x.isLt
  have hy := y.isLt
  have hc := c.toNat_le
  by_cases hcarry : 65536 ≤ x.toNat + y.toNat + c.toNat
  · rw [hcf, decide_eq_true hcarry, Bool.toNat_true]
    omega
  · rw [hcf, decide_eq_false hcarry, Bool.toNat_false]
    omega

/-- The difference and what was taken away make up the minuend and the borrow out. -/
theorem IsSubResult.toNat_eq (h : IsSubResult x y c v t) :
    v.toNat + y.toNat + c.toNat = x.toNat + t.flags.cf.toNat * 65536 := by
  obtain ⟨hword, hcf, _⟩ := h
  have hx := x.isLt
  have hy := y.isLt
  have hc := c.toNat_le
  by_cases hborrow : (x.toNat : Int) - y.toNat - c.toNat < 0
  · rw [hcf, decide_eq_true hborrow, Bool.toNat_true]
    omega
  · rw [hcf, decide_eq_false hborrow, Bool.toNat_false]
    omega

end Forms

/-! The instructions. -/

/-- An instruction issued with a form of `x[a1]`, `A2` and a carry leaves the form of what the execute phase reads, in
`x[a1]` and in the flags. -/
theorem writesForm_of_issue {mk : Reg → Operand → Cond → Instr} {form : Word → Word → Bool → Word × Flags}
    {carry : State → Bool}
    (hexec : ∀ r o cc s, exec (mk r o cc) s =
      issue o cc (fun p => writeRegFlags r (form (readReg r p) (operandValue o p) (carry p)) p) s)
    (hcarry : ∀ o s, carry (advance o s) = carry s) {cc : Cond} {s : State} (hcond : condHolds cc s = true) (r : Reg)
    (o : Operand) :
    ∃ t, exec (mk r o cc) s = .next t ∧
      WritesRegFlags o r (form (phaseReg o s r) (operandValue o s) (carry s)).1
        (form (phaseReg o s r) (operandValue o s) (carry s)).2 0 s t := by
  rw [hexec]
  exact issue_writesRegFlags hcond (by simp [hcarry])

/-- An instruction issued with the add form adds (R135, R136). -/
theorem addsTo_of_issue {mk : Reg → Operand → Cond → Instr} {carry : State → Bool}
    (hexec : ∀ r o cc s, exec (mk r o cc) s =
      issue o cc (fun p => writeRegFlags r (addForm (readReg r p) (operandValue o p) (carry p)) p) s)
    (hcarry : ∀ o s, carry (advance o s) = carry s) : AddsTo mk carry := by
  intro r o cc s hcond
  obtain ⟨t, hnext, hreg, hregs, hflags, hframe⟩ := writesForm_of_issue hexec hcarry hcond r o
  exact ⟨t, hnext, hreg ▸ isAddResult_of_flags_eq hflags, hregs, hframe⟩

/-- An instruction issued with the subtract form subtracts, whichever of `x[a1]` and `A2` is the minuend (R137, R138,
R140, R141). -/
theorem subtractsTo_of_issue {mk : Reg → Operand → Cond → Instr} {minuend subtrahend : Word → Word → Word}
    {borrow : State → Bool}
    (hexec : ∀ r o cc s, exec (mk r o cc) s =
      issue o cc (fun p => writeRegFlags r (subForm (minuend (readReg r p) (operandValue o p))
        (subtrahend (readReg r p) (operandValue o p)) (borrow p)) p) s)
    (hborrow : ∀ o s, borrow (advance o s) = borrow s) : SubtractsTo mk minuend subtrahend borrow := by
  intro r o cc s hcond
  obtain ⟨t, hnext, hreg, hregs, hflags, hframe⟩ :=
    writesForm_of_issue (form := fun x y => subForm (minuend x y) (subtrahend x y)) hexec hborrow hcond r o
  exact ⟨t, hnext, hreg ▸ isSubResult_of_flags_eq hflags, hregs, hframe⟩

theorem addsTo_add : AddsTo .add (fun _ => false) := addsTo_of_issue exec_add fun _ _ => rfl

theorem addsTo_addc : AddsTo .addc (fun s => s.flags.cf) := addsTo_of_issue exec_addc fun _ _ => rfl

theorem subtractsTo_sub : SubtractsTo .sub (fun x _ => x) (fun _ y => y) (fun _ => false) :=
  subtractsTo_of_issue exec_sub fun _ _ => rfl

theorem subtractsTo_subb : SubtractsTo .subb (fun x _ => x) (fun _ y => y) (fun s => s.flags.cf) :=
  subtractsTo_of_issue exec_subb fun _ _ => rfl

theorem subtractsTo_sbbr : SubtractsTo .sbbr (fun _ y => y) (fun x _ => x) (fun s => s.flags.cf) :=
  subtractsTo_of_issue exec_sbbr fun _ _ => rfl

theorem subtractsTo_subr : SubtractsTo .subr (fun _ y => y) (fun x _ => x) (fun _ => false) :=
  subtractsTo_of_issue exec_subr fun _ _ => rfl

/-- `COMP` writes the flags of the subtract form, and no register (R139). -/
theorem exec_comp_writesFlags {s : State} {cc : Cond} (hcond : condHolds cc s = true) (r : Reg) (o : Operand) :
    ∃ t, exec (.comp r o cc) s = .next t ∧
      WritesFlags o (subForm (phaseReg o s r) (operandValue o s) false).2 s t :=
  issue_writesFlags hcond (by simp)

/-! Chains of two words: the low words first, then the high words with the carry or borrow of the low ones. -/

/-- `ADD` of the low words, then `ADDC` of the high words (R135, R136). -/
theorem exec_add_addc (s : State) :
    ∃ t u, exec (.add .a .regC .always) s = .next t ∧ exec (.addc .b .regD .always) t = .next u ∧
      u.flags.cf.toNat * 2 ^ 32 + u.regs.b.toNat * 65536 + u.regs.a.toNat =
        (s.regs.b.toNat * 65536 + s.regs.a.toNat) + (s.regs.d.toNat * 65536 + s.regs.c.toNat) := by
  obtain ⟨t, hadd, hlow, hkeeps, _⟩ := addsTo_add .a .regC .always s rfl
  obtain ⟨u, haddc, hhigh, hkeeps', _⟩ := addsTo_addc .b .regD .always t rfl
  have hb : t.regs.b = s.regs.b := hkeeps .b (by decide)
  have hd : t.regs.d = s.regs.d := hkeeps .d (by decide)
  have ha : u.regs.a = t.regs.a := hkeeps' .a (by decide)
  have hout : t.flags.cf.toNat * 65536 + t.regs.a.toNat = s.regs.a.toNat + s.regs.c.toNat := hlow.toNat_eq
  have hin : u.flags.cf.toNat * 65536 + u.regs.b.toNat = t.regs.b.toNat + t.regs.d.toNat + t.flags.cf.toNat :=
    hhigh.toNat_eq
  refine ⟨t, u, hadd, haddc, ?_⟩
  rw [ha, ← hb, ← hd]
  linarith

/-- `SUB` of the low words, then `SUBB` of the high words (R137, R138). -/
theorem exec_sub_subb (s : State) :
    ∃ t u, exec (.sub .a .regC .always) s = .next t ∧ exec (.subb .b .regD .always) t = .next u ∧
      u.regs.b.toNat * 65536 + u.regs.a.toNat + (s.regs.d.toNat * 65536 + s.regs.c.toNat) =
        s.regs.b.toNat * 65536 + s.regs.a.toNat + u.flags.cf.toNat * 2 ^ 32 := by
  obtain ⟨t, hsub, hlow, hkeeps, _⟩ := subtractsTo_sub .a .regC .always s rfl
  obtain ⟨u, hsubb, hhigh, hkeeps', _⟩ := subtractsTo_subb .b .regD .always t rfl
  have hb : t.regs.b = s.regs.b := hkeeps .b (by decide)
  have hd : t.regs.d = s.regs.d := hkeeps .d (by decide)
  have ha : u.regs.a = t.regs.a := hkeeps' .a (by decide)
  have hout : t.regs.a.toNat + s.regs.c.toNat = s.regs.a.toNat + t.flags.cf.toNat * 65536 := hlow.toNat_eq
  have hin : u.regs.b.toNat + t.regs.d.toNat + t.flags.cf.toNat = t.regs.b.toNat + u.flags.cf.toNat * 65536 :=
    hhigh.toNat_eq
  refine ⟨t, u, hsub, hsubb, ?_⟩
  rw [ha, ← hb, ← hd]
  linarith

/-! The statements. -/

/-- Settles O21: both are the add form with their own carry in, and a chain passes the carry of the low words on. -/
theorem addsGiveSumAndFlags : Obligations.AddsGiveSumAndFlags := ⟨addsTo_add, addsTo_addc, exec_add_addc⟩

/-- Settles O22: the four are the subtract form with their own minuend and borrow in, and a chain passes the borrow of
the low words on. -/
theorem subtractsGiveDifferenceAndFlags : Obligations.SubtractsGiveDifferenceAndFlags :=
  ⟨subtractsTo_sub, subtractsTo_subb, subtractsTo_sbbr, subtractsTo_subr, exec_sub_subb⟩

/-- Settles O23: `COMP` and `SUB` take their flags from one subtract form, and `COMP` writes nothing else. -/
theorem compSetsSubtractFlagsOnly : Obligations.CompSetsSubtractFlagsOnly := by
  intro r o cc s hcond
  obtain ⟨t, hcomp, hflags, hframe⟩ := exec_comp_writesFlags hcond r o
  obtain ⟨u, hsub, _, _, hflags', _⟩ := writesForm_of_issue exec_sub (fun _ _ => rfl) hcond r o
  exact ⟨t, u, _, hcomp, isSubResult_of_flags_eq hflags, hsub, hflags.trans hflags'.symm, hframe⟩

end Sys2Proof.Machine
end

section
/-! SUPPORT. The I/O, device query and pattern register family (47_io_query_pattern.md R143 to R148): the effect of an
input read, of a write of the output latch and of a write of the pattern registers, the query being a register write;
settles O24 to O27. -/

namespace Sys2Proof.Machine

/-! The effects. -/

/-- The whole effect, but for the supplier's own state, of an instruction that reads the input word `v` into `x[r]`
(R145). -/
def ReadsInput (o : Operand) (r : Reg) (v : Word) (s t : State) : Prop :=
  readReg r t = v ∧ SetsZS v s t ∧ KeepsRegs o [r] s t ∧ KeepsMemory s t ∧ KeepsPatterns s t ∧ KeepsOutput s t ∧
    KeepsControl s t ∧ Counts o 0 s t

/-- The call of the supplier, between `ip` moving on and the writes, shows in the supplier's own state only. -/
theorem readsInput_retire (o : Operand) (r : Reg) (v : Word) (s : State) :
    ReadsInput o r v s (retire (writeRegZS r v (callInput (advance o s)))) := by
  have hregs : KeepsRegs o [] s (writeFlags (setZS v s.flags) (callInput (advance o s))) :=
    keepsRegs_of_regs_eq (by simp) []
  refine ⟨by simp, setsZS_of_flags_eq (by simp), ?_, keepsMemory_of_mem_eq (by simp), ⟨by simp, by simp⟩,
    ⟨by simp, by simp⟩, ⟨by simp, by simp⟩, by simp [Counts]⟩
  rw [keepsRegs_retire, writeRegZS_eq, callInput_flags, advance_flags]
  exact hregs.writeReg r v

/-- `IN` reads the supplier's word as it stands before the step: moving `ip` on draws nothing (R145). -/
theorem exec_inp_readsInput {s : State} {cc : Cond} (hcond : condHolds cc s = true) (r : Reg) (o : Operand) :
    ∃ t, exec (.inp r o cc) s = .next t ∧ ReadsInput o r (inputValue s) s t := by
  rw [exec_inp, issue_of_holds hcond, inputValue_advance]
  exact ⟨_, rfl, readsInput_retire o r (inputValue s) s⟩

/-- The whole effect of an instruction that writes `v` to the output latch (R144). -/
def WritesOut (o : Operand) (v : Word) (s t : State) : Prop :=
  t.out = v ∧ t.outChanged = true ∧ KeepsRegs o [] s t ∧ t.flags = s.flags ∧ KeepsMemory s t ∧ KeepsPatterns s t ∧
    KeepsInput s t ∧ KeepsControl s t ∧ Counts o 0 s t

theorem writesOut_retire (o : Operand) (v : Word) (s : State) :
    WritesOut o v s (retire (writeOut v (advance o s))) :=
  ⟨rfl, rfl, keepsRegs_of_regs_eq rfl [], rfl, keepsMemory_of_mem_eq rfl, ⟨rfl, rfl⟩, ⟨rfl, rfl⟩, ⟨rfl, rfl⟩,
    by simp [Counts]⟩

/-- The whole effect of an instruction that leaves `x` in `tpat` and `y` in `fpat` (R147, R148). -/
def LeavesPatterns (o : Operand) (x y : Word) (s t : State) : Prop :=
  t.tpat = x ∧ t.fpat = y ∧ KeepsRegs o [] s t ∧ t.flags = s.flags ∧ KeepsMemory s t ∧ KeepsOutput s t ∧
    KeepsInput s t ∧ KeepsControl s t ∧ Counts o 0 s t

theorem leavesPatterns_retire (o : Operand) (x y : Word) (s : State) :
    LeavesPatterns o x y s (retire (withPatterns x y (advance o s))) :=
  ⟨rfl, rfl, keepsRegs_of_regs_eq rfl [], rfl, keepsMemory_of_mem_eq rfl, ⟨rfl, rfl⟩, ⟨rfl, rfl⟩, ⟨rfl, rfl⟩,
    by simp [Counts, withPatterns]⟩

/-- An issued operation that leaves these values in the pattern registers, where the condition holds. -/
theorem issue_leavesPatterns {o : Operand} {cc : Cond} {body : State → State} {s : State} {x y : Word}
    (hcond : condHolds cc s = true) (hbody : body (advance o s) = withPatterns x y (advance o s)) :
    ∃ t, issue o cc body s = .next t ∧ LeavesPatterns o x y s t :=
  ⟨_, issue_of_holds hcond, hbody ▸ leavesPatterns_retire o x y s⟩

theorem exec_settpat_leavesPatterns {s : State} {cc : Cond} (hcond : condHolds cc s = true) (r : Reg) (o : Operand) :
    ∃ t, exec (.settpat r o cc) s = .next t ∧ LeavesPatterns o (operandValue o s) s.fpat s t :=
  issue_leavesPatterns hcond (by rw [operandValue_advance]; rfl)

theorem exec_setfpat_leavesPatterns {s : State} {cc : Cond} (hcond : condHolds cc s = true) (r : Reg) (o : Operand) :
    ∃ t, exec (.setfpat r o cc) s = .next t ∧ LeavesPatterns o s.tpat (operandValue o s) s t :=
  issue_leavesPatterns hcond (by rw [operandValue_advance]; rfl)

/-! The statements. -/

/-- Settles O25: `IN` leaves the input word in `x[a1]`, which is 0 without a supplier and else the low 16 bits of the
supplier's integer. -/
theorem inReadsSupplier : Obligations.InReadsSupplier := by
  intro r o cc s hcond
  obtain ⟨t, hexec, hreg, hzs, hframe⟩ := exec_inp_readsInput hcond r o
  refine ⟨t, hexec, fun hnone => ?_, fun v hsome => ?_, hreg ▸ hzs, hframe⟩
  · rw [hreg, inputValue_of_none hnone]
  · rw [hreg, inputValue_of_some hsome]

/-- Settles O24: `OUT` is a write of the latch, whose one-shot flag does not look at the old value. -/
theorem outWritesLatch : Obligations.OutWritesLatch := by
  intro r o cc s hcond
  rw [exec_out, issue_of_holds hcond, operandValue_advance]
  exact ⟨_, rfl, writesOut_retire o (operandValue o s) s⟩

/-- Settles O26: `QERY` is a register write without a memory access, whatever the table. -/
theorem qeryReadsTable : Obligations.QeryReadsTable := by
  intro r o cc s hcond
  rw [exec_qery]
  exact issue_writesReg hcond (by simp)

/-- Settles O27: each of the two leaves its own pattern at `A2` and the other as it was. -/
theorem patternOperationsSetPatterns : Obligations.PatternOperationsSetPatterns := by
  intro r o cc s hcond
  obtain ⟨u, hsetfpat, htpat, hfpat, hframe⟩ := exec_setfpat_leavesPatterns hcond r o
  exact ⟨exec_settpat_leavesPatterns hcond r o, u, hsetfpat, hfpat, htpat, hframe⟩

end Sys2Proof.Machine
end

section
/-! SUPPORT. The exception (60_exceptions.md R151, R152): a property that every single update of the state keeps is
kept by every valid instruction, so none of them enters the error state, and an unbound opcode alone does; settles
O28. -/

namespace Sys2Proof.Machine

/-! Properties kept by every update an instruction is made of. -/

/-- Each single update of the state that the operations are composed of, and the two counters' growth, keeps `P`. -/
structure KeptByUpdates (P : State → Prop) : Prop where
  writeReg {s : State} {r : Reg} {v : Word} : P s → P (writeReg r v s)
  addCycles {s : State} {n : Nat} : P s → P (addCycles n s)
  memWrite {s : State} {a v : Word} : P s → P (memWrite a v s)
  writeFlags {s : State} {f : Flags} : P s → P (writeFlags f s)
  writeTpat {s : State} {v : Word} : P s → P (writeTpat v s)
  writeFpat {s : State} {v : Word} : P s → P (writeFpat v s)
  writeOut {s : State} {v : Word} : P s → P (writeOut v s)
  callInput {s : State} : P s → P (callInput s)
  retire {s : State} : P s → P (retire s)

namespace KeptByUpdates

variable {P : State → Prop} (hP : KeptByUpdates P) {s : State}
include hP

theorem advance {o : Operand} (hs : P s) : P (advance o s) := hP.writeReg (hP.addCycles hs)

theorem loadReg {r : Reg} {a : Word} (hs : P s) : P (loadReg r a s) := hP.writeReg (hP.addCycles hs)

theorem swapReg {r : Reg} {a : Word} (hs : P s) : P (swapReg r a s) :=
  hP.writeReg (hP.memWrite (hP.addCycles hs))

theorem push {v : Word} (hs : P s) : P (push v s) := push_eq v s ▸ hP.writeReg (hP.memWrite hs)

theorem popReg {r : Reg} (hs : P s) : P (popReg r s) := hP.writeReg (hP.writeReg (hP.addCycles hs))

theorem exchangeRegs {r q : Reg} (hs : P s) : P (exchangeRegs r q s) := hP.writeReg (hP.writeReg hs)

theorem writeRegZS {r : Reg} {v : Word} (hs : P s) : P (writeRegZS r v s) := hP.writeReg (hP.writeFlags hs)

theorem writeRegFlags {r : Reg} {v : Word × Flags} (hs : P s) : P (writeRegFlags r v s) :=
  hP.writeReg (hP.writeFlags hs)

theorem shift {f : Bool → Word → Nat → Bool × Word} {r : Reg} {o : Operand} (hs : P s) : P (shift f r o s) :=
  hP.writeRegZS (hP.writeFlags hs)

/-- An issue keeps what its body keeps, whether or not the condition holds. -/
theorem issue {body : State → State} (hbody : ∀ {p}, P p → P (body p)) (o : Operand) (cc : Cond) (hs : P s) :
    ∃ t, issue o cc body s = .next t ∧ P t := by
  refine ⟨_, issue_next .., hP.retire ?_⟩
  split
  · exact hbody (hP.advance hs)
  · exact hP.advance hs

/-- Every instruction but the invalid one is composed of these updates. -/
theorem exec {i : Instr} (hop : i.op ≠ none) (hs : P s) : ∃ t, exec i s = .next t ∧ P t := by
  cases i with
  | invalid k r o cc => exact absurd rfl hop
  | set r o cc => exact exec_set r o cc s ▸ hP.issue hP.writeReg o cc hs
  | ld r o cc => exact exec_ld r o cc s ▸ hP.issue hP.loadReg o cc hs
  | st r o cc => exact exec_st r o cc s ▸ hP.issue hP.memWrite o cc hs
  | sti r o cc => exact exec_sti r o cc s ▸ hP.issue hP.memWrite o cc hs
  | jump r o cc => exact exec_jump r o cc s ▸ hP.issue hP.writeReg o cc hs
  | rdflags r o cc => exact exec_rdflags r o cc s ▸ hP.issue hP.writeReg o cc hs
  | wrflags r o cc => exact exec_wrflags r o cc s ▸ hP.issue hP.writeFlags o cc hs
  | pushr r o cc => exact exec_pushr r o cc s ▸ hP.issue hP.push o cc hs
  | pushv r o cc => exact exec_pushv r o cc s ▸ hP.issue hP.push o cc hs
  | pop r o cc => exact exec_pop r o cc s ▸ hP.issue hP.popReg o cc hs
  | call r o cc => exact exec_call r o cc s ▸ hP.issue (fun hp => hP.writeReg (hP.push hp)) o cc hs
  | ret r o cc => exact exec_ret r o cc s ▸ hP.issue hP.popReg o cc hs
  | ldfp r o cc => exact exec_ldfp r o cc s ▸ hP.issue hP.loadReg o cc hs
  | stfp r o cc => exact exec_stfp r o cc s ▸ hP.issue hP.memWrite o cc hs
  | ldsp r o cc => exact exec_ldsp r o cc s ▸ hP.issue hP.loadReg o cc hs
  | stsp r o cc => exact exec_stsp r o cc s ▸ hP.issue hP.memWrite o cc hs
  | swapfp r o cc => exact exec_swapfp r o cc s ▸ hP.issue hP.swapReg o cc hs
  | swapsp r o cc => exact exec_swapsp r o cc s ▸ hP.issue hP.swapReg o cc hs
  | xchg r o cc => exact exec_xchg r o cc s ▸ hP.issue hP.exchangeRegs o cc hs
  | and r o cc => exact exec_and r o cc s ▸ hP.issue hP.writeRegZS o cc hs
  | nand r o cc => exact exec_nand r o cc s ▸ hP.issue hP.writeRegZS o cc hs
  | or r o cc => exact exec_or r o cc s ▸ hP.issue hP.writeRegZS o cc hs
  | nor r o cc => exact exec_nor r o cc s ▸ hP.issue hP.writeRegZS o cc hs
  | xor r o cc => exact exec_xor r o cc s ▸ hP.issue hP.writeRegZS o cc hs
  | xnor r o cc => exact exec_xnor r o cc s ▸ hP.issue hP.writeRegZS o cc hs
  | not r o cc => exact exec_not r o cc s ▸ hP.issue hP.writeRegZS o cc hs
  | test r o cc => exact exec_test r o cc s ▸ hP.issue hP.writeFlags o cc hs
  | cmpeq r o cc => exact exec_cmpeq r o cc s ▸ hP.issue hP.writeReg o cc hs
  | cmpne r o cc => exact exec_cmpne r o cc s ▸ hP.issue hP.writeReg o cc hs
  | rotl r o cc => exact exec_rotl r o cc s ▸ hP.issue hP.writeRegZS o cc hs
  | rotr r o cc => exact exec_rotr r o cc s ▸ hP.issue hP.writeRegZS o cc hs
  | shl r o cc => exact exec_shl r o cc s ▸ hP.issue hP.shift o cc hs
  | shlc r o cc => exact exec_shlc r o cc s ▸ hP.issue hP.shift o cc hs
  | shr r o cc => exact exec_shr r o cc s ▸ hP.issue hP.shift o cc hs
  | shrc r o cc => exact exec_shrc r o cc s ▸ hP.issue hP.shift o cc hs
  | shra r o cc => exact exec_shra r o cc s ▸ hP.issue hP.shift o cc hs
  | add r o cc => exact exec_add r o cc s ▸ hP.issue hP.writeRegFlags o cc hs
  | addc r o cc => exact exec_addc r o cc s ▸ hP.issue hP.writeRegFlags o cc hs
  | sub r o cc => exact exec_sub r o cc s ▸ hP.issue hP.writeRegFlags o cc hs
  | subb r o cc => exact exec_subb r o cc s ▸ hP.issue hP.writeRegFlags o cc hs
  | comp r o cc => exact exec_comp r o cc s ▸ hP.issue hP.writeFlags o cc hs
  | sbbr r o cc => exact exec_sbbr r o cc s ▸ hP.issue hP.writeRegFlags o cc hs
  | subr r o cc => exact exec_subr r o cc s ▸ hP.issue hP.writeRegFlags o cc hs
  | out r o cc => exact exec_out r o cc s ▸ hP.issue hP.writeOut o cc hs
  | inp r o cc => exact exec_inp r o cc s ▸ hP.issue (fun hp => hP.writeRegZS (hP.callInput hp)) o cc hs
  | qery r o cc => exact exec_qery r o cc s ▸ hP.issue hP.writeReg o cc hs
  | settpat r o cc => exact exec_settpat r o cc s ▸ hP.issue hP.writeTpat o cc hs
  | setfpat r o cc => exact exec_setfpat r o cc s ▸ hP.issue hP.writeFpat o cc hs

end KeptByUpdates

/-! The error flag. -/

/-- Only the exception sets the error flag: no update an operation is made of does (R25). -/
theorem keptByUpdates_error : KeptByUpdates (fun s => s.error = false) where
  writeReg := (writeReg_error ..).trans
  addCycles := (addCycles_error ..).trans
  memWrite := (memWrite_error ..).trans
  writeFlags := (writeFlags_error ..).trans
  writeTpat := (writeTpat_error ..).trans
  writeFpat := (writeFpat_error ..).trans
  writeOut := (writeOut_error ..).trans
  callInput := (callInput_error ..).trans
  retire := (retire_error ..).trans

/-- The fetched instruction has the operation that the map in force binds to bits 15 to 10 of the word at `ip`
(R55, R61). -/
theorem fetchInstr_op (s : State) :
    (fetchInstr s).op = s.opcodeMap.lookup ((readWord s.mem s.regs.ip).extractLsb' 10 6) :=
  decodeWith_op ..

/-- A running step at an unbound opcode raises the exception at the state with `out_changed` cleared (R73, R152). -/
theorem step_of_op_none {s : State} (herror : s.error = false) (hop : (fetchInstr s).op = none) :
    step s = .next (raiseInvalidOpcode (beginStep s)) :=
  (step_of_running herror).trans (exec_of_op_none hop _)

/-- A running step at a bound opcode keeps the machine running. -/
theorem step_of_op_ne_none {s : State} (herror : s.error = false) (hop : (fetchInstr s).op ≠ none) :
    ∃ t, step s = .next t ∧ t.error = false := by
  rw [step_of_running herror]
  exact keptByUpdates_error.exec hop herror

/-- The opcodes FM leaves unbound: a finite fact about a table of 64 entries. -/
theorem fixtureMap_lookup_eq_none_iff : ∀ k : BitVec 6, fixtureMap.lookup k = none ↔ k.toNat = 0 ∨ 49 ≤ k.toNat := by
  decide

/-- Settles O28: a running step looks at the opcode field alone to decide between the exception and an operation,
and no operation touches the error flag. -/
theorem invalidOpcodeEntersErrorState : Obligations.InvalidOpcodeEntersErrorState := by
  refine ⟨exec_invalid, fun s herror => ?_, fixtureMap_lookup_eq_none_iff⟩
  rw [← fetchInstr_op]
  exact ⟨step_of_op_none herror, step_of_op_ne_none herror⟩

end Sys2Proof.Machine
end

section
/-! SUPPORT. Decoding an encoding (30_encoding.md R46, R47, R55, R61): the opcode an instruction is encoded with is one
the map binds to its operation, so the packed word decodes back field by field; settles O34, and O37 by decoding the
spec's own words. -/

namespace Sys2Proof

/-- The number the search finds, counted from `k`, is a place in the table that holds the operation. -/
theorem getElem?_of_opcodeFrom {op : Op} {table : List (Option Op)} {k : Nat} {code : BitVec 6}
    (h : opcodeFrom op k table = some code) (hfits : k + table.length ≤ 64) :
    ∃ j, code.toNat = k + j ∧ table[j]? = some (some op) := by
  induction table generalizing k with
  | nil => cases h
  | cons x rest ih =>
    rw [List.length_cons] at hfits
    by_cases hx : x = some op
    · obtain rfl : BitVec.ofNat 6 k = code := Option.some.inj ((if_pos hx).symm.trans h)
      exact ⟨0, by rw [BitVec.toNat_ofNat]; omega, by rw [hx, List.getElem?_cons_zero]⟩
    · obtain ⟨j, hcode, hj⟩ := ih ((if_neg hx).symm.trans h) (by omega)
      exact ⟨j + 1, by omega, by rw [List.getElem?_cons_succ, hj]⟩

theorem lookup_of_opcodeFrom {m : OpcodeMap} {op : Op} {code : BitVec 6}
    (h : opcodeFrom op 0 m.toList = some code) : m.lookup code = some op := by
  obtain ⟨j, hcode, hj⟩ := getElem?_of_opcodeFrom h (by simp)
  obtain rfl : code.toNat = j := by omega
  rw [Vector.getElem?_toList, Vector.getElem?_eq_getElem code.isLt] at hj
  exact Option.some.inj hj

/-- The map gives an encoded opcode back its operation, and an unbound one none (R55). -/
theorem lookup_of_instrOpcode {m : OpcodeMap} {i : Instr} {code : BitVec 6} (hwf : WellFormed m i = true)
    (h : instrOpcode m i = some code) : m.lookup code = i.op := by
  cases hop : i.op with
  | none =>
    obtain ⟨k, hk⟩ := eq_invalid_of_op hop
    rw [hk] at hwf h
    obtain rfl : k = code := Option.some.inj h
    exact Option.isNone_iff_eq_none.mp hwf
  | some op => exact lookup_of_opcodeFrom ((instrOpcode_of_op hop m).symm.trans h)

/-- An instruction is its operation with its three fields (R60). -/
theorem eq_instrOf {i : Instr} {op : Op} (h : i.op = some op) : i = instrOf op i.arg1 i.arg2 i.cond := by
  cases i with
  | invalid k r o cc => exact Laws.Rebuild.invalid k r o cc op h
  | _ => cases h; rfl

/-- The word of an instruction, with its immediate after it, decodes to the instruction (R46, R61). -/
theorem decodeWith_packWord {m : OpcodeMap} {i : Instr} {code : BitVec 6} (hwf : WellFormed m i = true)
    (hcode : instrOpcode m i = some code) {next : Word} (hnext : ∀ w, operandImm i.arg2 = some w → next = w) :
    decodeWith m (packWord ⟨code, regCode i.arg1, operandCode i.arg2, condCode i.cond⟩) next = i := by
  have hlookup := lookup_of_instrOpcode hwf hcode
  have himm : (if operandCode i.arg2 = 7 then some next else none) = operandImm i.arg2 := by
    cases harg2 : i.arg2 with
    | imm w => rw [hnext w (by rw [harg2]; rfl)]; rfl
    | _ => rfl
  have hrecord : decodeRecord m (packWord ⟨code, regCode i.arg1, operandCode i.arg2, condCode i.cond⟩) next =
      ⟨i.op, code, regCode i.arg1, operandCode i.arg2, condCode i.cond, operandImm i.arg2⟩ := by
    simp only [decodeRecord, hasImmediate, fieldsOf_packWord, decide_eq_true_eq, hlookup, ← himm]
    rfl
  simp only [decodeWith, hrecord, instrOfDecoded, regOfCode_regCode, operandOfCode_operandCode, condOfCode_condCode]
  cases hop : i.op with
  | none =>
    obtain ⟨k, hk⟩ := eq_invalid_of_op hop
    have hk' : k = code := Option.some.inj ((congrArg (instrOpcode m) hk).symm.trans hcode)
    exact hk' ▸ hk.symm
  | some op => exact (eq_instrOf hop).symm

theorem hasImmediate_packWord (f : Fields) : hasImmediate (packWord f) = decide (f.arg2 = 7) := by
  rw [hasImmediate, fieldsOf_packWord]
  rfl

/-- A word that brings no immediate decodes alone, whether or not words follow it (R47). -/
theorem decode_of_not_hasImmediate {m : OpcodeMap} {w : Word} {i : Instr} (hlen : hasImmediate w = false)
    (hi : ∀ next, decodeWith m w next = i) (rest : List Word) : decode m (w :: rest) = .ok (i, rest) := by
  cases rest with
  | nil => simp [decode, hlen, hi]
  | cons next rest => simp [decode_cons_cons, hlen, hi]

end Sys2Proof

namespace Sys2Proof.Machine

/-- Settles O34, by the length of the encoding: an immediate word is the second word of it, and without one nothing
after the first word matters. -/
theorem decodeOfEncodeIsInstruction : Obligations.DecodeOfEncodeIsInstruction := by
  intro m i rest hwf
  obtain ⟨code, hcode⟩ := exists_instrOpcode hwf
  rw [encode_of_instrOpcode hcode]
  cases himm : operandImm i.arg2 with
  | none =>
    have hlen : operandCode i.arg2 ≠ 7 := fun h7 => by
      simpa [himm, (operandCode_eq_seven _).mp h7] using length_operandImm i.arg2
    refine decode_of_not_hasImmediate ?_ (fun next => decodeWith_packWord hwf hcode (by simp [himm])) rest
    rw [hasImmediate_packWord, decide_eq_false hlen]
  | some w =>
    have hlen : operandCode i.arg2 = 7 := (operandCode_eq_seven _).mpr (by simp [← length_operandImm, himm])
    simp only [Option.toList_some, List.cons_append, List.nil_append, decode_cons_cons, hasImmediate_packWord, hlen,
      decide_true, if_true]
    rw [← hlen, decodeWith_packWord hwf hcode (by simp [himm])]

/-- Settles O37: ten words of the spec, decoded. -/
theorem sampleWordsDecode : Obligations.SampleWordsDecode := by
  unfold Obligations.SampleWordsDecode
  decide

end Sys2Proof.Machine
end

section
/-! SUPPORT. One step and the controller's other actions (40_sequencer.md R67, R68, R84, 60_exceptions.md R155, R161 to
R163): the four outcomes of a step as one case distinction, and the error flag across steps and actions; settles O29,
O32 and O48. -/

namespace Sys2Proof.Machine

/-! The execute phase reads past the cleared `out_changed`. -/

@[simp] theorem condHolds_beginStep (cc : Cond) (s : State) : condHolds cc (beginStep s) = condHolds cc s := by
  cases cc <;> rfl
@[simp] theorem operandValue_beginStep (o : Operand) (s : State) :
    operandValue o (beginStep s) = operandValue o s := by
  cases o <;> rfl
@[simp] theorem phaseReg_beginStep (o : Operand) (s : State) (q : Reg) :
    phaseReg o (beginStep s) q = phaseReg o s q := by
  cases q <;> rfl

/-! A step. -/

/-- The four outcomes of a step from `s` to `t` (R84), each with what it executes. -/
inductive StepCase (s t : State) : Prop where
  | noOp (hkind : stepKind s = .noOp) (herror : s.error = true) (ht : t = s)
  | invalid (hkind : stepKind s = .invalid) (herror : s.error = false) (hop : (fetchInstr s).op = none)
      (ht : t = raiseInvalidOpcode (beginStep s))
  | skipped (hkind : stepKind s = .skipped) (herror : s.error = false) (hop : (fetchInstr s).op ≠ none)
      (hcond : condHolds (fetchInstr s).cond s = false) (hexec : exec (fetchInstr s) (beginStep s) = .next t)
  | executed (hkind : stepKind s = .executed) (herror : s.error = false) (hop : (fetchInstr s).op ≠ none)
      (hcond : condHolds (fetchInstr s).cond s = true) (hexec : exec (fetchInstr s) (beginStep s) = .next t)

theorem stepKind_of_error {s : State} (h : s.error = true) : stepKind s = .noOp := by
  rw [stepKind, if_pos h]

/-- Outside the error state the opcode and the condition decide the outcome (R84). -/
theorem stepKind_of_running {s : State} (h : s.error = false) :
    stepKind s =
      if (fetchInstr s).op = none then .invalid
      else if condHolds (fetchInstr s).cond s then .executed else .skipped := by
  simp only [stepKind, h, Bool.false_eq_true, if_false, condHolds_advance, condHolds_beginStep]
  cases (fetchInstr s).op with
  | none => rfl
  | some op => rfl

/-- All a step can do. -/
theorem step_cases {s t : State} (h : step s = .next t) : StepCase s t := by
  cases herror : s.error with
  | true =>
    rw [step_of_error herror] at h
    cases h
    exact .noOp (stepKind_of_error herror) herror rfl
  | false =>
    have hkind := stepKind_of_running herror
    by_cases hop : (fetchInstr s).op = none
    · rw [step_of_op_none herror hop] at h
      cases h
      exact .invalid (hkind.trans (if_pos hop)) herror hop rfl
    · rw [step_of_running herror] at h
      rw [if_neg hop] at hkind
      cases hcond : condHolds (fetchInstr s).cond s with
      | true => exact .executed (hkind.trans (if_pos hcond)) herror hop hcond h
      | false => exact .skipped (hkind.trans (by rw [hcond]; rfl)) herror hop hcond h

/-- Every step answers a next state. -/
theorem step_next (s : State) : ∃ t, step s = .next t := by
  cases herror : s.error with
  | true => exact ⟨s, step_of_error herror⟩
  | false => exact step_of_running herror ▸ exec_next _ _

/-- A property kept by every update is kept by every valid instruction that answers a state. -/
theorem kept_of_exec {P : State → Prop} (hP : KeptByUpdates P) {i : Instr} {s t : State} (hop : i.op ≠ none)
    (h : exec i s = .next t) (hs : P s) : P t := by
  obtain ⟨t', ht', hPt'⟩ := hP.exec hop hs
  cases h.symm.trans ht'
  exact hPt'

/-- What a valid instruction answers has counted its fetched words and, where the condition holds, its accesses. -/
theorem counts_of_exec {i : Instr} {op : Op} {s t : State} (hop : i.op = some op) (h : exec i s = .next t) :
    Counts i.arg2 (if condHolds i.cond s then memAccesses op else 0) s t := by
  obtain ⟨t', ht', hcounts⟩ := exec_counts hop s
  cases h.symm.trans ht'
  exact hcounts

/-- Settles O29: the two words decode to what the step fetches. -/
theorem stepRunsDecodedInstruction : Obligations.StepRunsDecodedInstruction := by
  intro s i rest herror hdecode
  rw [decode_cons_cons] at hdecode
  cases hdecode
  exact ⟨wellFormed_decodeWith .., step_of_running herror⟩

/-- Settles O32, by the four outcomes. -/
theorem stepOutcomeByKind : Obligations.StepOutcomeByKind := by
  intro s
  obtain ⟨t, hstep⟩ := step_next s
  refine ⟨t, hstep, ?_⟩
  cases step_cases hstep with
  | noOp hkind herror ht =>
    rw [hkind]
    exact ⟨herror, ht⟩
  | invalid hkind herror hop ht =>
    rw [hkind]
    exact ⟨herror, hop, ht⟩
  | skipped hkind herror hop hcond hexec =>
    rw [hkind]
    have hretires := falseConditionOnlyRetires _ (beginStep s) hop ((condHolds_beginStep ..).trans hcond)
    cases hexec.symm.trans hretires
    exact ⟨herror, hop, hcond, rfl⟩
  | executed hkind herror hop hcond hexec =>
    rw [hkind]
    obtain ⟨op, hsome⟩ := Option.ne_none_iff_exists'.mp hop
    obtain ⟨hcycles, hinstret⟩ := counts_of_exec hsome hexec
    rw [condHolds_beginStep, if_pos hcond] at hcycles
    exact ⟨herror, hcond, op, hsome, kept_of_exec keptByUpdates_error hop hexec herror, hinstret, hcycles⟩

/-! The error flag. -/

/-- A step leaves error 1 exactly where it was 1 or the fetched word has no operation (R25, R151). -/
theorem step_error_iff {s t : State} (h : step s = .next t) :
    t.error = true ↔ s.error = true ∨ (fetchInstr s).op = none := by
  cases step_cases h with
  | noOp _ herror ht => simp [ht, herror]
  | invalid _ _ hop ht => simp [ht, hop]
  | skipped _ herror hop _ hexec => simp [kept_of_exec keptByUpdates_error hop hexec herror, herror, hop]
  | executed _ herror hop _ hexec => simp [kept_of_exec keptByUpdates_error hop hexec herror, herror, hop]

theorem loadImage_error (file : List Byte) (s : State) : (loadImage file s).error = s.error := by
  unfold loadImage
  split
  · rfl
  · rfl

/-- The controller's actions that leave the error state (R155, log entry 7). -/
theorem interact_error_eq_false_iff {s : State} (h : s.error = true) (x : Action) :
    (interact x s).error = false ↔ x = .resetState ∨ x = .setError false := by
  cases x with
  | executeInstruction => simp [interact, step_of_error h, outcomeState, h]
  | resetState => simp [interact]
  | loadImage file => simp [interact, loadImage_error, h]
  | setError b => simp [interact]
  | _ => simp [interact, h]

/-- Settles O48: the exception alone sets the flag, and of the actions two can clear it. -/
theorem errorStateEntryAndExit : Obligations.ErrorStateEntryAndExit :=
  ⟨fun _ _ h => step_error_iff h, fun x _ h => interact_error_eq_false_iff h x⟩

end Sys2Proof.Machine
end

section
/-! SUPPORT. Memory in canonical form (20_memory.md R31 to R35, 70_reset_and_hazards.md R168, log entry 5): kept by
every step and every action, determined by its words, and filled by an image; settles O39, O40, O42, O43, O54 and
O58. -/

namespace Sys2Proof.Machine

/-! The canonical form along steps and actions. -/

/-- Only a memory write touches memory, and it keeps the canonical form. -/
theorem keptByUpdates_inv : KeptByUpdates State.Inv where
  writeReg {s r v} hs := (congrArg Memory.wf (writeReg_mem r v s)).trans hs
  addCycles hs := hs
  memWrite {_ a v} hs := wf_writeWord hs a v
  writeFlags hs := hs
  writeTpat hs := hs
  writeFpat hs := hs
  writeOut hs := hs
  callInput {s} hs := (congrArg Memory.wf (callInput_mem s)).trans hs
  retire hs := hs

/-- Settles O39: neither the exception nor clearing `out_changed` touches memory, and an instruction is made of updates
that keep the form. -/
theorem stepKeepsMemoryCanonical : Obligations.StepKeepsMemoryCanonical := by
  intro s t hinv hstep
  cases step_cases hstep with
  | noOp _ _ ht => exact ht ▸ hinv
  | invalid _ _ _ ht => exact ht ▸ hinv
  | skipped _ _ hop _ hexec => exact kept_of_exec keptByUpdates_inv hop hexec hinv
  | executed _ _ hop _ hexec => exact kept_of_exec keptByUpdates_inv hop hexec hinv

/-- Settles O40: no cell is listed, so every byte is blank. -/
theorem resetMemoryIsCanonical : Obligations.ResetMemoryIsCanonical := ⟨wf_reset, readWord_nil⟩

theorem loadImage_of_fits {file : List Byte} (h : file.length ≤ memBytes) (s : State) :
    loadImage file s = { s with mem := imageCells 0 file } :=
  if_neg h.not_gt

theorem loadImage_of_too_large {file : List Byte} (h : memBytes < file.length) (s : State) : loadImage file s = s :=
  if_pos h

theorem inv_loadImage {s : State} (hinv : s.Inv) (file : List Byte) : (loadImage file s).Inv := by
  by_cases h : file.length ≤ memBytes
  · rw [loadImage_of_fits h]
    exact wf_imageCells file h
  · rwa [loadImage_of_too_large (not_le.mp h)]

theorem inv_interact {s : State} (hinv : s.Inv) (x : Action) : (interact x s).Inv := by
  cases x with
  | executeInstruction =>
    obtain ⟨t, hstep⟩ := step_next s
    rw [interact, hstep]
    exact stepKeepsMemoryCanonical s t hinv hstep
  | resetMemory => exact wf_nil
  | loadImage file => exact inv_loadImage hinv file
  | setReg r v => exact keptByUpdates_inv.writeReg hinv
  | setWord a v => exact wf_writeWord hinv a v
  | _ => exact hinv

/-- Settles O43, by induction on the session. -/
theorem controllerKeepsMemoryCanonical : Obligations.ControllerKeepsMemoryCanonical := by
  intro xs
  induction xs with
  | nil => exact fun s hinv => hinv
  | cons x xs ih => exact fun s hinv => ih (interact x s) (inv_interact hinv x)

/-! A canonical memory is determined by its words. -/

theorem toNat_wordOfBytes (high low : Byte) : (wordOfBytes high low).toNat = low.toNat + 256 * high.toNat := by
  simp only [wordOfBytes, BitVec.toNat_ofNat]
  omega

/-- A word gives both its bytes back (R35). -/
theorem wordOfBytes_inj {high low high' low' : Byte} (h : wordOfBytes high low = wordOfBytes high' low') :
    high = high' ∧ low = low' := by
  have hnat := congrArg BitVec.toNat h
  simp only [toNat_wordOfBytes] at hnat
  have hlow := low.isLt
  have hlow' := low'.isLt
  exact ⟨BitVec.eq_of_toNat_eq (by omega), BitVec.eq_of_toNat_eq (by omega)⟩

/-- Every byte address inside memory is the low or the high one of a word. -/
theorem exists_lowAddr_or_highAddr {x : Nat} (h : x < memBytes) : ∃ a : Word, x = lowAddr a ∨ x = highAddr a := by
  have hhalf : x / 2 < 65536 := by simp only [memBytes] at h; omega
  refine ⟨BitVec.ofNat 16 (x / 2), ?_⟩
  simp only [lowAddr, highAddr, BitVec.toNat_ofNat, Nat.reducePow, Nat.mod_eq_of_lt hhalf]
  omega

/-- Canonical memories that agree on words agree on bytes, those past the end being blank in both. -/
theorem readByte_eq_of_readWord_eq {m n : Memory} (hm : Memory.wf m = true) (hn : Memory.wf n = true)
    (h : ∀ a : Word, readWord m a = readWord n a) (x : Nat) : readByte m x = readByte n x := by
  by_cases hx : x < memBytes
  · obtain ⟨a, ha⟩ := exists_lowAddr_or_highAddr hx
    obtain ⟨hhigh, hlow⟩ := wordOfBytes_inj (h a)
    obtain rfl | rfl := ha
    · exact hlow
    · exact hhigh
  · rw [readByte_of_ge hm (not_lt.mp hx), readByte_of_ge hn (not_lt.mp hx)]

theorem wfFrom_cons_iff {lo : Nat} {c : Host.Cell} {m : Memory} :
    Memory.wfFrom lo (c :: m) = true ↔
      lo ≤ c.1 ∧ c.1 < memBytes ∧ c.2 ≠ blankByte ∧ Memory.wfFrom (c.1 + 1) m = true := by
  simp only [Memory.wfFrom, Bool.and_eq_true, decide_eq_true_eq, bne_iff_ne, and_assoc]

theorem readByte_cons_same (c : Host.Cell) (m : Memory) : readByte (c :: m) c.1 = c.2 := if_pos rfl

theorem readByte_cons_of_ne {c : Host.Cell} {x : Nat} (h : c.1 ≠ x) (m : Memory) :
    readByte (c :: m) x = readByte m x := if_neg h

/-- The first listed cell of a canonical memory is its first byte that is not blank. -/
theorem first_cell_le_of_readByte_eq {lo : Nat} {c : Host.Cell} {m n : Memory} (hc : c.2 ≠ blankByte)
    (hn : Memory.wfFrom lo n = true) (h : ∀ x, readByte (c :: m) x = readByte n x) : lo ≤ c.1 := by
  by_contra hlt
  exact hc (by rw [← readByte_cons_same c m, h, readByte_of_lt hn (not_le.mp hlt)])

/-- Canonical memories with the same bytes are the same cells: each starts at the first byte that is not blank, and
past that cell both read alike again. -/
theorem eq_of_readByte_eq {m n : Memory} {lo : Nat} (hm : Memory.wfFrom lo m = true) (hn : Memory.wfFrom lo n = true)
    (h : ∀ x, readByte m x = readByte n x) : m = n := by
  induction m generalizing lo n with
  | nil =>
    cases n with
    | nil => rfl
    | cons d n =>
      obtain ⟨-, -, hd, -⟩ := wfFrom_cons_iff.mp hn
      exact absurd ((readByte_cons_same d n).symm.trans (h d.1).symm) hd
  | cons c m ih =>
    obtain ⟨-, hlt, hc, hm'⟩ := wfFrom_cons_iff.mp hm
    cases n with
    | nil => exact absurd ((readByte_cons_same c m).symm.trans (h c.1)) hc
    | cons d n =>
      obtain ⟨-, hlt', hd, hn'⟩ := wfFrom_cons_iff.mp hn
      have hdc : d.1 ≤ c.1 :=
        first_cell_le_of_readByte_eq hc (wfFrom_cons_iff.mpr ⟨le_rfl, hlt', hd, hn'⟩) h
      have hcd : c.1 ≤ d.1 :=
        first_cell_le_of_readByte_eq hd (wfFrom_cons_iff.mpr ⟨le_rfl, hlt, hc, hm'⟩) fun x => (h x).symm
      have haddr : c.1 = d.1 := le_antisymm hcd hdc
      have hbyte : c.2 = d.2 := by rw [← readByte_cons_same c m, h, haddr, readByte_cons_same]
      obtain rfl : c = d := Prod.ext haddr hbyte
      refine congrArg _ (ih hm' hn' fun x => ?_)
      by_cases hx : c.1 = x
      · rw [readByte_of_lt hm' (by omega), readByte_of_lt hn' (by omega)]
      · rw [← readByte_cons_of_ne hx m, h, readByte_cons_of_ne hx]

/-- Settles O54: the words give the bytes, and the bytes give the cells. -/
theorem canonicalMemoriesThatReadAlikeAreEqual : Obligations.CanonicalMemoriesThatReadAlikeAreEqual :=
  fun _ _ hm hn h => eq_of_readByte_eq hm hn (readByte_eq_of_readWord_eq hm hn h)

/-! The image load. -/

/-- Below its first address an image lists nothing. -/
theorem readByte_imageCells_of_lt (bs : List Byte) {k x : Nat} (h : x < k) :
    readByte (imageCells k bs) x = blankByte := by
  induction bs generalizing k with
  | nil => rfl
  | cons b bs ih =>
    rw [imageCells, readByte_consByte, ih (by omega), if_neg h.ne', ite_self]

/-- A byte of an image is that of the file, a byte past the end of the file counting as 0 (R168). -/
theorem readByte_imageCells (bs : List Byte) (k j : Nat) : readByte (imageCells k bs) (k + j) = bs.getD j 0 := by
  induction bs generalizing k j with
  | nil => rfl
  | cons b bs ih =>
    rw [imageCells, readByte_consByte]
    cases j with
    | zero =>
      simp only [Nat.add_zero, if_true, List.getD_cons_zero, readByte_imageCells_of_lt bs (Nat.lt_add_one k)]
      split
      case isTrue hblank => exact hblank.symm
      case isFalse => rfl
    | succ j =>
      have hne : k ≠ k + (j + 1) := by omega
      rw [if_neg hne, ite_self, ← Nat.add_assoc, Nat.add_right_comm, ih, List.getD_cons_succ]

theorem readWord_loadImage {file : List Byte} (h : file.length ≤ memBytes) (s : State) (a : Word) :
    readWord (loadImage file s).mem a =
      wordOfBytes (file.getD (2 * a.toNat + 1) 0) (file.getD (2 * a.toNat) 0) := by
  have hbyte (x : Nat) : readByte (imageCells 0 file) x = file.getD x 0 := by
    simpa only [Nat.zero_add] using readByte_imageCells file 0 x
  rw [loadImage_of_fits h, readWord, hbyte, hbyte, highAddr, lowAddr]

/-- Settles O42: each word is its two bytes of the file, or the file is rejected. -/
theorem imageLoadFillsMemory : Obligations.ImageLoadFillsMemory := by
  refine fun file s => ⟨fun hfits => ⟨fun a => ?_, ?_, ?_⟩, fun hlarge => loadImage_of_too_large hlarge s⟩
  · rw [interact, readWord_loadImage hfits, toNat_wordOfBytes]
  · rw [interact, loadImage_of_fits hfits]
    exact wf_imageCells file hfits
  · rw [interact, loadImage_of_fits hfits]

/-- The two bytes of the `i`-th word in an image file, low byte first; past its end both are 0 (R35). -/
theorem getD_imageBytes (ws : List Word) (i : Nat) :
    (imageBytes ws).getD (2 * i) 0 = lowByte (ws.getD i 0) ∧
      (imageBytes ws).getD (2 * i + 1) 0 = highByte (ws.getD i 0) := by
  induction ws generalizing i with
  | nil => exact ⟨rfl, by simp [imageBytes, highByte]⟩
  | cons w ws ih =>
    cases i with
    | zero => exact ⟨rfl, rfl⟩
    | succ i => exact ih i

/-- Settles O58: a word loaded from its own two bytes is that word. -/
theorem imageOfWordsLoadsBack : Obligations.ImageOfWordsLoadsBack := by
  intro ws s hlen a
  have hfits : (imageBytes ws).length ≤ memBytes := by rw [length_imageBytes, memBytes]; omega
  obtain ⟨hlow, hhigh⟩ := getD_imageBytes ws a.toNat
  rw [interact, readWord_loadImage hfits, hlow, hhigh, wordOfBytes_high_low]

end Sys2Proof.Machine
end

section
/-! SUPPORT. Who touches the devices (10_state.md R23, R24, 60_exceptions.md R159, 47_io_query_pattern.md R145): the
output latch is written by `OUT` only, the supplier is called by `IN` only, and the opcode map by nobody; settles O44,
O49 and O59. -/

namespace Sys2Proof.Machine

/-! The execute phase of an instruction. -/

/-- What the operation of an instruction does in the execute phase, as a function of the instruction; an invalid
opcode has no execute phase. -/
def effect : Instr → State → State
  | .set r o _, p => writeReg r (operandValue o p) p
  | .ld r o _, p => loadReg r (operandValue o p) p
  | .st r o _, p => memWrite (operandValue o p) (readReg r p) p
  | .sti r o _, p => memWrite (readReg r p) (operandValue o p) p
  | .jump _ o _, p => writeReg .ip (operandValue o p) p
  | .rdflags r _ _, p => writeReg r (flagWord p.flags) p
  | .wrflags _ o _, p => writeFlags (flagsOfWord (operandValue o p)) p
  | .pushr r _ _, p => push (readReg r p) p
  | .pushv _ o _, p => push (operandValue o p) p
  | .pop r _ _, p => popReg r p
  | .call r o _, p => writeReg r (operandValue o p) (push (readReg r p) p)
  | .ret _ _ _, p => popReg .ip p
  | .ldfp r o _, p => loadReg r (frameAddr o p) p
  | .stfp r o _, p => memWrite (frameAddr o p) (readReg r p) p
  | .ldsp r o _, p => loadReg r (stackAddr o p) p
  | .stsp r o _, p => memWrite (stackAddr o p) (readReg r p) p
  | .swapfp r o _, p => swapReg r (frameAddr o p) p
  | .swapsp r o _, p => swapReg r (stackAddr o p) p
  | .xchg r o _, p => exchangeRegs r (operandReg o) p
  | .and r o _, p => bitwise (fun x y => x &&& y) r o p
  | .nand r o _, p => bitwise (fun x y => ~~~(x &&& y)) r o p
  | .or r o _, p => bitwise (fun x y => x ||| y) r o p
  | .nor r o _, p => bitwise (fun x y => ~~~(x ||| y)) r o p
  | .xor r o _, p => bitwise (fun x y => x ^^^ y) r o p
  | .xnor r o _, p => bitwise (fun x y => ~~~(x ^^^ y)) r o p
  | .not r o _, p => writeRegZS r (~~~(operandValue o p)) p
  | .test r o _, p => writeFlags (setZS (readReg r p &&& operandValue o p) p.flags) p
  | .cmpeq r o _, p => compareStore (fun x y => x == y) r o p
  | .cmpne r o _, p => compareStore (fun x y => x != y) r o p
  | .rotl r o _, p => rotate rotlWord r o p
  | .rotr r o _, p => rotate rotrWord r o p
  | .shl r o _, p => shift shlWord r o p
  | .shlc r o _, p => shift shlcWord r o p
  | .shr r o _, p => shift shrWord r o p
  | .shrc r o _, p => shift shrcWord r o p
  | .shra r o _, p => shift shraWord r o p
  | .add r o _, p => writeRegFlags r (addForm (readReg r p) (operandValue o p) false) p
  | .addc r o _, p => writeRegFlags r (addForm (readReg r p) (operandValue o p) p.flags.cf) p
  | .sub r o _, p => writeRegFlags r (subForm (readReg r p) (operandValue o p) false) p
  | .subb r o _, p => writeRegFlags r (subForm (readReg r p) (operandValue o p) p.flags.cf) p
  | .comp r o _, p => writeFlags (subForm (readReg r p) (operandValue o p) false).2 p
  | .sbbr r o _, p => writeRegFlags r (subForm (operandValue o p) (readReg r p) p.flags.cf) p
  | .subr r o _, p => writeRegFlags r (subForm (operandValue o p) (readReg r p) false) p
  | .out _ o _, p => writeOut (operandValue o p) p
  | .inp r _ _, p => writeRegZS r (inputValue p) (callInput p)
  | .qery r o _, p => writeReg r (Config.queryTable (operandValue o p)) p
  | .settpat _ o _, p => writeTpat (operandValue o p) p
  | .setfpat _ o _, p => writeFpat (operandValue o p) p
  | .invalid _ _ _ _, p => p

/-- Executing a valid instruction issues its effect (R67, R77). -/
theorem exec_eq_issue {i : Instr} (hop : i.op ≠ none) (s : State) :
    exec i s = issue i.arg2 i.cond (effect i) s := by
  cases i with
  | invalid k r o cc => exact absurd rfl hop
  | _ => rfl

/-- What moving `ip` on, retiring and the effect each keep, and the exception too, the instruction keeps. -/
theorem exec_keeps_of_effect {α : Type} (f : State → α) (hadvance : ∀ o s, f (advance o s) = f s)
    (hretire : ∀ s, f (retire s) = f s) (hraise : ∀ s, f (raiseInvalidOpcode s) = f s) {i : Instr}
    (heffect : ∀ p, f (effect i p) = f p) {s t : State} (h : exec i s = .next t) : f t = f s := by
  by_cases hop : i.op = none
  · rw [exec_of_op_none hop] at h
    cases h
    exact hraise s
  · exact exec_keeps_of_issue f hadvance hretire (exec_eq_issue hop) heffect h

/-! What an instruction keeps of the devices. -/

theorem effect_output_of_ne_out {i : Instr} (hop : i.op ≠ some .out) (p : State) :
    (effect i p).out = p.out ∧ (effect i p).outChanged = p.outChanged := by
  cases i with
  | out r o cc => exact absurd rfl hop
  | _ => simp [effect]

theorem effect_input_of_ne_inp {i : Instr} (hop : i.op ≠ some .inp) (p : State) :
    (effect i p).supplier = p.supplier ∧ (effect i p).inputCalls = p.inputCalls := by
  cases i with
  | inp r o cc => exact absurd rfl hop
  | _ => simp [effect]

theorem exec_output_of_ne_out {i : Instr} {s t : State} (h : exec i s = .next t) (hop : i.op ≠ some .out) :
    KeepsOutput s t :=
  ⟨exec_keeps_of_effect State.out advance_out retire_out raiseInvalidOpcode_out
      (fun p => (effect_output_of_ne_out hop p).1) h,
    exec_keeps_of_effect State.outChanged advance_outChanged retire_outChanged raiseInvalidOpcode_outChanged
      (fun p => (effect_output_of_ne_out hop p).2) h⟩

theorem exec_input_of_ne_inp {i : Instr} {s t : State} (h : exec i s = .next t) (hop : i.op ≠ some .inp) :
    KeepsInput s t :=
  ⟨exec_keeps_of_effect State.supplier advance_supplier retire_supplier raiseInvalidOpcode_supplier
      (fun p => (effect_input_of_ne_inp hop p).1) h,
    exec_keeps_of_effect State.inputCalls advance_inputCalls retire_inputCalls raiseInvalidOpcode_inputCalls
      (fun p => (effect_input_of_ne_inp hop p).2) h⟩

theorem keptByUpdates_opcodeMap (m : OpcodeMap) : KeptByUpdates (fun s => s.opcodeMap = m) where
  writeReg := (writeReg_opcodeMap ..).trans
  addCycles := (addCycles_opcodeMap ..).trans
  memWrite := (memWrite_opcodeMap ..).trans
  writeFlags := (writeFlags_opcodeMap ..).trans
  writeTpat := (writeTpat_opcodeMap ..).trans
  writeFpat := (writeFpat_opcodeMap ..).trans
  writeOut := (writeOut_opcodeMap ..).trans
  callInput := (callInput_opcodeMap ..).trans
  retire := (retire_opcodeMap ..).trans

/-- An instruction whose condition does not hold touches no device. -/
theorem exec_devices_of_not_holds {i : Instr} {s t : State} (hop : i.op ≠ none) (hcond : condHolds i.cond s = false)
    (h : exec i s = .next t) : KeepsOutput s t ∧ KeepsInput s t := by
  cases h.symm.trans (falseConditionOnlyRetires i s hop hcond)
  exact ⟨⟨rfl, rfl⟩, rfl, rfl⟩

/-! The output latch. -/

theorem exec_out_output {i : Instr} {s t : State} (hop : i.op = some .out) (hcond : condHolds i.cond s = true)
    (h : exec i s = .next t) : t.out = operandValue i.arg2 s ∧ t.outChanged = true := by
  have hi : i = .out i.arg1 i.arg2 i.cond := eq_instrOf hop
  obtain ⟨t', ht', hout, hchanged, -⟩ := outWritesLatch i.arg1 i.arg2 i.cond s hcond
  rw [← hi, h] at ht'
  cases ht'
  exact ⟨hout, hchanged⟩

/-- A running step raises `out_changed` exactly where it executes an `OUT`, and the latch then holds its operand. -/
theorem step_outChanged {s t : State} (herror : s.error = false) (h : step s = .next t) :
    (t.outChanged = true ↔ (fetchInstr s).op = some .out ∧ stepKind s = .executed) ∧
      (t.outChanged = true → t.out = operandValue (fetchInstr s).arg2 s) := by
  cases step_cases h with
  | noOp _ hin => simp [hin] at herror
  | invalid hkind _ _ ht => simp [hkind, ht]
  | skipped hkind _ hop hcond hexec =>
    obtain ⟨⟨-, hchanged⟩, -⟩ := exec_devices_of_not_holds hop ((condHolds_beginStep ..).trans hcond) hexec
    simp [hkind, hchanged]
  | executed hkind _ hop hcond hexec =>
    by_cases hout : (fetchInstr s).op = some .out
    · obtain ⟨hlatch, hchanged⟩ := exec_out_output hout ((condHolds_beginStep ..).trans hcond) hexec
      simp [hkind, hout, hchanged, hlatch]
    · obtain ⟨-, hchanged⟩ := exec_output_of_ne_out hexec hout
      simp [hout, hchanged]

/-- Settles O44: no other instruction touches the latch or its flag, and a step clears the flag first. -/
theorem outputChangesOnlyByOut : Obligations.OutputChangesOnlyByOut := by
  refine ⟨fun i s t h hchanged => of_not_not fun hop => ?_, fun s t => step_outChanged⟩
  exact hchanged (exec_output_of_ne_out h hop).1

/-! The input supplier. -/

/-- A call takes the first known integer, if any, off the list (R159, log entry 4). -/
@[simp] theorem callInput_supplier (s : State) : (callInput s).supplier = s.supplier.map List.tail := by
  unfold callInput
  split
  case h_1 hnone => rw [hnone, Option.map_none]
  case h_2 vs hsome => rw [hsome, Option.map_some]

/-- Only a call of an attached supplier counts (R159). -/
@[simp] theorem callInput_inputCalls (s : State) :
    (callInput s).inputCalls = s.inputCalls + s.supplier.isSome.toNat := by
  unfold callInput
  split
  case h_1 hnone => simp [hnone]
  case h_2 vs hsome => simp [hsome]

/-- An executed `IN` calls the supplier, once. -/
theorem exec_inp_input {i : Instr} {s t : State} (hop : i.op = some .inp) (hcond : condHolds i.cond s = true)
    (h : exec i s = .next t) :
    t.supplier = s.supplier.map List.tail ∧ t.inputCalls = s.inputCalls + s.supplier.isSome.toNat := by
  have hi : i = .inp i.arg1 i.arg2 i.cond := eq_instrOf hop
  rw [hi, exec_inp, issue_of_holds hcond] at h
  cases h
  simp

/-- The supplier's own state after a step (R159). -/
theorem step_input {s t : State} (h : step s = .next t) :
    if stepKind s = .executed ∧ (fetchInstr s).op = some .inp then
      t.supplier = s.supplier.map List.tail ∧ t.inputCalls = s.inputCalls + s.supplier.isSome.toNat
    else KeepsInput s t := by
  cases step_cases h with
  | noOp hkind _ ht => simp [hkind, ht, KeepsInput]
  | invalid hkind _ _ ht => simp [hkind, ht, KeepsInput]
  | skipped hkind _ hop hcond hexec =>
    simpa [hkind, KeepsInput] using (exec_devices_of_not_holds hop ((condHolds_beginStep ..).trans hcond) hexec).2
  | executed hkind _ hop hcond hexec =>
    by_cases hinp : (fetchInstr s).op = some .inp
    · simpa [hkind, hinp] using exec_inp_input hinp ((condHolds_beginStep ..).trans hcond) hexec
    · simpa [hinp, KeepsInput] using exec_input_of_ne_inp hexec hinp

theorem step_opcodeMap {s t : State} (h : step s = .next t) : t.opcodeMap = s.opcodeMap := by
  cases step_cases h with
  | noOp _ _ ht => rw [ht]
  | invalid _ _ _ ht => rw [ht]; rfl
  | skipped _ _ hop _ hexec => exact kept_of_exec (keptByUpdates_opcodeMap _) hop hexec rfl
  | executed _ _ hop _ hexec => exact kept_of_exec (keptByUpdates_opcodeMap _) hop hexec rfl

/-- Settles O49: an executed `IN` calls an attached supplier, which stays attached, and no other step calls it. -/
theorem supplierCalledOncePerExecutedIn : Obligations.SupplierCalledOncePerExecutedIn := by
  intro s t h
  have hinput := step_input h
  have hmap := step_opcodeMap h
  by_cases hcall : stepKind s = .executed ∧ (fetchInstr s).op = some .inp
  · rw [if_pos hcall] at hinput
    obtain ⟨hsupplier, hcalls⟩ := hinput
    refine ⟨?_, by rw [hsupplier, Option.isSome_map], hmap⟩
    cases hattached : s.supplier.isSome <;> simp [hcalls, hcall, hattached]
  · rw [if_neg hcall] at hinput
    obtain ⟨hsupplier, hcalls⟩ := hinput
    exact ⟨by rw [hcalls, if_neg fun ⟨hkind, hop, _⟩ => hcall ⟨hkind, hop⟩, Nat.add_zero], by rw [hsupplier], hmap⟩

/-- Settles O59: the next integer and what a call leaves are both read off the list of known integers. -/
theorem inTakesTheNextSuppliedInteger : Obligations.InTakesTheNextSuppliedInteger := by
  intro r o cc s
  obtain ⟨t, h⟩ := exec_next (.inp r o cc) s
  refine ⟨t, h, fun hcond => ?_, fun hcond => ?_⟩
  · exact (exec_devices_of_not_holds (i := .inp r o cc) (Option.some_ne_none _) hcond h).2
  · obtain ⟨hsupplier, hcalls⟩ := exec_inp_input (i := .inp r o cc) rfl hcond h
    refine ⟨fun hnone => ?_, fun v vs hknown => ?_, fun hempty => ?_⟩
    · simp [nextInput, KeepsInput, hnone, hsupplier, hcalls]
    · simp [nextInput, hknown, hsupplier, hcalls]
    · simp [nextInput, hempty, hsupplier, hcalls]

end Sys2Proof.Machine
end

section
/-! SUPPORT. Who writes which flag (10_state.md R20): an instruction keeps the flags, sets `zf` and `sf` from a result,
shifts a bit into `cf` besides, or replaces all four; settles O46. -/

namespace Sys2Proof.Machine

/-- The operations that set `zf` and `sf` from their result and keep `cf` and `of` (R10). -/
def resultFlagOps : List (Option Op) :=
  [some .and, some .nand, some .or, some .nor, some .xor, some .xnor, some .not, some .test, some .rotl, some .rotr,
    some .inp]

/-- The shifts, which write `cf` too, unless their count is 0 (R125). -/
def shiftOps : List (Option Op) := [some .shl, some .shlc, some .shr, some .shrc, some .shra]

/-- The operations that write all four flags (R95, R134). -/
def allFlagOps : List (Option Op) :=
  [some .add, some .addc, some .sub, some .subb, some .comp, some .sbbr, some .subr, some .wrflags]

/-- How the flags of `t` may differ from those of `s` where `i` takes one to the other. -/
inductive FlagCase (i : Instr) (s t : State) : Prop where
  | kept (hflags : t.flags = s.flags)
  | result (hop : i.op ∈ resultFlagOps) (hcf : t.flags.cf = s.flags.cf) (hof : t.flags.of = s.flags.of)
  | shifted (hop : i.op ∈ shiftOps) (hcf : (operandValue i.arg2 s).toNat % 16 = 0 → t.flags.cf = s.flags.cf)
      (hof : t.flags.of = s.flags.of)
  | all (hop : i.op ∈ allFlagOps)

/-- By a count of 0 a shift's closed form keeps its carry. -/
def KeepsCarryAtZero (f : Bool → Word → Nat → Bool × Word) : Prop := ∀ cf x, (f cf x 0).1 = cf

theorem keepsCarryAtZero_of_eq_steps {f : Bool → Word → Nat → Bool × Word} {step : Bool × Word → Bool × Word}
    (hf : ∀ cf x {n}, n < 16 → f cf x n = shiftSteps step n (cf, x)) : KeepsCarryAtZero f := by
  intro cf x
  rw [hf cf x (by omega)]
  rfl

/-- A shift of the count 0 keeps `cf`, any shift keeps `of` (R124, R125). -/
theorem flagCase_of_shift {i : Instr} {f : Bool → Word → Nat → Bool × Word} {r : Reg} {p : State}
    (heffect : effect i p = shift f r i.arg2 p) (hop : i.op ∈ shiftOps) (hf : KeepsCarryAtZero f) :
    FlagCase i p (effect i p) := by
  refine .shifted hop (fun hcount => ?_) (by simp [heffect])
  have hcf : (effect i p).flags.cf = (f p.flags.cf (readReg r p) (shiftCount (operandValue i.arg2 p))).1 := by
    simp [heffect]
  rw [hcf, shiftCount_eq_mod, hcount]
  exact hf ..

/-- What an operation's effect does to the flags. -/
theorem effect_flagCase (i : Instr) (p : State) : FlagCase i p (effect i p) := by
  cases i with
  | and | nand | or | nor | xor | xnor | not | test | rotl | rotr | inp =>
    exact .result (by simp [Instr.op, resultFlagOps]) (by simp [effect]) (by simp [effect])
  | shl => exact flagCase_of_shift rfl (by simp [Instr.op, shiftOps]) (keepsCarryAtZero_of_eq_steps shlWord_eq_steps)
  | shlc => exact flagCase_of_shift rfl (by simp [Instr.op, shiftOps]) (keepsCarryAtZero_of_eq_steps shlcWord_eq_steps)
  | shr => exact flagCase_of_shift rfl (by simp [Instr.op, shiftOps]) (keepsCarryAtZero_of_eq_steps shrWord_eq_steps)
  | shrc => exact flagCase_of_shift rfl (by simp [Instr.op, shiftOps]) (keepsCarryAtZero_of_eq_steps shrcWord_eq_steps)
  | shra => exact flagCase_of_shift rfl (by simp [Instr.op, shiftOps]) (keepsCarryAtZero_of_eq_steps shraWord_eq_steps)
  | add | addc | sub | subb | comp | sbbr | subr | wrflags => exact .all (by simp [Instr.op, allFlagOps])
  | _ => exact .kept (by simp [effect])

/-- The flags change only where the condition holds, and then as the effect changes them. -/
theorem exec_flagCase {i : Instr} {s t : State} (h : exec i s = .next t) :
    t.flags = s.flags ∨ (condHolds i.cond s = true ∧ FlagCase i s t) := by
  by_cases hop : i.op = none
  · rw [exec_of_op_none hop] at h
    cases h
    exact .inl rfl
  · rw [exec_eq_issue hop, issue_next] at h
    cases h
    cases hcond : condHolds i.cond s with
    | false => exact .inl rfl
    | true =>
      refine .inr ⟨rfl, ?_⟩
      cases effect_flagCase i (advance i.arg2 s) with
      | kept hflags => exact .kept hflags
      | result hmem hcf hof => exact .result hmem hcf hof
      | shifted hmem hcf hof => exact .shifted hmem (by simpa using hcf) hof
      | all hmem => exact .all hmem

/-- Settles O46: each flag is among those the case at hand writes. -/
theorem flagsWrittenOnlyByTheirOperations : Obligations.FlagsWrittenOnlyByTheirOperations := by
  intro i s t h
  obtain hflags | ⟨hcond, hcase⟩ := exec_flagCase h
  · simp [hflags]
  · refine ⟨fun _ => hcond, fun hzs => ?_, fun hcf => ?_, fun hof => ?_⟩
    · cases hcase with
      | kept hflags => simp [hflags] at hzs
      | result hmem _ _ => exact (by decide : resultFlagOps ⊆ _) hmem
      | shifted hmem _ _ => exact (by decide : shiftOps ⊆ _) hmem
      | all hmem => exact (by decide : allFlagOps ⊆ _) hmem
    · cases hcase with
      | kept hflags => exact absurd (congrArg Flags.cf hflags) hcf
      | result _ hkept _ => exact absurd hkept hcf
      | shifted hmem hkept _ => exact .inl ⟨hmem, fun hcount => hcf (hkept hcount)⟩
      | all hmem => exact .inr hmem
    · cases hcase with
      | kept hflags => exact absurd (congrArg Flags.of hflags) hof
      | result _ _ hkept => exact absurd hkept hof
      | shifted _ _ hkept => exact absurd hkept hof
      | all hmem => exact hmem

end Sys2Proof.Machine
end

section
/-! SUPPORT. The counters (10_state.md R26 to R28, 70_reset_and_hazards.md R175): a step commutes with adding to them,
so it reads neither; settles O47. -/

namespace Sys2Proof.Machine

/-- The state with `a` more retired instructions and `b` more cycles. -/
def addCounters (a b : Nat) (s : State) : State := { s with instret := s.instret + a, cycles := s.cycles + b }

/-- The state with both counters at 0. -/
def zeroCounters (s : State) : State := { s with instret := 0, cycles := 0 }

/-- Values in the counters are what was added since they were 0. -/
theorem addCounters_zeroCounters (a b : Nat) (s : State) :
    addCounters a b (zeroCounters s) = { s with instret := a, cycles := b } := by
  simp only [addCounters, zeroCounters, Nat.zero_add]

section Readings
variable (a b : Nat) (s : State)

@[simp] theorem addCounters_regs : (addCounters a b s).regs = s.regs := rfl
@[simp] theorem addCounters_flags : (addCounters a b s).flags = s.flags := rfl
@[simp] theorem addCounters_tpat : (addCounters a b s).tpat = s.tpat := rfl
@[simp] theorem addCounters_fpat : (addCounters a b s).fpat = s.fpat := rfl
@[simp] theorem addCounters_mem : (addCounters a b s).mem = s.mem := rfl

@[simp] theorem readReg_addCounters (r : Reg) : readReg r (addCounters a b s) = readReg r s := by
  cases r <;> rfl
@[simp] theorem operandValue_addCounters (o : Operand) : operandValue o (addCounters a b s) = operandValue o s := by
  cases o <;> rfl
@[simp] theorem condHolds_addCounters (cc : Cond) : condHolds cc (addCounters a b s) = condHolds cc s := by
  cases cc <;> rfl
@[simp] theorem inputValue_addCounters : inputValue (addCounters a b s) = inputValue s := rfl
@[simp] theorem frameAddr_addCounters (o : Operand) : frameAddr o (addCounters a b s) = frameAddr o s := by
  simp [frameAddr]
@[simp] theorem stackAddr_addCounters (o : Operand) : stackAddr o (addCounters a b s) = stackAddr o s := by
  simp [stackAddr]

end Readings

section Updates
variable (a b : Nat) (s : State)

@[simp] theorem writeReg_addCounters (r : Reg) (v : Word) :
    writeReg r v (addCounters a b s) = addCounters a b (writeReg r v s) := by
  cases r <;> rfl
@[simp] theorem addCycles_addCounters (n : Nat) :
    addCycles n (addCounters a b s) = addCounters a b (addCycles n s) := by
  simp only [addCycles, addCounters, Nat.add_right_comm]
@[simp] theorem memWrite_addCounters (x v : Word) :
    memWrite x v (addCounters a b s) = addCounters a b (memWrite x v s) :=
  addCycles_addCounters a b { s with mem := writeWord s.mem x v } 1
@[simp] theorem writeFlags_addCounters (f : Flags) :
    writeFlags f (addCounters a b s) = addCounters a b (writeFlags f s) := rfl
@[simp] theorem writeTpat_addCounters (v : Word) :
    writeTpat v (addCounters a b s) = addCounters a b (writeTpat v s) := rfl
@[simp] theorem writeFpat_addCounters (v : Word) :
    writeFpat v (addCounters a b s) = addCounters a b (writeFpat v s) := rfl
@[simp] theorem writeOut_addCounters (v : Word) :
    writeOut v (addCounters a b s) = addCounters a b (writeOut v s) := rfl
@[simp] theorem callInput_addCounters : callInput (addCounters a b s) = addCounters a b (callInput s) := by
  cases h : s.supplier <;> simp [callInput, addCounters, h]
@[simp] theorem advance_addCounters (o : Operand) :
    advance o (addCounters a b s) = addCounters a b (advance o s) := by
  simp [advance]
@[simp] theorem retire_addCounters : retire (addCounters a b s) = addCounters a b (retire s) := by
  simp only [retire, addCounters, Nat.add_right_comm]

end Updates

theorem effect_addCounters (i : Instr) (a b : Nat) (p : State) :
    effect i (addCounters a b p) = addCounters a b (effect i p) := by
  cases i with
  | _ => simp [effect]

theorem exec_addCounters {i : Instr} {s t : State} (h : exec i s = .next t) (a b : Nat) :
    exec i (addCounters a b s) = .next (addCounters a b t) := by
  by_cases hop : i.op = none
  · rw [exec_of_op_none hop] at h ⊢
    cases h
    rfl
  · rw [exec_eq_issue hop, issue_next] at h ⊢
    cases h
    rw [condHolds_addCounters, advance_addCounters, effect_addCounters, ← apply_ite (addCounters a b),
      retire_addCounters]

/-- A step from raised counters is the step, with its counters raised as much (R28). -/
theorem step_addCounters {s t : State} (h : step s = .next t) (a b : Nat) :
    step (addCounters a b s) = .next (addCounters a b t) := by
  cases herror : s.error with
  | true =>
    rw [step_of_error herror] at h
    cases h
    exact step_of_error herror
  | false =>
    rw [step_of_running herror] at h
    exact (step_of_running (s := addCounters a b s) herror).trans (exec_addCounters h a b)

/-- Settles O47: both runs are the run from counters at 0, with the values each began with added at the end. -/
theorem countersAreNeverRead : Obligations.CountersAreNeverRead := by
  intro s m n
  obtain ⟨z, hz⟩ := step_next (zeroCounters s)
  have hrun (a b : Nat) : step { s with instret := a, cycles := b } = .next (addCounters a b z) := by
    rw [← addCounters_zeroCounters]
    exact step_addCounters hz a b
  refine ⟨addCounters s.instret s.cycles z, addCounters m n z, hrun s.instret s.cycles, hrun m n, rfl, ?_, ?_⟩
  · exact Nat.add_right_comm ..
  · exact Nat.add_right_comm ..

end Sys2Proof.Machine
end

section
/-! SUPPORT. Signed arithmetic (46_arithmetic.md R134, R137, R139, R142, 90_conflicts.md C3): `of` as leaving the signed
range, subtraction against addition of the negative, and the conditions after a comparison; settles O51, O52 and O56. -/

namespace Sys2Proof.Machine

/-! A word as a signed number. -/

/-- The signed value is the unsigned one below 32768, and 65536 less from there on. -/
theorem toInt_cases (x : Word) :
    (x.toNat < 32768 ∧ x.toInt = x.toNat) ∨ (32768 ≤ x.toNat ∧ x.toInt = (x.toNat : Int) - 65536) := by
  rw [BitVec.toInt_eq_toNat_cond]
  omega

theorem msb_iff (x : Word) : x.msb = true ↔ 32768 ≤ x.toNat := by
  rw [BitVec.msb_eq_decide, decide_eq_true_eq]

theorem msb_eq_msb_iff (x y : Word) : x.msb = y.msb ↔ (32768 ≤ x.toNat ↔ 32768 ≤ y.toNat) := by
  rw [Bool.eq_iff_iff, msb_iff, msb_iff]

/-! The word and the flags of the two forms. -/

section Forms
variable (p q : Word) (c : Bool)

theorem addForm_zf : (addForm p q c).2.zf = ((addForm p q c).1 == 0) := rfl
theorem addForm_sf : (addForm p q c).2.sf = (addForm p q c).1.msb := rfl
theorem subForm_zf : (subForm p q c).2.zf = ((subForm p q c).1 == 0) := rfl
theorem subForm_sf : (subForm p q c).2.sf = (subForm p q c).1.msb := rfl

theorem toNat_addForm : (addForm p q c).1.toNat = (p.toNat + q.toNat + c.toNat) % 65536 := BitVec.toNat_ofNat ..

theorem toNat_subForm : ((subForm p q c).1.toNat : Int) = ((p.toNat : Int) - q.toNat - c.toNat) % 65536 := by
  rw [subForm, BitVec.toNat_ofInt, Int.toNat_of_nonneg (Int.emod_nonneg _ (by decide))]
  rfl

/-- Operands of one sign with a result of the other: the signed sum has left its range. -/
theorem addForm_of_iff :
    (addForm p q c).2.of = true ↔
      p.toInt + q.toInt + c.toNat < -32768 ∨ 32767 < p.toInt + q.toInt + c.toNat := by
  have hof : (addForm p q c).2.of = true ↔ p.msb = q.msb ∧ ¬ (addForm p q c).1.msb = p.msb := by
    simp [addForm]
  have hword := toNat_addForm p q c
  have hp := p.isLt
  have hq := q.isLt
  have hc := c.toNat_le
  rw [hof, msb_eq_msb_iff, msb_eq_msb_iff]
  obtain hp' | hp' := toInt_cases p
  all_goals obtain hq' | hq' := toInt_cases q
  all_goals omega

/-- Operands of different signs and a result without the minuend's: the signed difference has left its range. -/
theorem subForm_of_iff :
    (subForm p q c).2.of = true ↔
      p.toInt - q.toInt - c.toNat < -32768 ∨ 32767 < p.toInt - q.toInt - c.toNat := by
  have hof : (subForm p q c).2.of = true ↔ ¬ p.msb = q.msb ∧ ¬ (subForm p q c).1.msb = p.msb := by
    simp [subForm]
  have hword := toNat_subForm p q c
  have hp := p.isLt
  have hq := q.isLt
  have hc := c.toNat_le
  rw [hof, msb_eq_msb_iff, msb_eq_msb_iff]
  obtain hp' | hp' := toInt_cases p
  all_goals obtain hq' | hq' := toInt_cases q
  all_goals omega

end Forms

/-- Settles O52: the two forms, one by one. -/
theorem overflowIsSignedRange : Obligations.OverflowIsSignedRange :=
  fun p q c => ⟨addForm_of_iff p q c, subForm_of_iff p q c⟩

/-! Subtracting against adding the negative (R142, C3). -/

section Negation
variable (x y : Word)

/-- Both ways give the same word, and so the same `zf` and `sf`. -/
theorem subForm_word_eq : (subForm x y false).1 = (addForm x (-y) false).1 := by
  have hsub := toNat_subForm x y false
  have hadd := toNat_addForm x (-y) false
  have hy := y.isLt
  rw [BitVec.toNat_neg] at hadd
  rw [Bool.toNat_false] at hsub hadd
  exact BitVec.eq_of_toNat_eq (by omega)

/-- Away from 0 the borrow is the carry inverted. -/
theorem subForm_cf_eq {y : Word} (hy : y ≠ 0) : (subForm x y false).2.cf = !(addForm x (-y) false).2.cf := by
  have hy0 : y.toNat ≠ 0 := fun h => hy (BitVec.eq_of_toNat_eq h)
  have hlt := y.isLt
  rw [Bool.eq_iff_iff, Bool.not_eq_true', ← Bool.not_eq_true]
  simp only [subForm, addForm, decide_eq_true_eq, BitVec.toNat_neg, Bool.toNat_false]
  omega

/-- Nothing is borrowed and nothing carried where 0 is subtracted or added. -/
theorem subForm_cf_zero : (subForm x 0 false).2.cf = false := by
  simp [subForm]

theorem addForm_cf_zero : (addForm x 0 false).2.cf = false := by
  have hx := x.isLt
  simp [addForm, hx]

/-- Away from -32768, whose negative is itself, the signed negative is exact, so both leave the range together. -/
theorem subForm_of_eq {y : Word} (hy : y ≠ 0x8000) : (subForm x y false).2.of = (addForm x (-y) false).2.of := by
  have hneg : (-y).toInt = -y.toInt := BitVec.toInt_neg_of_ne_intMin hy
  rw [Bool.eq_iff_iff, subForm_of_iff, addForm_of_iff, hneg, Bool.toNat_false]
  omega

/-- Subtracting -32768 leaves the range exactly from a minuend that is not negative. -/
theorem subForm_of_intMin : (subForm x 0x8000 false).2.of = !x.msb := by
  have hmin : (0x8000 : Word).toInt = -32768 := rfl
  rw [Bool.eq_iff_iff, subForm_of_iff, hmin, Bool.not_eq_true', ← Bool.not_eq_true, msb_iff, Bool.toNat_false]
  have hx := x.isLt
  obtain hx' | hx' := toInt_cases x
  all_goals omega

/-- Adding -32768 leaves the range exactly from a negative summand. -/
theorem addForm_of_intMin : (addForm x 0x8000 false).2.of = x.msb := by
  have hmin : (0x8000 : Word).toInt = -32768 := rfl
  rw [Bool.eq_iff_iff, addForm_of_iff, hmin, msb_iff, Bool.toNat_false]
  have hx := x.isLt
  obtain hx' | hx' := toInt_cases x
  all_goals omega

end Negation

/-- Settles O51: the two instructions leave the two forms of the same `x[a1]`. -/
theorem subtractAgreesWithAddOfNegative : Obligations.SubtractAgreesWithAddOfNegative := by
  intro r y s
  obtain ⟨t, hsub, htr, htregs, htflags, -⟩ :=
    writesForm_of_issue exec_sub (fun _ _ => rfl) (cc := .always) rfl r (.imm y) (s := s)
  obtain ⟨u, hadd, hur, huregs, huflags, -⟩ :=
    writesForm_of_issue exec_add (fun _ _ => rfl) (cc := .always) rfl r (.imm (-y)) (s := s)
  have hphase (q : Reg) : phaseReg (.imm (-y)) s q = phaseReg (.imm y) s q := rfl
  rw [hphase] at hur huflags
  replace htflags : t.flags = (subForm (phaseReg (.imm y) s r) y false).2 := htflags
  replace huflags : u.flags = (addForm (phaseReg (.imm y) s r) (-y) false).2 := huflags
  have hword := subForm_word_eq (phaseReg (.imm y) s r) y
  refine ⟨t, u, hsub, hadd, fun h0 hmin => ⟨regs_ext fun q => ?_, ?_, ?_, ?_, ?_⟩, ?_, ?_⟩
  · by_cases hq : q = r
    · rw [hq, htr, hur]
      exact hword
    · rw [htregs q (by simpa using hq), huregs q (by simpa using hq), hphase]
  · rw [htflags, huflags, subForm_zf, addForm_zf, hword]
  · rw [htflags, huflags, subForm_sf, addForm_sf, hword]
  · rw [htflags, huflags, subForm_of_eq _ hmin]
  · rw [htflags, huflags, subForm_cf_eq _ h0]
  · rintro rfl
    exact ⟨by rw [htflags, subForm_cf_zero], by rw [huflags]; exact addForm_cf_zero _⟩
  · rintro rfl
    rw [← BitVec.msb_eq_getLsbD_last]
    exact ⟨by rw [htflags, subForm_of_intMin], by rw [huflags]; exact addForm_of_intMin _⟩

/-! The conditions after a comparison (R76, R139). -/

/-- The flags say how `x` and `y` compare: `zf` equality, `cf` the unsigned order, `sf` and `of` the signed one. -/
def FlagsCompare (x y : Word) (f : Flags) : Prop :=
  (f.zf = true ↔ x = y) ∧ (f.cf = true ↔ x.toNat < y.toNat) ∧ ((f.sf ^^ f.of) = true ↔ x.toInt < y.toInt)

theorem flagsCompare_subForm (x y : Word) : FlagsCompare x y (subForm x y false).2 := by
  have hword := toNat_subForm x y false
  have hx := x.isLt
  have hy := y.isLt
  rw [Bool.toNat_false] at hword
  refine ⟨?_, ?_, ?_⟩
  · have hzf : (subForm x y false).2.zf = true ↔ (subForm x y false).1 = 0 := beq_iff_eq
    have hzero : (0 : Word).toNat = 0 := rfl
    rw [hzf, ← BitVec.toNat_inj, ← BitVec.toNat_inj, hzero]
    omega
  · simp only [subForm, decide_eq_true_eq, Bool.toNat_false]
    omega
  · have hsf : (subForm x y false).2.sf = true ↔ 32768 ≤ (subForm x y false).1.toNat := by rw [subForm_sf, msb_iff]
    rw [Bool.xor_iff_ne, ne_eq, Bool.eq_iff_iff, hsf, subForm_of_iff, Bool.toNat_false]
    obtain hx' | hx' := toInt_cases x
    all_goals obtain hy' | hy' := toInt_cases y
    all_goals omega

section Conditions
variable {x y : Word} {t : State} (h : FlagsCompare x y t.flags)
include h

/-- Condition codes 1 to 6. -/
theorem FlagsCompare.unsigned_conditions :
    (condHolds .ugt t = true ↔ y.toNat < x.toNat) ∧ (condHolds .uge t = true ↔ y.toNat ≤ x.toNat) ∧
      (condHolds .ult t = true ↔ x.toNat < y.toNat) ∧ (condHolds .ule t = true ↔ x.toNat ≤ y.toNat) ∧
      (condHolds .eq t = true ↔ x = y) ∧ (condHolds .ne t = true ↔ x ≠ y) := by
  obtain ⟨hzf, hcf, -⟩ := h
  simp only [condHolds, Bool.not_eq_true', ← Bool.not_eq_true, Bool.or_eq_true, hzf, hcf, ne_eq, ← BitVec.toNat_inj]
  exact ⟨by omega, by omega, trivial, by omega, trivial, trivial⟩

/-- Condition codes 7 to 10. -/
theorem FlagsCompare.signed_conditions :
    (condHolds .sgt t = true ↔ y.toInt < x.toInt) ∧ (condHolds .sge t = true ↔ y.toInt ≤ x.toInt) ∧
      (condHolds .slt t = true ↔ x.toInt < y.toInt) ∧ (condHolds .sle t = true ↔ x.toInt ≤ y.toInt) := by
  obtain ⟨hzf, -, hlt⟩ := h
  have hge : (t.flags.sf == t.flags.of) = !(t.flags.sf ^^ t.flags.of) := by
    cases t.flags.sf <;> cases t.flags.of <;> rfl
  simp only [condHolds, hge, Bool.not_eq_true', ← Bool.not_eq_true, Bool.or_eq_true, hzf, hlt, ← BitVec.toInt_inj]
  exact ⟨by omega, by omega, trivial, by omega⟩

end Conditions

/-- Settles O56: `COMP` leaves the flags of the difference, which compare its operands. -/
theorem compThenConditionsCompare : Obligations.CompThenConditionsCompare := by
  intro r o s
  obtain ⟨t, hexec, hflags, -⟩ := exec_comp_writesFlags (cc := .always) rfl r o (s := s)
  have hcompare : FlagsCompare _ _ t.flags := hflags ▸ flagsCompare_subForm (phaseReg o s r) (operandValue o s)
  obtain ⟨hugt, huge, hult, hule, heq, hne⟩ := hcompare.unsigned_conditions
  exact ⟨t, _, _, rfl, rfl, hexec, hugt, huge, hult, hule, heq, hne, hcompare.signed_conditions⟩

end Sys2Proof.Machine
end

section
/-! SUPPORT. Control flow through memory (42_stack.md R101, R102, 20_memory.md section 5): a call and its return, and a
store seen by the fetch after it but not by the instruction that makes it; settles O53 and O55. -/

namespace Sys2Proof.Machine

/-! A call and its return. -/

/-- Settles O53: the return address is pushed at the old `sp`, where the return finds it, and neither touches any other
register but `sp`, which moves up and down again. -/
theorem callThenReturnComesBack : Obligations.CallThenReturnComesBack := by
  intro r o p s hinv
  obtain ⟨t, hcall, hword, hip, hsp, -, hregs, hflags, -, hcycles, -⟩ :=
    callPushesThenSetsRegister .ip o .always s hinv rfl
  obtain ⟨-, hret⟩ := retPopsIntoIp r p .always t
  obtain ⟨u, hret, hip', hsp', hregs', hflags', -, -, hcycles', -⟩ := hret rfl
  have hback : t.regs.sp - 1 = s.regs.sp := by rw [hsp (by decide), BitVec.add_sub_cancel]
  have hkept (q : Reg) (hqip : q ≠ .ip) (hqsp : q ≠ .sp) : readReg q u = readReg q s := by
    rw [hregs' q (by simp [hqip, hqsp]), phaseReg_of_ne hqip, hregs q (by simp [hqip, hqsp]), phaseReg_of_ne hqip]
  have hend : u.regs = (writeReg .ip (phaseReg o s .ip) s).regs := regs_ext fun q => by
    cases q with
    | ip => exact hip'.trans (by rw [hback, hword, readReg_writeReg_same])
    | sp => exact hsp'.trans hback
    | _ => exact hkept _ (by decide) (by decide)
  exact ⟨t, u, hcall, hip, hret, hend, hflags'.trans hflags, by rw [hcycles', hcycles]; omega⟩

/-! A store and the fetch. -/

/-- Settles O55: a store lands at its address whatever is fetched from there, so the next fetch finds it, and the
instruction that makes it is the one fetched before. -/
theorem storeIsSeenByNextFetch : Obligations.StoreIsSeenByNextFetch := by
  obtain ⟨hst, -⟩ := storesWriteTheirAddress
  refine ⟨fun r o s hinv haddr => ?_, fun r o s hinv herror hfetch _ => ?_⟩
  · obtain ⟨t, hexec, hword, -, hregs, -⟩ := hst r o .always s hinv rfl
    have hip : t.regs.ip = operandValue o s := (hregs .ip List.not_mem_nil).trans haddr.symm
    exact ⟨t, hexec, by rw [fetchWord, hip, hword]⟩
  · obtain ⟨t, hexec, hword, hmem, hregs, hflags, hrest, hcounts⟩ := hst r o .always (beginStep s) hinv rfl
    obtain ⟨-, -, -, hkept, -⟩ := hrest
    simp only [operandValue_beginStep, phaseReg_beginStep] at hword hmem
    refine ⟨t, ?_, hword, hmem, fun q hq => ?_, hflags, hkept.trans herror, hcounts⟩
    · rw [step_of_running herror, hfetch, hexec]
    · rw [hregs q hq, phaseReg_beginStep]

end Sys2Proof.Machine
end

section
/-! SUPPORT. The assembler's operands (30_encoding.md R52, R64): each form is a register, a value or an immediate, and
reads back as what was written; settles O57. -/

namespace Sys2Proof.Machine

theorem assembleOperand_literal_of_range {v : Int} (h : literalInRange v = true) :
    assembleOperand (.literal v) = some (valueOperand v) := if_pos h

theorem assembleOperand_forced_of_range {v : Int} (h : literalInRange v = true) :
    assembleOperand (.forced v) = some (immediateOperand v) := if_pos h

theorem assembleOperand_of_not_range {v : Int} (h : ¬ literalInRange v = true) :
    assembleOperand (.literal v) = none ∧ assembleOperand (.forced v) = none := ⟨if_neg h, if_neg h⟩

/-- Whatever form of a value assembles, it is as a value or as an immediate. -/
theorem assembleOperand_eq_some {x : SourceOperand} {v : Int} {o : Operand}
    (hx : x ∈ [SourceOperand.literal v, .forced v, .known v, .reference v]) (h : assembleOperand x = some o) :
    o = valueOperand v ∨ o = immediateOperand v := by
  simp only [List.mem_cons, List.not_mem_nil, or_false] at hx
  obtain rfl | rfl | rfl | rfl := hx
  · exact .inl (Option.some.inj (Option.ite_none_right_eq_some.mp h).2).symm
  · exact .inr (Option.some.inj (Option.ite_none_right_eq_some.mp h).2).symm
  · exact .inl (Option.some.inj h).symm
  · exact .inr (Option.some.inj h).symm

/-- Settles O57: the short values go without an immediate, and both forms read back as the value modulo 65536. -/
theorem assemblerOperandsCarryTheirValue : Obligations.AssemblerOperandsCarryTheirValue := by
  refine ⟨rfl, ⟨rfl, rfl, rfl⟩, fun v => ⟨fun hlow hhigh => ?_, fun hout => ?_, rfl, fun x o s hx h => ?_⟩⟩
  · have hrange : literalInRange v = true := (literalInRange_iff v).mpr ⟨hlow, hhigh⟩
    refine ⟨assembleOperand_forced_of_range hrange, (assembleOperand_literal_of_range hrange).symm,
      fun h0 h1 h2 => ?_⟩
    rw [assembleOperand_literal_of_range hrange, valueOperand_of_ne h0 h1 h2]
    rfl
  · have hrange : ¬ literalInRange v = true := by rw [literalInRange_iff]; omega
    obtain ⟨hliteral, hforced⟩ := assembleOperand_of_not_range hrange
    have hknown : valueOperand v = immediateOperand v := valueOperand_of_ne (by omega) (by omega) (by omega)
    exact ⟨hliteral, hforced, congrArg some hknown⟩
  · obtain rfl | rfl := assembleOperand_eq_some hx h
    · exact valueOperand_value v s
    · exact immediateOperand_value v s

end Sys2Proof.Machine
end
